-- ==== Sys2Proof/Word.lean ====
section
/-! DEFINITION. The machine's word types (spec/00_scope.md R6, R7): a 32-bit command or control word,
a byte of the buffer, and one 16-bit lane of a polynomial or mulcache register. -/

namespace Sys2Proof

/-- A 32-bit word: a command word (R80) or the value of a control register (R28). -/
abbrev Word := BitVec 32

/-- One byte of `BUF` (R27): a `u8` of R6. -/
abbrev Byte := BitVec 8

/-- One lane of a register (R20, R24): the 16-bit two's complement pattern of an `int16` (R6).
`BitVec.toInt` is `sext_16` of R8, `BitVec.ofInt 16` is `zext_16` of R8 on an `int16`. -/
abbrev Lane := BitVec 16

end Sys2Proof
end

