-- ==== Sys2Proof/Syntax.lean ====
section
/-! DEFINITION. The RE command set (spec/30_encoding.md R81, R83): one constructor for each of the 29
rows of spec/opcode_table.json. A command's operands are register numbers and a buffer offset,
nothing else (R82). -/

namespace Sys2Proof

/-- A polynomial register number, `P0` to `P7` (R20). -/
abbrev PReg := Fin 8

/-- A mulcache register number, `C0` to `C7` (R24). -/
abbrev CReg := Fin 8

/-- The `off` field: a 12-bit byte offset into `BUF`, unscaled and zero-extended (R82). -/
abbrev Offset := BitVec 12

/-- A command (R83). The destination register comes first; in a format M command `r` is the
polynomial register, the destination of a command that reads `BUF` and the source of one that writes
`BUF` (R81). -/
inductive Instr where
  | add (rd ra rb : PReg)
  | sub (rd ra rb : PReg)
  | reduce (rd : PReg)
  | touns (rd : PReg)
  | tomont (rd : PReg)
  | ntt (rd : PReg)
  | intt (rd : PReg)
  | mulcache (cd : CReg) (ra : PReg)
  | basemul (rd ra rb : PReg) (cc : CReg)
  | basemulacc (rd ra rb : PReg) (cc : CReg)
  | tobytes (r : PReg) (off : Offset)
  | frombytes (r : PReg) (off : Offset)
  | tomsg (r : PReg) (off : Offset)
  | frommsg (r : PReg) (off : Offset)
  | compress4 (r : PReg) (off : Offset)
  | compress5 (r : PReg) (off : Offset)
  | compress10 (r : PReg) (off : Offset)
  | compress11 (r : PReg) (off : Offset)
  | decompress4 (r : PReg) (off : Offset)
  | decompress5 (r : PReg) (off : Offset)
  | decompress10 (r : PReg) (off : Offset)
  | decompress11 (r : PReg) (off : Offset)
  | cbd2 (r : PReg) (off : Offset)
  | cbd3 (r : PReg) (off : Offset)
  | getnoise2 (r : PReg) (off : Offset)
  | getnoise3 (r : PReg) (off : Offset)
  | getnoise4x2 (r : PReg) (off : Offset)
  | getnoise4x3 (r : PReg) (off : Offset)
  | getnoise4xmix (r : PReg) (off : Offset)
  deriving DecidableEq, Repr

end Sys2Proof
end

