-- ==== Sys2Proof/WellFormed.lean ====
section
/-! DEFINITION. The check that a command of `Instr` is one the encoding can spell (spec/30_encoding.md
R91): the destination of a 4-way command is a register quad. Every other operand is in range by its
type. -/

namespace Sys2Proof

/-- R91: the quad is `P0..P3` or `P4..P7`, so the field `r` must be 0 or 4. -/
def isQuad (r : PReg) : Bool := r == 0 || r == 4

/-- A command that some legal word spells. -/
def Instr.wellFormed : Instr → Bool
  | .add _ _ _ => true
  | .sub _ _ _ => true
  | .reduce _ => true
  | .touns _ => true
  | .tomont _ => true
  | .ntt _ => true
  | .intt _ => true
  | .mulcache _ _ => true
  | .basemul _ _ _ _ => true
  | .basemulacc _ _ _ _ => true
  | .tobytes _ _ => true
  | .frombytes _ _ => true
  | .tomsg _ _ => true
  | .frommsg _ _ => true
  | .compress4 _ _ => true
  | .compress5 _ _ => true
  | .compress10 _ _ => true
  | .compress11 _ _ => true
  | .decompress4 _ _ => true
  | .decompress5 _ _ => true
  | .decompress10 _ _ => true
  | .decompress11 _ _ => true
  | .cbd2 _ _ => true
  | .cbd3 _ _ => true
  | .getnoise2 _ _ => true
  | .getnoise3 _ _ => true
  | .getnoise4x2 r _ => isQuad r
  | .getnoise4x3 r _ => isQuad r
  | .getnoise4xmix r _ => isQuad r

end Sys2Proof
end

