-- ==== Sys2Proof/Decode.lean ====
section
/-! DEFINITION. Decoding and encoding a command word (spec/30_encoding.md R80 to R92). `decode` is total
on all 2^32 words and rejects by name; `encode` is written from the same format table R81. -/

namespace Sys2Proof

/-- Why a word is no command (R84, R88). -/
inductive DecodeError where
  /-- `W[7:0]` is not an opcode of R83 (R252). -/
  | illegalOpcode
  /-- The opcode is known and a must-be-zero bit is 1, or `W[9:8] ≠ 0` in a 4-way word (R253). -/
  | illegalField
  deriving DecidableEq, Repr

/-- `w[lo+n-1 : lo]` of R7, as a number. -/
def bits (w : Word) (lo n : Nat) : Nat := w.toNat / 2 ^ lo % 2 ^ n

/-- The three-bit register field whose lowest bit is `lo` (R81). -/
def regField (w : Word) (lo : Nat) : Fin 8 := Fin.ofNat 8 (bits w lo 3)

/-- `off = W[31:20]` (R82). -/
def offField (w : Word) : Offset := BitVec.ofNat 12 (bits w 20 12)

/-- Format R1: `[31:11]` must be zero (R81). -/
def decodeR1 (w : Word) (mk : PReg → Instr) : Except DecodeError Instr :=
  if bits w 11 21 = 0 then .ok (mk (regField w 8)) else .error .illegalField

/-- Format R3: `[31:17]` must be zero (R81). -/
def decodeR3 (w : Word) (mk : PReg → PReg → PReg → Instr) : Except DecodeError Instr :=
  if bits w 17 15 = 0 then .ok (mk (regField w 8) (regField w 11) (regField w 14))
  else .error .illegalField

/-- Format RC: `[31:14]` must be zero (R81). -/
def decodeRC (w : Word) (mk : CReg → PReg → Instr) : Except DecodeError Instr :=
  if bits w 14 18 = 0 then .ok (mk (regField w 8) (regField w 11)) else .error .illegalField

/-- Format R4: `[31:20]` must be zero (R81). -/
def decodeR4 (w : Word) (mk : PReg → PReg → PReg → CReg → Instr) : Except DecodeError Instr :=
  if bits w 20 12 = 0 then
    .ok (mk (regField w 8) (regField w 11) (regField w 14) (regField w 17))
  else .error .illegalField

/-- Format M: `[19:11]` must be zero (R81). -/
def decodeM (w : Word) (mk : PReg → Offset → Instr) : Except DecodeError Instr :=
  if bits w 11 9 = 0 then .ok (mk (regField w 8) (offField w)) else .error .illegalField

/-- Format M of a 4-way command: `[9:8]` must be zero as well (R91). -/
def decodeQuad (w : Word) (mk : PReg → Offset → Instr) : Except DecodeError Instr :=
  if bits w 8 2 = 0 then decodeM w mk else .error .illegalField

/-- `decode(W)` of R88, by the opcode map R83: the opcode first, then the must-be-zero bits. -/
def decode (w : Word) : Except DecodeError Instr :=
  match bits w 0 8 with
  | 0x01 => decodeR3 w .add
  | 0x02 => decodeR3 w .sub
  | 0x03 => decodeR1 w .reduce
  | 0x04 => decodeR1 w .touns
  | 0x05 => decodeR1 w .tomont
  | 0x08 => decodeR1 w .ntt
  | 0x09 => decodeR1 w .intt
  | 0x0C => decodeRC w .mulcache
  | 0x0D => decodeR4 w .basemul
  | 0x0E => decodeR4 w .basemulacc
  | 0x10 => decodeM w .tobytes
  | 0x11 => decodeM w .frombytes
  | 0x12 => decodeM w .tomsg
  | 0x13 => decodeM w .frommsg
  | 0x14 => decodeM w .compress4
  | 0x15 => decodeM w .compress5
  | 0x16 => decodeM w .compress10
  | 0x17 => decodeM w .compress11
  | 0x18 => decodeM w .decompress4
  | 0x19 => decodeM w .decompress5
  | 0x1A => decodeM w .decompress10
  | 0x1B => decodeM w .decompress11
  | 0x20 => decodeM w .cbd2
  | 0x21 => decodeM w .cbd3
  | 0x22 => decodeM w .getnoise2
  | 0x23 => decodeM w .getnoise3
  | 0x24 => decodeQuad w .getnoise4x2
  | 0x25 => decodeQuad w .getnoise4x3
  | 0x26 => decodeQuad w .getnoise4xmix
  | _ => .error .illegalOpcode

/-- A word of the register formats R1, R3, RC and R4: each field at its place of R81, an unused field 0. -/
def encodeRegs (op d a b c : Nat) : Word :=
  BitVec.ofNat 32 (op + d * 2 ^ 8 + a * 2 ^ 11 + b * 2 ^ 14 + c * 2 ^ 17)

/-- A word of format M (R81). -/
def encodeM (op : Nat) (r : PReg) (off : Offset) : Word :=
  BitVec.ofNat 32 (op + r.val * 2 ^ 8 + off.toNat * 2 ^ 20)

/-- The one word that spells a well-formed command (R83, R253). -/
def encode : Instr → Word
  | .add rd ra rb => encodeRegs 0x01 rd.val ra.val rb.val 0
  | .sub rd ra rb => encodeRegs 0x02 rd.val ra.val rb.val 0
  | .reduce rd => encodeRegs 0x03 rd.val 0 0 0
  | .touns rd => encodeRegs 0x04 rd.val 0 0 0
  | .tomont rd => encodeRegs 0x05 rd.val 0 0 0
  | .ntt rd => encodeRegs 0x08 rd.val 0 0 0
  | .intt rd => encodeRegs 0x09 rd.val 0 0 0
  | .mulcache cd ra => encodeRegs 0x0C cd.val ra.val 0 0
  | .basemul rd ra rb cc => encodeRegs 0x0D rd.val ra.val rb.val cc.val
  | .basemulacc rd ra rb cc => encodeRegs 0x0E rd.val ra.val rb.val cc.val
  | .tobytes r off => encodeM 0x10 r off
  | .frombytes r off => encodeM 0x11 r off
  | .tomsg r off => encodeM 0x12 r off
  | .frommsg r off => encodeM 0x13 r off
  | .compress4 r off => encodeM 0x14 r off
  | .compress5 r off => encodeM 0x15 r off
  | .compress10 r off => encodeM 0x16 r off
  | .compress11 r off => encodeM 0x17 r off
  | .decompress4 r off => encodeM 0x18 r off
  | .decompress5 r off => encodeM 0x19 r off
  | .decompress10 r off => encodeM 0x1A r off
  | .decompress11 r off => encodeM 0x1B r off
  | .cbd2 r off => encodeM 0x20 r off
  | .cbd3 r off => encodeM 0x21 r off
  | .getnoise2 r off => encodeM 0x22 r off
  | .getnoise3 r off => encodeM 0x23 r off
  | .getnoise4x2 r off => encodeM 0x24 r off
  | .getnoise4x3 r off => encodeM 0x25 r off
  | .getnoise4xmix r off => encodeM 0x26 r off

/-- The word of a table row's bits: bit 0 is the least significant bit, bits from `nbits` up are 0.
A command is one 32-bit word (R80) and reaches the engine in one 32-bit access, so its bits are
numbered as the table numbers them. -/
def tableWord (nbits w : Nat) : Word := BitVec.ofNat 32 (w % 2 ^ nbits)

/-- The command the decoder reads from the word whose bits are `w`. -/
def decodeTableWord (nbits w : Nat) : Option Instr :=
  match decode (tableWord nbits w) with
  | .ok i => some i
  | .error _ => none

end Sys2Proof
end

