-- ==== Sys2Proof/Machine/Arith.lean ====
section
/-! DEFINITION. The integer arithmetic of the engine: notation (spec/00_scope.md R8, R9), the scalar codec
(spec/40_scalar_codec.md R110 to R115) and Montgomery arithmetic with its twiddle table
(spec/44_ntt.md R191 to R194). Everything is over unbounded integers (R6). -/

namespace Sys2Proof.Machine

/-- `low16` of R8. -/
def low16 (x : Int) : Int := x % 65536

/-- `sext_16` of R8. -/
def sext16 (v : Int) : Int := if v < 32768 then v else v - 65536

/-- `cmod` of R9: the centered residue modulo 3329. -/
def cmod (x : Int) : Int := if x % 3329 ≤ 1664 then x % 3329 else x % 3329 - 3329

/-- `cmov16` of R110. -/
def cmov16 (r v : Int) (b : Bool) : Int := if b then v else r

/-- `to_unsigned` of R111. -/
def toUnsigned (c : Int) : Int := cmov16 c (c + 3329) (decide (c < 0))

/-- `compress_d` of R112. -/
def compress (d : Nat) (u : Int) : Int := (u * 2 ^ d + 1664) / 3329 % 2 ^ d

/-- `decompress_d` of R115, for `d ≥ 1`. -/
def decompress (d : Nat) (y : Int) : Int := (y * 3329 + 2 ^ (d - 1)) / 2 ^ d

/-- `mred` of R191: Montgomery reduction with radix 2^16. The division is exact. -/
def mred (a : Int) : Int := (a - sext16 (low16 (low16 a * 62209)) * 3329) / 65536

/-- `fqmul` of R192. -/
def fqmul (a b : Int) : Int := mred (a * b)

/-- The twiddle table of R194. -/
def zetas : List Int :=
  [-1044, -758, -359, -1517, 1493, 1422, 287, 202] ++
  [-171, 622, 1577, 182, 962, -1202, -1474, 1468] ++
  [573, -1325, 264, 383, -829, 1458, -1602, -130] ++
  [-681, 1017, 732, 608, -1542, 411, -205, -1571] ++
  [1223, 652, -552, 1015, -1293, 1491, -282, -1544] ++
  [516, -8, -320, -666, -1618, -1162, 126, 1469] ++
  [-853, -90, -271, 830, 107, -1421, -247, -951] ++
  [-398, 961, -1508, -725, 448, -1065, 677, -1275] ++
  [-1103, 430, 555, 843, -1251, 871, 1550, 105] ++
  [422, 587, 177, -235, -291, -460, 1574, 1653] ++
  [-246, 778, 1159, -147, -777, 1483, -602, 1119] ++
  [-1590, 644, -872, 349, 418, 329, -156, -75] ++
  [817, 1097, 603, 610, 1322, -1285, -1465, 384] ++
  [-1215, -136, 1218, -1335, -874, 220, -1187, -1659] ++
  [-1185, -1530, -1278, 794, -1510, -854, -870, 478] ++
  [-108, -308, 996, 991, 958, -1460, 1522, 1628]

/-- `zetas[k]` of R194. -/
def zeta (k : Nat) : Int := zetas.getD k 0

end Sys2Proof.Machine
end

