-- ==== Sys2Proof/Config.lean ====
section
/-! DEFINITION. What one implementation of the ring engine fixes (spec/00_scope.md R5): the constants of
the data model, and the two parameters the spec leaves OPEN, `XOF` (R170) and `BASE` (R51). -/

namespace Sys2Proof

/-- `N`, the number of coefficients of a ring element (R5). -/
def Config.n : Nat := 256

/-- `Q`, the modulus (R5). -/
def Config.q : Nat := 3329

/-- `BUF_SIZE`, the number of bytes of the buffer (R5, R27). -/
def Config.bufSize : Nat := 2048

/-- Byte `k` of the stream the external sponge squeezes after absorbing `inp` (R170). The spec leaves
the function open: nothing in this model says which bytes these are. Assumption log entry 2. -/
opaque Config.xofByte : List Byte → Nat → Byte

/-- The first `n` bytes of a byte stream. -/
def Config.squeeze (stream : Nat → Byte) (n : Nat) : List Byte :=
  (List.range n).map stream

/-- `XOF(in, n)` of R170: the first `n` bytes of the stream of `in`. Total, of length `n`, and obeying
the prefix law, which is all R170 assumes of it. -/
def Config.xof (inp : List Byte) (n : Nat) : List Byte :=
  Config.squeeze (Config.xofByte inp) n

/-- The platform's choice of the window's address, in units of four bytes (R51). -/
opaque Config.baseWords : Nat

/-- `BASE`, the bus address of the window, a multiple of 4 (R51). No rule depends on it; a host access
of this model names its offset from it. Assumption log entry 3. -/
def Config.base : Nat := 4 * Config.baseWords

end Sys2Proof
end

