-- ==== Sys2Proof/Machine/State.lean ====
section
/-! DEFINITION. The state of the ring engine (spec/10_state.md R20 to R34) and of its host interface
(spec/20_memory.md R58 to R62, spec/60_exceptions.md R268), as plain data; the fault causes; the reset
state. -/

namespace Sys2Proof.Machine

open Sys2Proof

/-- One polynomial register: exactly 256 lanes of 16 bits (R20). -/
abbrev Poly := Vector Lane 256

/-- One mulcache register (R24): 128 lanes, a valid bit and the number of the source register. -/
structure Cache where
  data : Vector Lane 128
  valid : Bool
  src : PReg
  deriving DecidableEq, Repr

/-- The content of `BUF` (R27), in the canonical form of `Memory.wf`. A byte that is not listed reads
as zero (assumption log entry 1). -/
abbrev Memory := List Host.Cell

/-- The canonical form: addresses strictly rising from `lo` and inside `BUF[0..2047]`, no listed byte
equal to what an unlisted one reads as. -/
def Memory.wfFrom : Nat → Memory → Bool
  | _, [] => true
  | lo, (a, b) :: m => decide (lo ≤ a) && decide (a < Config.bufSize) && (b != 0#8) && Memory.wfFrom (a + 1) m

/-- `BUF` is in canonical form. -/
def Memory.wf (m : Memory) : Bool := Memory.wfFrom 0 m

/-- The causes of a fault of the engine (R250). Each is recorded in `FCAUSE` and the machine goes on
(R259), so none of them is an outcome that stops the model. -/
inductive Cause where
  /-- `W[7:0]` is not an opcode (R252). -/
  | illegalOpcode
  /-- A must-be-zero bit is 1, or a 4-way command does not name a quad (R253). -/
  | illegalField
  /-- The region of a format M command does not fit in `BUF` (R254). -/
  | bufRange
  /-- The cache named is not the valid cache of `P[rb]` (R255). -/
  | cacheInvalid
  /-- A lane is outside the canonical signed range (R256). -/
  | coeffRange
  /-- A 12-bit field is 3329 or more (R257). -/
  | decodeRange
  /-- A result lane does not fit int16 (R258). -/
  | overflow
  deriving DecidableEq, Repr

/-- Access width of the bus (R54). -/
inductive Width where
  | w8
  | w16
  | w32
  deriving DecidableEq, Repr

/-- Data of a bus access, with its width (R54). -/
inductive BusData where
  | b8 (v : BitVec 8)
  | b16 (v : BitVec 16)
  | b32 (v : BitVec 32)
  deriving DecidableEq, Repr

/-- One host access to the window, at a byte offset from `BASE` (R51). -/
inductive BusAccess where
  | read (w : Width) (off : Nat)
  | write (off : Nat) (d : BusData)
  deriving DecidableEq, Repr

/-- What the bus answers to a completed access. -/
inductive BusAnswer where
  /-- The data of a legal read. -/
  | data (d : BusData)
  /-- A legal write has completed. -/
  | done
  /-- The error response of an illegal access (R55); no data is given. -/
  | error
  deriving DecidableEq, Repr

/-- The content of the data registers after a reset, which R34 leaves to the environment ("universally
quantified launch state"). -/
structure Launch where
  polys : Vector Poly 8
  cacheData : Vector (Vector Lane 128) 8
  bytes : Vector Byte 2048
  deriving DecidableEq, Repr

/-- One move of the environment: a host access (R268) or the external reset (R290). -/
inductive HostEvent where
  | access (a : BusAccess)
  | reset (l : Launch)
  deriving DecidableEq, Repr

/-- One pending move of the environment. `early` settles, for a move that may go before a pending engine
step and may go after it (R59, R290), which of the two it does. -/
structure HostMove where
  event : HostEvent
  early : Bool
  deriving DecidableEq, Repr

/-- The whole state. The first eight fields are R20 to R31 (`PARAM` is a constant and `CTAGS` a view,
R29, R32); the last two are the model's interface to the host. -/
structure State where
  /-- `P[0..7]` (R20). -/
  polys : Vector Poly 8
  /-- `C[0..7]` (R24). -/
  caches : Vector Cache 8
  /-- `BUF` (R27). -/
  buf : Memory
  /-- `CMD`: the last accepted command word (R31). -/
  cmd : Word
  /-- `STATUS.BUSY` (R30). -/
  busy : Bool
  /-- `STATUS.FAULT` (R30). -/
  fault : Bool
  /-- `FCAUSE[7:0]` (R31, R250); bits 31 to 8 read as 0. -/
  fcause : BitVec 8
  /-- The moves the environment has still to make, the next one first (R58, R62). -/
  host : List HostMove
  /-- What the bus answered to the last completed host access. -/
  answer : Option BusAnswer
  deriving DecidableEq, Repr

/-- Reasons the machine would stop with a fault. There are none: a fault of the engine is recorded in
`FCAUSE` and the machine goes on (R259), and "nothing in RE is stuck" (spec/93_implementation_defined.md
part 1). Safe. -/
inductive Fault where
  deriving DecidableEq, Repr

/-- Reasons the model would refuse a step. -/
inductive Refusal where
  /-- Raised by an arm of `exec` whose command has no meaning yet. No arm raises it now. Safe. -/
  | notModelled (mnemonic : String)
  deriving DecidableEq, Repr

/-- The result of the engine step or of a host move. -/
abbrev Result := Host.Outcome State Fault Refusal

/-- A mulcache register after reset: tag 0 (R34); its data is DESIGN CHOICE zero, log entry 1. -/
def Cache.reset : Cache := { data := Vector.replicate 128 0, valid := false, src := 0 }

/-- The machine right after reset (R34, R290). `CMD`, `BUSY`, `FAULT`, `FCAUSE` and the tags are the
spec's; the lanes, the cache data and `BUF` are unspecified there and zero here (DESIGN CHOICE, log entry
1: no statement rests on it, and `State.powerOn` is the reset with any content). No host move is
pending. -/
def State.reset : State where
  polys := Vector.replicate 8 (Vector.replicate 256 0)
  caches := Vector.replicate 8 Cache.reset
  buf := []
  cmd := 0
  busy := false
  fault := false
  fcause := 0
  host := []
  answer := none

end Sys2Proof.Machine
end

