-- ==== Sys2Proof/Machine/Operands.lean ====
section
/-! DEFINITION. The operand forms: the lanes of a register as integers (spec/00_scope.md R11), the bytes
of a `BUF` region (R11, spec/30_encoding.md R89), and the packed fields of a byte sequence
(spec/00_scope.md R10, spec/41_byte_codec.md R130). -/

namespace Sys2Proof.Machine

/-- The first `n` entries of a list, filled up with `d`. -/
def padTo {α : Type} (d : α) : Nat → List α → List α
  | 0, _ => []
  | n + 1, [] => d :: padTo d n []
  | n + 1, a :: l => a :: padTo d n l

theorem padTo_length {α : Type} (d : α) (n : Nat) (l : List α) : (padTo d n l).length = n := by
  induction n generalizing l with
  | zero => rfl
  | succ n ih => cases l <;> simp [padTo, ih]

/-- Lane `i` of a register as an int16 (R11). -/
def lane {n : Nat} (v : Vector Lane n) (i : Nat) : Int := if h : i < n then v[i].toInt else 0

/-- All lanes of a register, lane 0 first. -/
def lanes {n : Nat} (v : Vector Lane n) : List Int := v.toList.map BitVec.toInt

/-- A register of `n` lanes from a sequence of int16 values (`P[k] <- f` of R11). -/
def ofLanes (n : Nat) (l : List Int) : Vector Lane n :=
  ⟨(padTo 0 n (l.map (BitVec.ofInt 16))).toArray, by simp [padTo_length]⟩

/-- Polynomial register `r` (R20). -/
def State.poly (s : State) (r : PReg) : Poly := s.polys[r.val]

/-- Mulcache register `k` (R24). -/
def State.cache (s : State) (k : CReg) : Cache := s.caches[k.val]

/-- The byte of `BUF` at an address; a byte that is not listed is zero. -/
def Memory.read : Memory → Nat → Byte
  | [], _ => 0#8
  | (x, b) :: m, a => if x = a then b else Memory.read m a

/-- `MemRead(off, n)` of R11. -/
def memRead (m : Memory) (off n : Nat) : List Byte := (List.range n).map fun k => Memory.read m (off + k)

/-- The `d` low bits of a number, least significant first. -/
def fieldBits (d x : Nat) : List Bool := (List.range d).map x.testBit

/-- The number whose bits are given, least significant first. -/
def natOfBits : List Bool → Nat
  | [] => 0
  | b :: l => b.toNat + 2 * natOfBits l

/-- The bit stream of a byte sequence: stream bit `k` is bit `k mod 8` of byte `k / 8` (R10). -/
def byteBits (bytes : List Byte) : List Bool := bytes.flatMap fun b => fieldBits 8 b.toNat

/-- `bit(B, k)` of R10. -/
def streamBit (bytes : List Byte) (k : Nat) : Bool := (bytes.getD (k / 8) 0#8).getLsbD (k % 8)

/-- `n` consecutive groups of `d` stream bits. -/
def groups (d : Nat) : Nat → List Bool → List (List Bool)
  | 0, _ => []
  | n + 1, l => l.take d :: groups d n (l.drop d)

/-- `unpack_d` of R130. -/
def unpack (d : Nat) (bytes : List Byte) : List Nat := (groups d 256 (byteBits bytes)).map natOfBits

/-- `pack_d` of R130: the stream is the concatenation of the fields, each least significant bit first. -/
def pack (d : Nat) (v : List Nat) : List Byte :=
  (groups 8 (32 * d) (v.flatMap (fieldBits d))).map fun g => BitVec.ofNat 8 (natOfBits g)

end Sys2Proof.Machine
end

