-- ==== Sys2Proof/Machine/Flags.lean ====
section
/-! DEFINITION. RE has no condition flags (spec/10_state.md R23). What stands in their place: the status,
cause, tag and identity words the host reads (R29 to R32), and the range conditions that the engine
checks (spec/60_exceptions.md R250, R256 to R258). -/

namespace Sys2Proof.Machine

/-- `PARAM` (R29): bits 15 to 0 are `Q`, bits 24 to 16 are `N`. -/
def paramWord : Word := BitVec.ofNat 32 (Config.q + Config.n * 2 ^ 16)

/-- `STATUS` (R30): bit 0 is `BUSY`, bit 1 is `FAULT`, the rest reads as 0. -/
def statusWord (s : State) : Word := BitVec.ofNat 32 (s.busy.toNat + 2 * s.fault.toNat)

/-- `FCAUSE` (R31). -/
def causeWord (s : State) : Word := BitVec.ofNat 32 s.fcause.toNat

/-- The nibble of `CTAGS` for one cache: bit 3 is `valid`, bits 2 to 0 are `src` (R32). -/
def tagNibble (c : Cache) : Nat := c.src.val + 8 * c.valid.toNat

/-- `CTAGS` (R32): nibble `k` is the tag of `C[k]`. -/
def tagsWord (s : State) : Word :=
  BitVec.ofNat 32 (s.caches.toList.foldr (fun c acc => tagNibble c + 16 * acc) 0)

/-- The code of a cause in `FCAUSE` (R250). -/
def Cause.code : Cause → BitVec 8
  | .illegalOpcode => 1
  | .illegalField => 2
  | .bufRange => 3
  | .cacheInvalid => 4
  | .coeffRange => 5
  | .decodeRange => 6
  | .overflow => 7

/-- The value fits int16 (R258). -/
def fitsInt16 (x : Int) : Bool := decide (-32768 ≤ x) && decide (x ≤ 32767)

/-- The value is in the canonical signed range (R256). -/
def isCanonical (x : Int) : Bool := decide (-3328 ≤ x) && decide (x ≤ 3328)

/-- The 12-bit field is a residue (R257). -/
def isResidue (v : Nat) : Bool := decide (v ≤ 3328)

end Sys2Proof.Machine
end

