-- ==== Sys2Proof/Machine/Ops.lean ====
section
/-! DEFINITION. The named operations on the state that every command and every host access is made of:
writing `BUF` and registers (spec/00_scope.md R11, spec/10_state.md R25), completing a command
(spec/20_memory.md R60), taking a fault and clearing it (spec/60_exceptions.md R259, R260), reset
(spec/70_reset_and_hazards.md R290), and the engine's checks (R251). -/

namespace Sys2Proof.Machine

/-- Put a byte that is not zero at its place in a list that does not hold its address. -/
def Memory.insert : Memory → Nat → Byte → Memory
  | [], a, b => [(a, b)]
  | (x, c) :: m, a, b => if a < x then (a, b) :: (x, c) :: m else (x, c) :: Memory.insert m a b

/-- Write one byte of `BUF`, keeping the canonical form. -/
def Memory.write (m : Memory) (a : Nat) (b : Byte) : Memory :=
  let rest := m.filter fun c => c.1 != a
  if b = 0#8 then rest else Memory.insert rest a b

/-- `MemWrite(off, n, B)` of R11, with `n` the length of `B`. -/
def memWrite (m : Memory) (off : Nat) : List Byte → Memory
  | [] => m
  | b :: bytes => memWrite (Memory.write m off b) (off + 1) bytes

/-- The tag of a cache after a write to `P[r]`: a cache of `P[r]` loses `valid` and keeps `src` (R25). -/
def Cache.drop (r : PReg) (c : Cache) : Cache := { c with valid := c.valid && c.src != r }

/-- Write polynomial register `r` and, in the same change, invalidate its caches (R25). -/
def State.writePoly (s : State) (r : PReg) (f : Poly) : State :=
  { s with polys := s.polys.set r.val f, caches := s.caches.map (Cache.drop r) }

/-- Write one lane of `P[r]`; the invalidation is that of any write to the register (R25, R66). -/
def State.writeLane (s : State) (r : PReg) (i : Nat) (v : Lane) : State :=
  s.writePoly r ((s.poly r).setIfInBounds i v)

/-- Write the four registers `P[r] .. P[r+3]` of a quad (R91). -/
def State.writeQuad (s : State) (r : PReg) (f0 f1 f2 f3 : Poly) : State :=
  (((s.writePoly r f0).writePoly (r + 1) f1).writePoly (r + 2) f2).writePoly (r + 3) f3

/-- Write a mulcache register and set its tag (R26, R223). -/
def State.writeCache (s : State) (k : CReg) (data : Vector Lane 128) (src : PReg) : State :=
  { s with caches := s.caches.set k.val { data := data, valid := true, src := src } }

/-- Write bytes of `BUF` from `off` on. -/
def State.writeBuf (s : State) (off : Nat) (bytes : List Byte) : State :=
  { s with buf := memWrite s.buf off bytes }

/-- The end of a command that does not fault: `BUSY <- 0`, in the same change as its writes (R60). -/
def State.finish (s : State) : State := { s with busy := false }

/-- Fault entry (R259): `FAULT <- 1`, `FCAUSE <- cause`, `BUSY <- 0`, and nothing else changes. `CMD`
keeps the faulting word (R31). -/
def State.takeFault (c : Cause) (s : State) : State :=
  { s with fault := true, fcause := c.code, busy := false }

/-- Fault clear, the only return (R260): `FAULT <- 0`, `FCAUSE <- 0`. `CMD` keeps its word. When
`FAULT = 0` nothing changes. -/
def State.clearFault (s : State) : State :=
  if s.fault then { s with fault := false, fcause := 0 } else s

/-- A command whose check fails: nothing it computed is written (R11, R259). -/
def raise (c : Cause) (s : State) : Result := .next (s.takeFault c)

/-- A command that completes in the state given. -/
def complete (s : State) : Result := .next s.finish

/-- Check 2 of R251 for a 4-way command: the destination is a quad (R91). -/
def checkQuad (r : PReg) (s : State) (k : Result) : Result :=
  if isQuad r then k else raise .illegalField s

/-- Check 3 of R251: the region of `len` bytes at `off` lies inside `BUF` (R90, R254). -/
def checkRegion (off : Offset) (len : Nat) (s : State) (k : Result) : Result :=
  if off.toNat + len ≤ Config.bufSize then k else raise .bufRange s

/-- Check 4 of R251: `C[cc]` is the valid cache of `P[rb]` (R255). -/
def checkTag (cc : CReg) (rb : PReg) (s : State) (k : Result) : Result :=
  if (s.cache cc).valid && (s.cache cc).src == rb then k else raise .cacheInvalid s

/-- Check 5 of R251, `COEFF_RANGE`: every lane of `P[r]` is in the canonical signed range (R256). -/
def checkCanonical (r : PReg) (s : State) (k : Result) : Result :=
  if (lanes (s.poly r)).all isCanonical then k else raise .coeffRange s

/-- Check 5 of R251, `DECODE_RANGE`: every 12-bit field is a residue (R257). -/
def checkResidues (v : List Nat) (s : State) (k : Result) : Result :=
  if v.all isResidue then k else raise .decodeRange s

/-- Check 5 of R251, `OVERFLOW`: every result lane fits int16 (R258). -/
def checkFits (v : List Int) (s : State) (k : Result) : Result :=
  if v.all fitsInt16 then k else raise .overflow s

/-- Write a sequence of 256 int16 values to `P[r]` and complete. -/
def completePoly (r : PReg) (f : List Int) (s : State) : Result := complete (s.writePoly r (ofLanes 256 f))

/-- `BUF` in canonical form from its 2048 bytes. -/
def Memory.ofBytes (bytes : List Byte) : Memory := memWrite [] 0 (bytes.take Config.bufSize)

/-- The reset event (R290, R34) with the launch content the environment gives: control state and tags
are 0; a command in flight is abandoned without any of its writes and without a fault. The pending host
moves are not state of RE and stay. -/
def State.powerOn (s : State) (l : Launch) : State where
  polys := l.polys
  caches := l.cacheData.map fun d => { data := d, valid := false, src := 0 }
  buf := Memory.ofBytes l.bytes.toList
  cmd := 0
  busy := false
  fault := false
  fcause := 0
  host := s.host
  answer := none

end Sys2Proof.Machine
end

