-- ==== Sys2Proof/Machine/Bus.lean ====
section
/-! DEFINITION. The host's side (spec/20_memory.md R51 to R67, spec/60_exceptions.md R268): legal reads
and writes of the bus window, the answer to an illegal access, which accesses complete while a command
runs, and one move of the environment. -/

namespace Sys2Proof.Machine

/-- The 32-bit control registers by offset (R28). -/
def readControl (s : State) (off : Nat) : Option Word :=
  match off with
  | 0x0000 => some paramWord
  | 0x0004 => some s.cmd
  | 0x0008 => some (statusWord s)
  | 0x000C => some (causeWord s)
  | 0x0010 => some (tagsWord s)
  | _ => none

/-- A 16-bit access to the `P` window (R51): the register and the lane. -/
def polyWindow (off : Nat) : Option (PReg × Nat) :=
  if 0x1000 ≤ off ∧ off < 0x2000 ∧ off % 2 = 0 then
    some (Fin.ofNat 8 ((off - 0x1000) / 0x200), (off - 0x1000) % 0x200 / 2)
  else none

/-- A 16-bit access to the `C` window (R51): the mulcache register and the entry. -/
def cacheWindow (off : Nat) : Option (CReg × Nat) :=
  if 0x2000 ≤ off ∧ off < 0x2800 ∧ off % 2 = 0 then
    some (Fin.ofNat 8 ((off - 0x2000) / 0x100), (off - 0x2000) % 0x100 / 2)
  else none

/-- An access of `n` bytes to the `BUF` window (R51, R54): the `BUF` offset, a multiple of `n`. -/
def bufWindow (n off : Nat) : Option Nat :=
  if 0x2800 ≤ off ∧ off < 0x3000 ∧ off % n = 0 then some (off - 0x2800) else none

/-- Byte `j` of a little-endian value (R52). -/
def byteOf {n : Nat} (v : BitVec n) (j : Nat) : Byte := BitVec.ofNat 8 (v.toNat / 2 ^ (8 * j))

/-- The number whose little-endian bytes are given (R52). -/
def ofBytesLE : List Byte → Nat
  | [] => 0
  | b :: l => b.toNat + 256 * ofBytesLE l

/-- The lane at a position, as the 16-bit pattern on the bus (R52). -/
def lanePattern {n : Nat} (v : Vector Lane n) (i : Nat) : BitVec 16 := if h : i < n then v[i] else 0

/-- A read of the window; `none` if it is illegal (R54). -/
def busRead (s : State) (w : Width) (off : Nat) : Option BusData :=
  match w with
  | .w8 => (bufWindow 1 off).map fun a => .b8 (Memory.read s.buf a)
  | .w16 =>
    match polyWindow off, cacheWindow off, bufWindow 2 off with
    | some (r, i), _, _ => some (.b16 (lanePattern (s.poly r) i))
    | none, some (k, p), _ => some (.b16 (lanePattern (s.cache k).data p))
    | none, none, some a => some (.b16 (BitVec.ofNat 16 (ofBytesLE (memRead s.buf a 2))))
    | none, none, none => none
  | .w32 =>
    match readControl s off, bufWindow 4 off with
    | some v, _ => some (.b32 v)
    | none, some a => some (.b32 (BitVec.ofNat 32 (ofBytesLE (memRead s.buf a 4))))
    | none, none => none

/-- A write of a word to `CMD` (R61): accepted if `FAULT = 0`, discarded if `FAULT = 1`. No check of the
word is made here. -/
def writeCmd (s : State) (v : Word) : State :=
  if s.fault then s else { s with cmd := v, busy := true }

/-- A write to `STATUS` (R30, R260): bit 1 of the data clears the fault, every other bit is ignored. -/
def writeStatus (s : State) (v : Word) : State := if v.getLsbD 1 then s.clearFault else s

/-- A write to the window; `none` if it is illegal (R54). Only `CMD` and `STATUS` can be written among
the control registers, and the `C` window cannot be written (R54, R67). -/
def busWrite (s : State) (off : Nat) (d : BusData) : Option State :=
  match d with
  | .b8 v => (bufWindow 1 off).map fun a => s.writeBuf a [v]
  | .b16 v =>
    match polyWindow off, bufWindow 2 off with
    | some (r, i), _ => some (s.writeLane r i v)
    | none, some a => some (s.writeBuf a [byteOf v 0, byteOf v 1])
    | none, none => none
  | .b32 v =>
    match off, bufWindow 4 off with
    | 0x0004, _ => some (writeCmd s v)
    | 0x0008, _ => some (writeStatus s v)
    | _, some a => some (s.writeBuf a [byteOf v 0, byteOf v 1, byteOf v 2, byteOf v 3])
    | _, none => none

/-- The offset of one of the five control registers (R28). -/
def isControl (off : Nat) : Bool :=
  off == 0x0000 || off == 0x0004 || off == 0x0008 || off == 0x000C || off == 0x0010

/-- The legal accesses of R54: they depend on the kind, the width and the offset alone. -/
def BusAccess.isLegal (a : BusAccess) : Bool :=
  match a with
  | .read .w8 off => (bufWindow 1 off).isSome
  | .read .w16 off => (polyWindow off).isSome || (cacheWindow off).isSome || (bufWindow 2 off).isSome
  | .read .w32 off => isControl off || (bufWindow 4 off).isSome
  | .write off (.b8 _) => (bufWindow 1 off).isSome
  | .write off (.b16 _) => (polyWindow off).isSome || (bufWindow 2 off).isSome
  | .write off (.b32 _) => off == 0x0004 || off == 0x0008 || (bufWindow 4 off).isSome

/-- R59: a legal read of a control register completes while `BUSY = 1`; so does an illegal access, which
never reaches the state (R55, log entry 4); every other legal access is held. -/
def BusAccess.completesWhileBusy (a : BusAccess) : Bool :=
  match a with
  | .read .w32 off => isControl off || !a.isLegal
  | .read .w16 _ => !a.isLegal
  | .read .w8 _ => !a.isLegal
  | .write _ _ => !a.isLegal

/-- A move that may be made while `BUSY = 1`: a host access that is not held (R59), or a reset, which may
occur in any state (R290). -/
def HostEvent.mayBeEarly (e : HostEvent) : Bool :=
  match e with
  | .access a => a.completesWhileBusy
  | .reset _ => true

/-- The move goes before a pending engine step. -/
def HostMove.isEarly (m : HostMove) : Bool := m.early && m.event.mayBeEarly

/-- One host access, completed (R55, R56, R57). An illegal access changes no state of RE and gets the
error response. -/
def busAccess (s : State) (a : BusAccess) : State :=
  match a with
  | .read w off =>
    match busRead s w off with
    | some d => { s with answer := some (.data d) }
    | none => { s with answer := some .error }
  | .write off d =>
    match busWrite s off d with
    | some t => { t with answer := some .done }
    | none => { s with answer := some .error }

/-- One move of the environment (R268, R290). -/
def hostEvent (s : State) (e : HostEvent) : State :=
  match e with
  | .access a => busAccess s a
  | .reset l => s.powerOn l

/-- The pending moves with the first one made to wait for the engine. -/
def holdFirst : List HostMove → List HostMove
  | [] => []
  | m :: rest => { m with early := false } :: rest

end Sys2Proof.Machine
end

