-- ==== Sys2Proof/Machine/Codec.lean ====
section
/-! DEFINITION. The byte codec (spec/41_byte_codec.md R132 to R141) and the message codec
(spec/42_message_codec.md R160, R161). The region lengths are those of spec/30_encoding.md R90. -/

namespace Sys2Proof.Machine

/-- The commands that write `BUF`: after the region and the range checks, every lane is made unsigned,
mapped to a `d`-bit field, and the fields are packed at `off` (R132, R134 to R137, R161). -/
def encodeTo (d : Nat) (field : Int → Int) (r : PReg) (off : Offset) (s : State) : Result :=
  checkRegion off (32 * d) s <| checkCanonical r s <|
    complete (s.writeBuf off.toNat
      (pack d ((lanes (s.poly r)).map fun c => (field (toUnsigned c)).toNat)))

/-- The 256 `d`-bit fields of the region at `off` (R130). -/
def fieldsAt (d : Nat) (off : Offset) (s : State) : List Nat :=
  unpack d (memRead s.buf off.toNat (32 * d))

/-- The compressed decoders: every field of the region is decompressed into a lane (R138 to R141). -/
def decompressFrom (d : Nat) (r : PReg) (off : Offset) (s : State) : Result :=
  checkRegion off (32 * d) s <|
    completePoly r ((fieldsAt d off s).map fun (y : Nat) => decompress d (y : Int)) s

/-- `TOBYTES [off], Ps` (R132): 12 bits a coefficient, 384 bytes. -/
def execTobytes (r : PReg) (off : Offset) (s : State) : Result := encodeTo 12 (fun u => u) r off s

/-- `FROMBYTES Pd, [off]` (R133): `DECODE_RANGE` if a field is 3329 or more. -/
def execFrombytes (r : PReg) (off : Offset) (s : State) : Result :=
  checkRegion off 384 s <|
    checkResidues (fieldsAt 12 off s) s <|
      completePoly r ((fieldsAt 12 off s).map fun (v : Nat) => (v : Int)) s

/-- `TOMSG [off], Ps` (R161): one bit a coefficient, 32 bytes. -/
def execTomsg (r : PReg) (off : Offset) (s : State) : Result := encodeTo 1 (compress 1) r off s

/-- `FROMMSG Pd, [off]` (R160): message bit `i` selects lane `i` from 0 and 1665. -/
def execFrommsg (r : PReg) (off : Offset) (s : State) : Result :=
  checkRegion off 32 s <|
    completePoly r ((byteBits (memRead s.buf off.toNat 32)).map fun b => cmov16 0 1665 b) s

/-- `COMPRESS4 [off], Ps` (R134). -/
def execCompress4 (r : PReg) (off : Offset) (s : State) : Result := encodeTo 4 (compress 4) r off s

/-- `COMPRESS5 [off], Ps` (R135). -/
def execCompress5 (r : PReg) (off : Offset) (s : State) : Result := encodeTo 5 (compress 5) r off s

/-- `COMPRESS10 [off], Ps` (R136). -/
def execCompress10 (r : PReg) (off : Offset) (s : State) : Result := encodeTo 10 (compress 10) r off s

/-- `COMPRESS11 [off], Ps` (R137). -/
def execCompress11 (r : PReg) (off : Offset) (s : State) : Result := encodeTo 11 (compress 11) r off s

/-- `DECOMPRESS4 Pd, [off]` (R138). -/
def execDecompress4 (r : PReg) (off : Offset) (s : State) : Result := decompressFrom 4 r off s

/-- `DECOMPRESS5 Pd, [off]` (R139). -/
def execDecompress5 (r : PReg) (off : Offset) (s : State) : Result := decompressFrom 5 r off s

/-- `DECOMPRESS10 Pd, [off]` (R140). -/
def execDecompress10 (r : PReg) (off : Offset) (s : State) : Result := decompressFrom 10 r off s

/-- `DECOMPRESS11 Pd, [off]` (R141). -/
def execDecompress11 (r : PReg) (off : Offset) (s : State) : Result := decompressFrom 11 r off s

end Sys2Proof.Machine
end

