-- ==== Sys2Proof/Machine/Elementwise.lean ====
section
/-! DEFINITION. The lane-wise commands `ADD`, `SUB`, `REDUCE` (spec/46_elementwise.md R240 to R242) and
`TOUNS` (spec/40_scalar_codec.md R118). -/

namespace Sys2Proof.Machine

/-- `ADD Pd, Pa, Pb` (R240): integer sums, `OVERFLOW` if one does not fit int16. -/
def execAdd (rd ra rb : PReg) (s : State) : Result :=
  let sums := List.zipWith (· + ·) (lanes (s.poly ra)) (lanes (s.poly rb))
  checkFits sums s (completePoly rd sums s)

/-- `SUB Pd, Pa, Pb` (R241): integer differences `P[ra] - P[rb]`, `OVERFLOW` as in `ADD`. -/
def execSub (rd ra rb : PReg) (s : State) : Result :=
  let diffs := List.zipWith (· - ·) (lanes (s.poly ra)) (lanes (s.poly rb))
  checkFits diffs s (completePoly rd diffs s)

/-- `REDUCE Pd` (R242): the centered representative of every lane. -/
def execReduce (rd : PReg) (s : State) : Result :=
  completePoly rd ((lanes (s.poly rd)).map cmod) s

/-- `TOUNS Pd` (R118): the unsigned representative of every lane. -/
def execTouns (rd : PReg) (s : State) : Result :=
  checkCanonical rd s (completePoly rd ((lanes (s.poly rd)).map toUnsigned) s)

end Sys2Proof.Machine
end

