-- ==== Sys2Proof/Machine/Multiply.lean ====
section
/-! DEFINITION. The multiplication cache and the cached base multiplication `MULCACHE`, `BASEMUL`,
`BASEMULACC` (spec/45_mulcache_basemul.md R220 to R225). -/

namespace Sys2Proof.Machine

/-- `gamma_m(p)` of R220. -/
def gammaM (p : Nat) : Int := if p % 2 = 0 then zeta (64 + p / 2) else -zeta (64 + p / 2)

/-- `mulcache_fn` of R221. -/
def mulcacheFn (b : List Int) : List Int :=
  (List.range 128).map fun p => fqmul (b.getD (2 * p + 1) 0) (gammaM p)

/-- Lane `i` of `basemul_fn` of R222: the two products are added as integers and reduced once. -/
def basemulLane (a b c : List Int) (i : Nat) : Int :=
  let p := i / 2
  if i % 2 = 0 then
    mred (a.getD (2 * p + 1) 0 * c.getD p 0 + a.getD (2 * p) 0 * b.getD (2 * p) 0)
  else
    mred (a.getD (2 * p) 0 * b.getD (2 * p + 1) 0 + a.getD (2 * p + 1) 0 * b.getD (2 * p) 0)

/-- `basemul_fn` of R222. -/
def basemulFn (a b c : List Int) : List Int := (List.range 256).map (basemulLane a b c)

/-- The product of `P[ra]` and `P[rb]` with the data of `C[cc]` (R224). -/
def cachedProduct (ra rb : PReg) (cc : CReg) (s : State) : List Int :=
  basemulFn (lanes (s.poly ra)) (lanes (s.poly rb)) (lanes (s.cache cc).data)

/-- `MULCACHE Cd, Pa` (R223): compute the cache of `P[ra]` and tag it valid. -/
def execMulcache (cd : CReg) (ra : PReg) (s : State) : Result :=
  complete (s.writeCache cd (ofLanes 128 (mulcacheFn (lanes (s.poly ra)))) ra)

/-- `BASEMUL Pd, Pa, Pb, Cc` (R224): the tag check, then the product, which must fit int16. -/
def execBasemul (rd ra rb : PReg) (cc : CReg) (s : State) : Result :=
  let r := cachedProduct ra rb cc s
  checkTag cc rb s (checkFits r s (completePoly rd r s))

/-- `BASEMULACC Pd, Pa, Pb, Cc` (R225): the product is checked, then its sum with the old `P[rd]`. -/
def execBasemulacc (rd ra rb : PReg) (cc : CReg) (s : State) : Result :=
  let r := cachedProduct ra rb cc s
  let sums := List.zipWith (· + ·) (lanes (s.poly rd)) r
  checkTag cc rb s (checkFits r s (checkFits sums s (completePoly rd sums s)))

end Sys2Proof.Machine
end

