-- ==== Sys2Proof/Machine/Sampler.lean ====
section
/-! DEFINITION. The noise sampler (spec/43_noise_sampler.md R170 to R178): `cbd_eta`, and the seven
commands over bytes of `BUF` or over the external sponge `Config.xof`. The shared operations take the
sponge as an argument, so that a statement about them holds for every sponge. -/

namespace Sys2Proof.Machine

/-- The number of ones among some stream bits. -/
def ones (l : List Bool) : Int := (l.map fun b => (b.toNat : Int)).sum

/-- One coefficient from its `2*eta` stream bits: the first `eta` positive, the next negative (R171). -/
def cbdLane (eta : Nat) (g : List Bool) : Int := ones (g.take eta) - ones (g.drop eta)

/-- `cbd_eta(B)` of R171. -/
def cbd (eta : Nat) (bytes : List Byte) : List Int :=
  (groups (2 * eta) 256 (byteBits bytes)).map (cbdLane eta)

/-- A sponge: the type of `XOF` (R170). -/
abbrev Sponge := List Byte → Nat → List Byte

/-- The noise polynomial of the 33-byte input at `at`: seed (32 bytes), then nonce (R174, R175). -/
def noiseAt (xof : Sponge) (eta at_ : Nat) (s : State) : List Int :=
  cbd eta (xof (memRead s.buf at_ 33) (64 * eta))

/-- Sampling from bytes of `BUF` (R172, R173). -/
def cbdFrom (eta : Nat) (r : PReg) (off : Offset) (s : State) : Result :=
  checkRegion off (64 * eta) s <|
    completePoly r (cbd eta (memRead s.buf off.toNat (64 * eta))) s

/-- Sampling from seed and nonce (R174, R175). -/
def noiseFrom (xof : Sponge) (eta : Nat) (r : PReg) (off : Offset) (s : State) : Result :=
  checkRegion off 33 s <| completePoly r (noiseAt xof eta off.toNat s) s

/-- Batched sampling: four inputs at stride 33, four registers of a quad, written in one change, each
with its own `eta` (R176 to R178). -/
def noiseQuad (xof : Sponge) (e0 e1 e2 e3 : Nat) (r : PReg) (off : Offset) (s : State) : Result :=
  checkQuad r s <| checkRegion off 132 s <|
    complete (s.writeQuad r
      (ofLanes 256 (noiseAt xof e0 off.toNat s))
      (ofLanes 256 (noiseAt xof e1 (off.toNat + 33) s))
      (ofLanes 256 (noiseAt xof e2 (off.toNat + 66) s))
      (ofLanes 256 (noiseAt xof e3 (off.toNat + 99) s)))

/-- `CBD2 Pd, [off]` (R172). -/
def execCbd2 (r : PReg) (off : Offset) (s : State) : Result := cbdFrom 2 r off s

/-- `CBD3 Pd, [off]` (R173). -/
def execCbd3 (r : PReg) (off : Offset) (s : State) : Result := cbdFrom 3 r off s

/-- `GETNOISE2 Pd, [off]` (R174). -/
def execGetnoise2 (r : PReg) (off : Offset) (s : State) : Result := noiseFrom Config.xof 2 r off s

/-- `GETNOISE3 Pd, [off]` (R175). -/
def execGetnoise3 (r : PReg) (off : Offset) (s : State) : Result := noiseFrom Config.xof 3 r off s

/-- `GETNOISE4X2 Pd, [off]` (R176). -/
def execGetnoise4x2 (r : PReg) (off : Offset) (s : State) : Result :=
  noiseQuad Config.xof 2 2 2 2 r off s

/-- `GETNOISE4X3 Pd, [off]` (R177). -/
def execGetnoise4x3 (r : PReg) (off : Offset) (s : State) : Result :=
  noiseQuad Config.xof 3 3 3 3 r off s

/-- `GETNOISE4XMIX Pd, [off]` (R178): the first two outputs with eta 3, the last two with eta 2. -/
def execGetnoise4xmix (r : PReg) (off : Offset) (s : State) : Result :=
  noiseQuad Config.xof 3 3 2 2 r off s

end Sys2Proof.Machine
end

