-- ==== Sys2Proof/Machine/Transform.lean ====
section
/-! DEFINITION. The transforms `NTT`, `INTT` and the domain conversion `TOMONT` (spec/44_ntt.md R195,
R199, R203). The loops are those of the rules' pseudocode, over a list of 256 integers. -/

namespace Sys2Proof.Machine

/-- The innermost body of R195: `t = fqmul(r[j+len], z)`, then `r[j+len] = r[j] - t` and
`r[j] = r[j] + t`, both from the old `r[j]`. -/
def nttButterfly (len : Nat) (z : Int) (r : List Int) (j : Nat) : List Int :=
  let t := fqmul (r.getD (j + len) 0) z
  (r.set (j + len) (r.getD j 0 - t)).set j (r.getD j 0 + t)

/-- The loop over `j` of R195 and R199: `j` in `start .. start + len - 1`. -/
def overBlock (body : Nat → Int → List Int → Nat → List Int) (len start : Nat) (z : Int)
    (r : List Int) : List Int :=
  (List.range' start len).foldl (body len z) r

/-- The values of `start` in one layer: 0, `2*len`, `4*len`, ... below 256. -/
def blockStarts (len : Nat) : List Nat := List.range' 0 (128 / len) (2 * len)

/-- One layer of R195: for each block take `zetas[k]`, then `k = k + 1`. -/
def nttLayer (rk : List Int × Nat) (len : Nat) : List Int × Nat :=
  (blockStarts len).foldl
    (fun rk start => (overBlock nttButterfly len start (zeta rk.2) rk.1, rk.2 + 1)) rk

/-- `ntt_fn` of R195. -/
def nttFn (r : List Int) : List Int := ([128, 64, 32, 16, 8, 4, 2].foldl nttLayer (r, 1)).1

/-- The innermost body of R199: `t = r[j]`, then `r[j] = cmod(t + r[j+len])` and
`r[j+len] = fqmul(r[j+len] - t, z)`. -/
def inttButterfly (len : Nat) (z : Int) (r : List Int) (j : Nat) : List Int :=
  let t := r.getD j 0
  (r.set j (cmod (t + r.getD (j + len) 0))).set (j + len) (fqmul (r.getD (j + len) 0 - t) z)

/-- One layer of R199: for each block take `zetas[k]`, then `k = k - 1`. -/
def inttLayer (rk : List Int × Nat) (len : Nat) : List Int × Nat :=
  (blockStarts len).foldl
    (fun rk start => (overBlock inttButterfly len start (zeta rk.2) rk.1, rk.2 - 1)) rk

/-- `intt_fn` of R199: the scaling by 1441, then the layers with `k` from 127 down. -/
def inttFn (r : List Int) : List Int :=
  ([2, 4, 8, 16, 32, 64, 128].foldl inttLayer (r.map fun x => fqmul x 1441, 127)).1

/-- `NTT Pd` (R195). -/
def execNtt (rd : PReg) (s : State) : Result :=
  checkCanonical rd s (completePoly rd (nttFn (lanes (s.poly rd))) s)

/-- `INTT Pd` (R199): every int16 content is accepted. -/
def execIntt (rd : PReg) (s : State) : Result := completePoly rd (inttFn (lanes (s.poly rd))) s

/-- `TOMONT Pd` (R203): every lane times 2^16 modulo 3329. -/
def execTomont (rd : PReg) (s : State) : Result :=
  completePoly rd ((lanes (s.poly rd)).map fun x => fqmul x 1353) s

end Sys2Proof.Machine
end

