-- ==== Sys2Proof/Machine/Dispatch.lean ====
section
/-! DEFINITION. The meaning of a command, one arm per constructor of `Instr` (spec/30_encoding.md R83,
R88): the checks 2 to 5 of spec/60_exceptions.md R251 and the command's own rule. -/

namespace Sys2Proof.Machine

def exec (i : Instr) (s : State) : Host.Outcome State Fault Refusal :=
  match i with
  | .add rd ra rb => Sys2Proof.Machine.execAdd rd ra rb s
  | .sub rd ra rb => Sys2Proof.Machine.execSub rd ra rb s
  | .reduce rd => Sys2Proof.Machine.execReduce rd s
  | .touns rd => Sys2Proof.Machine.execTouns rd s
  | .tomont rd => Sys2Proof.Machine.execTomont rd s
  | .ntt rd => Sys2Proof.Machine.execNtt rd s
  | .intt rd => Sys2Proof.Machine.execIntt rd s
  | .mulcache cd ra => Sys2Proof.Machine.execMulcache cd ra s
  | .basemul rd ra rb cc => Sys2Proof.Machine.execBasemul rd ra rb cc s
  | .basemulacc rd ra rb cc => Sys2Proof.Machine.execBasemulacc rd ra rb cc s
  | .tobytes r off => Sys2Proof.Machine.execTobytes r off s
  | .frombytes r off => Sys2Proof.Machine.execFrombytes r off s
  | .tomsg r off => Sys2Proof.Machine.execTomsg r off s
  | .frommsg r off => Sys2Proof.Machine.execFrommsg r off s
  | .compress4 r off => Sys2Proof.Machine.execCompress4 r off s
  | .compress5 r off => Sys2Proof.Machine.execCompress5 r off s
  | .compress10 r off => Sys2Proof.Machine.execCompress10 r off s
  | .compress11 r off => Sys2Proof.Machine.execCompress11 r off s
  | .decompress4 r off => Sys2Proof.Machine.execDecompress4 r off s
  | .decompress5 r off => Sys2Proof.Machine.execDecompress5 r off s
  | .decompress10 r off => Sys2Proof.Machine.execDecompress10 r off s
  | .decompress11 r off => Sys2Proof.Machine.execDecompress11 r off s
  | .cbd2 r off => Sys2Proof.Machine.execCbd2 r off s
  | .cbd3 r off => Sys2Proof.Machine.execCbd3 r off s
  | .getnoise2 r off => Sys2Proof.Machine.execGetnoise2 r off s
  | .getnoise3 r off => Sys2Proof.Machine.execGetnoise3 r off s
  | .getnoise4x2 r off => Sys2Proof.Machine.execGetnoise4x2 r off s
  | .getnoise4x3 r off => Sys2Proof.Machine.execGetnoise4x3 r off s
  | .getnoise4xmix r off => Sys2Proof.Machine.execGetnoise4xmix r off s

end Sys2Proof.Machine
end

