-- ==== Sys2Proof/Machine/Step.lean ====
section
/-! DEFINITION. One step of the two-agent system (spec/20_memory.md R58 to R62): the engine step while
`BUSY = 1`, and the moves of the environment in their order. -/

namespace Sys2Proof.Machine

/-- The fault of a word that is no command (R84). -/
def causeOfDecodeError : DecodeError → Cause
  | .illegalOpcode => .illegalOpcode
  | .illegalField => .illegalField

/-- The engine step (R60): decode the latched word (check 1 and 2 of R251), then run the command. -/
def engineStep (s : State) : Host.Outcome State Fault Refusal :=
  match decode s.cmd with
  | .ok i => exec i s
  | .error e => raise (causeOfDecodeError e) s

/-- One step. While `BUSY = 1` the engine moves, unless the next pending move is one that may go first
and does; while `BUSY = 0` the environment makes its next move. With `BUSY = 0` and no pending move
nothing happens. -/
def step (s : State) : Host.Outcome State Fault Refusal :=
  match s.host with
  | [] => if s.busy then engineStep s else .next s
  | m :: rest =>
    if s.busy && !m.isEarly then engineStep s
    else .next (hostEvent { s with host := rest } m.event)

/-- The state with a command latched and pending: `CMD` holds the word, `BUSY = 1` (what the acceptance
of R61 leaves), and the next host move waits for the engine. -/
def State.withFetchWord (s : State) (nbits w : Nat) : State :=
  { s with cmd := tableWord nbits w, busy := true, host := holdFirst s.host }

end Sys2Proof.Machine
end

