-- ==== Sys2Proof/Safety.lean ====
section
/-! DEFINITION. What counts as a consistent state and a safe run of the ring engine, in the terms the
statements use: the tag's meaning (spec/10_state.md R24), the fault record (spec/60_exceptions.md R250,
R261), the canonical form of `BUF`. -/

namespace Sys2Proof.Machine

/-- R24: a valid tag says that the cache holds `mulcache_fn` of its source register now. -/
def State.tagsTrue (s : State) : Prop :=
  ∀ k : CReg, (s.cache k).valid = true →
    lanes (s.cache k).data = mulcacheFn (lanes (s.poly (s.cache k).src))

/-- R30, R31, R250: `BUSY` and `FAULT` are never both 1; `FCAUSE` is 0 when `FAULT = 0` and one of the
seven codes when `FAULT = 1`. -/
def State.faultRecordTrue (s : State) : Prop :=
  ¬(s.busy = true ∧ s.fault = true) ∧
  (s.fault = false → s.fcause = 0) ∧
  (s.fault = true → ∃ c : Cause, s.fcause = c.code)

/-- The invariant of every reachable state. -/
def State.Inv (s : State) : Prop :=
  Memory.wf s.buf = true ∧ s.faultRecordTrue ∧ s.tagsTrue

/-- A run of `n` steps that records no fault of the engine. -/
def safeRun : Nat → State → Prop
  | 0, s => s.fault = false
  | n + 1, s => s.fault = false ∧ ∃ t, step s = .next t ∧ safeRun n t

end Sys2Proof.Machine
end

