-- ==== Sys2Proof/Certificates/Slice0/Obligations.lean ====
section
/-! DEFINITION. The statements for the provers, each read off the numbered rules of spec/. First the terms
they share: the word that spells a command, what a completed command leaves unchanged, and the formulas of
the rules over the lanes and the bytes themselves. -/

namespace Sys2Proof.Claim

open Sys2Proof Sys2Proof.Machine

/-! Words. -/

/-- The word with every field at its place of R81, as the worked encodings of R83 add it up. -/
def word (op d a b c off : Nat) : Word :=
  BitVec.ofNat 32 (op + d * 2 ^ 8 + a * 2 ^ 11 + b * 2 ^ 14 + c * 2 ^ 17 + off * 2 ^ 20)

/-- The rows of R83 with the must-be-zero bits of their formats (R81, R91): opcode, then each reserved
range as its lowest bit and its width. -/
def rows : List (Nat × List (Nat × Nat)) :=
  [(0x01, [(17, 15)]), (0x02, [(17, 15)]), (0x03, [(11, 21)]), (0x04, [(11, 21)]), (0x05, [(11, 21)]),
    (0x08, [(11, 21)]), (0x09, [(11, 21)]), (0x0C, [(14, 18)]), (0x0D, [(20, 12)]), (0x0E, [(20, 12)])] ++
  [(0x10, [(11, 9)]), (0x11, [(11, 9)]), (0x12, [(11, 9)]), (0x13, [(11, 9)]), (0x14, [(11, 9)]),
    (0x15, [(11, 9)]), (0x16, [(11, 9)]), (0x17, [(11, 9)]), (0x18, [(11, 9)]), (0x19, [(11, 9)]),
    (0x1A, [(11, 9)]), (0x1B, [(11, 9)])] ++
  [(0x20, [(11, 9)]), (0x21, [(11, 9)]), (0x22, [(11, 9)]), (0x23, [(11, 9)]),
    (0x24, [(11, 9), (8, 2)]), (0x25, [(11, 9), (8, 2)]), (0x26, [(11, 9), (8, 2)])]

/-- Some reserved bit of the row is 1 in the word. -/
def reservedBitSet (w : Word) (zeros : List (Nat × Nat)) : Prop :=
  ∃ z ∈ zeros, w.toNat / 2 ^ z.1 % 2 ^ z.2 ≠ 0

/-! Frames. -/

/-- A completed command clears `BUSY` (R60) and leaves every other control register, and with them the model's
own fields: the host's pending moves (log entry 5) and the last answer (log entry 8). -/
def quiet (s t : State) : Prop :=
  t.busy = false ∧ t.cmd = s.cmd ∧ t.fault = s.fault ∧ t.fcause = s.fcause ∧ t.host = s.host ∧
  t.answer = s.answer

/-- Every byte of `BUF` reads as before. -/
def sameBytes (s t : State) : Prop := ∀ a, Memory.read t.buf a = Memory.read s.buf a

/-- R25: a write to the registers of `written` clears `valid` of exactly the caches whose source is one of
them; data, source and every other valid bit stay. -/
def tagsAfter (written : PReg → Prop) (s t : State) : Prop :=
  ∀ k, (t.cache k).data = (s.cache k).data ∧ (t.cache k).src = (s.cache k).src ∧
    ((t.cache k).valid = true ↔ (s.cache k).valid = true ∧ ¬written (s.cache k).src)

/-- The command completed and wrote polynomial registers of `written` only. -/
def writesPolys (written : PReg → Prop) (s t : State) : Prop :=
  quiet s t ∧ sameBytes s t ∧ (∀ r, ¬written r → t.poly r = s.poly r) ∧ tagsAfter written s t

/-- The command completed and wrote mulcache register `c` only. -/
def writesCache (c : CReg) (s t : State) : Prop :=
  quiet s t ∧ sameBytes s t ∧ (∀ r, t.poly r = s.poly r) ∧ ∀ k, k ≠ c → t.cache k = s.cache k

/-- The command completed and wrote `BUF[off .. off+len-1]` only. -/
def writesBytes (off len : Nat) (s t : State) : Prop :=
  quiet s t ∧ (∀ r, t.poly r = s.poly r) ∧ (∀ k, t.cache k = s.cache k) ∧
  ∀ a, ¬(off ≤ a ∧ a < off + len) → Memory.read t.buf a = Memory.read s.buf a

/-- The state of R259 after a fault with this code: the state before with three assignments. -/
def faulted (code : BitVec 8) (s : State) : State := { s with fault := true, fcause := code, busy := false }

/-- The command faults with this code (R259) and does nothing else. -/
def faults (code : BitVec 8) (i : Instr) (s : State) : Prop := exec i s = .next (faulted code s)

/-- Commands one after the other. -/
def runAll : List Instr → State → Result
  | [], s => .next s
  | i :: rest, s =>
    match exec i s with
    | .next t => runAll rest t
    | .fault r => .fault r
    | .refused r => .refused r

/-! Lanes, bytes and formulas. -/

/-- The integer is an int16 (R6). -/
def fits (x : Int) : Prop := -32768 ≤ x ∧ x ≤ 32767

/-- Every lane is in the canonical signed range (R256). -/
def canonical (f : Poly) : Prop := ∀ i, i < 256 → -3328 ≤ lane f i ∧ lane f i ≤ 3328

/-- `to_unsigned` (R111). -/
def residue (c : Int) : Int := if c < 0 then c + 3329 else c

/-- `compress_d` (R112). -/
def compressed (d : Nat) (u : Int) : Int := (u * 2 ^ d + 1664) / 3329 % 2 ^ d

/-- `decompress_d` (R115). -/
def decompressed (d : Nat) (y : Int) : Int := (y * 3329 + 2 ^ (d - 1)) / 2 ^ d

/-- `unpack_d(B)[i]` (R130). -/
def field (d : Nat) (bytes : List Byte) (i : Nat) : Nat :=
  ∑ j ∈ Finset.range d, (streamBit bytes (i * d + j)).toNat * 2 ^ j

/-- `cbd_eta(B)[i]` (R171). -/
def sample (eta : Nat) (bytes : List Byte) (i : Nat) : Int :=
  ∑ j ∈ Finset.range eta, ((streamBit bytes (2 * eta * i + j)).toNat : Int) -
  ∑ j ∈ Finset.range eta, ((streamBit bytes (2 * eta * i + eta + j)).toNat : Int)

/-- Lane `i` of `basemul_fn` (R222). -/
def productLane (a b c : Nat → Int) (i : Nat) : Int :=
  if i % 2 = 0 then mred (a (i + 1) * c (i / 2) + a i * b i) else mred (a (i - 1) * b i + a i * b (i - 1))

/-- Lane `i` of the product of `P[ra]` and `P[rb]` with the data of `C[cc]` (R224). -/
def product (ra rb : PReg) (cc : CReg) (s : State) (i : Nat) : Int :=
  productLane (lane (s.poly ra)) (lane (s.poly rb)) (lane (s.cache cc).data) i

/-- Lane `i` of the from-scratch product (R226). -/
def naive (a b : Nat → Int) (i : Nat) : Int :=
  if i % 2 = 0 then mred (a (i + 1) * fqmul (b (i + 1)) (gammaM (i / 2)) + a i * b i)
  else mred (a (i - 1) * b i + a i * b (i - 1))

/-- `brv7` (R194): the 7-bit reversal. -/
def bitrev7 (i : Nat) : Nat :=
  64 * (i % 2) + 32 * (i / 2 % 2) + 16 * (i / 4 % 2) + 8 * (i / 8 % 2) + 4 * (i / 16 % 2) +
    2 * (i / 32 % 2) + i / 64 % 2

/-- Lane `i` holds the residue of the polynomial `a(X)` that R196 gives it, modulo 3329: `i = 2m + j`, `g`
is the root of pair `m`. -/
def holdsTransform (a : Nat → Int) (x : Int) (i : Nat) : Prop :=
  x ≡ ∑ t ∈ Finset.range 128, a (2 * t + i % 2) * (17 ^ (2 * bitrev7 (i / 2) + 1)) ^ t [ZMOD 3329]

/-- Coefficient `i` of `a(X) * b(X) mod (X^256 + 1)` over the integers (R227). -/
def ringProduct (a b : Nat → Int) (i : Nat) : Int :=
  ∑ j ∈ Finset.range 256, if j ≤ i then a j * b (i - j) else -(a j * b (256 + i - j))

/-- The register a command checks for the canonical signed range (R250, code 5). -/
def checkedSource : Instr → Option PReg
  | .touns r | .ntt r | .tobytes r _ | .tomsg r _ | .compress4 r _ | .compress5 r _ | .compress10 r _
  | .compress11 r _ => some r
  | _ => none

/-- The second operand and the cache a command checks (R250, code 4). -/
def checkedCache : Instr → Option (PReg × CReg)
  | .basemul _ _ rb cc | .basemulacc _ _ rb cc => some (rb, cc)
  | _ => none

/-- The region of a format M command: offset and length (R90). -/
def region : Instr → Option (Nat × Nat)
  | .tobytes _ off | .frombytes _ off => some (off.toNat, 384)
  | .tomsg _ off | .frommsg _ off => some (off.toNat, 32)
  | .compress4 _ off | .decompress4 _ off => some (off.toNat, 128)
  | .compress5 _ off | .decompress5 _ off => some (off.toNat, 160)
  | .compress10 _ off | .decompress10 _ off => some (off.toNat, 320)
  | .compress11 _ off | .decompress11 _ off => some (off.toNat, 352)
  | .cbd2 _ off => some (off.toNat, 128)
  | .cbd3 _ off => some (off.toNat, 192)
  | .getnoise2 _ off | .getnoise3 _ off => some (off.toNat, 33)
  | .getnoise4x2 _ off | .getnoise4x3 _ off | .getnoise4xmix _ off => some (off.toNat, 132)
  | _ => none

/-- The polynomial registers a command writes when it completes. -/
def destination : Instr → PReg → Prop
  | .add rd _ _, q | .sub rd _ _, q | .reduce rd, q | .touns rd, q | .tomont rd, q | .ntt rd, q | .intt rd, q
  | .basemul rd _ _ _, q | .basemulacc rd _ _ _, q => q = rd
  | .frombytes r _, q | .frommsg r _, q | .decompress4 r _, q | .decompress5 r _, q | .decompress10 r _, q
  | .decompress11 r _, q | .cbd2 r _, q | .cbd3 r _, q | .getnoise2 r _, q | .getnoise3 r _, q => q = r
  | .getnoise4x2 r _, q | .getnoise4x3 r _, q | .getnoise4xmix r _, q =>
    q = r ∨ q = r + 1 ∨ q = r + 2 ∨ q = r + 3
  | _, _ => False

/-- A result lane of the command does not fit int16 (R258). -/
def overflows (s : State) : Instr → Prop
  | .add _ ra rb => ∃ i, i < 256 ∧ ¬fits (lane (s.poly ra) i + lane (s.poly rb) i)
  | .sub _ ra rb => ∃ i, i < 256 ∧ ¬fits (lane (s.poly ra) i - lane (s.poly rb) i)
  | .basemul _ ra rb cc => ∃ i, i < 256 ∧ ¬fits (product ra rb cc s i)
  | .basemulacc rd ra rb cc => ∃ i, i < 256 ∧
      (¬fits (product ra rb cc s i) ∨ ¬fits (lane (s.poly rd) i + product ra rb cc s i))
  | _ => False

/-- The bound of lane `j` of register `q` after a command that writes `q`: lowest and highest value (R118,
R143, R160, R178, R181, R197, R201, R203, R242). R201 bounds the two halves of `INTT` apart, R178 the two
pairs of `GETNOISE4XMIX`. -/
def laneBound (q : PReg) (j : Nat) : Instr → Option (Int × Int)
  | .reduce _ => some (-1664, 1664)
  | .touns _ => some (0, 3328)
  | .tomont _ => some (-2341, 2341)
  | .ntt _ => some (-16534, 16534)
  | .intt _ => if j < 128 then some (-1664, 1664) else some (-1785, 1785)
  | .frombytes _ _ => some (0, 3328)
  | .frommsg _ _ => some (0, 1665)
  | .decompress4 _ _ => some (0, 3121)
  | .decompress5 _ _ => some (0, 3225)
  | .decompress10 _ _ => some (0, 3326)
  | .decompress11 _ _ => some (0, 3327)
  | .cbd2 _ _ | .getnoise2 _ _ | .getnoise4x2 _ _ => some (-2, 2)
  | .cbd3 _ _ | .getnoise3 _ _ | .getnoise4x3 _ _ => some (-3, 3)
  | .getnoise4xmix r _ => if q = r ∨ q = r + 1 then some (-3, 3) else some (-2, 2)
  | _ => none

/-! The host. -/

/-- A byte offset of the `BUF` window at which an access of `n` bytes is legal (R54). -/
def inBuf (n off : Nat) : Prop := 0x2800 ≤ off ∧ off < 0x3000 ∧ off % n = 0

/-- A byte offset of the `P` window at which a lane sits (R54). -/
def inPolys (off : Nat) : Prop := 0x1000 ≤ off ∧ off < 0x2000 ∧ off % 2 = 0

/-- A byte offset of the `C` window at which an entry sits (R54). -/
def inCaches (off : Nat) : Prop := 0x2000 ≤ off ∧ off < 0x2800 ∧ off % 2 = 0

/-- A read of one of the five control registers (R28, R59). -/
def isControlRead (a : BusAccess) : Prop := ∃ off ∈ [0x0000, 0x0004, 0x0008, 0x000C, 0x0010], a = .read .w32 off

/-- The legal accesses of R54. -/
def legal : BusAccess → Prop
  | .read .w8 off => inBuf 1 off
  | .read .w16 off => inPolys off ∨ inCaches off ∨ inBuf 2 off
  | .read .w32 off => off ∈ [0x0000, 0x0004, 0x0008, 0x000C, 0x0010] ∨ inBuf 4 off
  | .write off (.b8 _) => inBuf 1 off
  | .write off (.b16 _) => inPolys off ∨ inBuf 2 off
  | .write off (.b32 _) => off = 0x0004 ∨ off = 0x0008 ∨ inBuf 4 off

/-- Nothing but `BUF` differs, apart from the answer `done` (log entry 8). -/
def onlyBufWritten (s t : State) : Prop :=
  (∀ r, t.poly r = s.poly r) ∧ (∀ k, t.cache k = s.cache k) ∧ t.cmd = s.cmd ∧ t.busy = s.busy ∧
  t.fault = s.fault ∧ t.fcause = s.fcause ∧ t.host = s.host ∧ t.answer = some .done

/-- The engine makes the next step: a command is pending, and the next host move, if there is one, does not
go first. -/
def engineMoves (s : State) : Prop := s.busy = true ∧ ∀ m rest, s.host = m :: rest → m.isEarly = false

/-- The next host move is made now: no command is pending, or the move is one that goes first. -/
def hostMoves (m : HostMove) (rest : List HostMove) (s : State) : Prop :=
  s.host = m :: rest ∧ (s.busy = false ∨ m.isEarly = true)

/-! Shapes shared by commands of one family. -/

/-- A command that packs a register into `BUF` (R132, R134 to R137, R161): region check, range check, then
bit `d*i + j` of the region is bit `j` of the field of lane `i`. -/
def packs (op d : Nat) (fieldOf : Int → Int) (mk : PReg → Offset → Instr) : Prop :=
  ∀ (r : PReg) (off : Offset) (s : State),
    decode (word op r.val 0 0 0 off.toNat) = .ok (mk r off) ∧
    (off.toNat + 32 * d ≤ 2048 → canonical (s.poly r) →
      ∃ t, exec (mk r off) s = .next t ∧
        (∀ i j, i < 256 → j < d →
          streamBit (memRead t.buf off.toNat (32 * d)) (i * d + j) =
            (fieldOf (residue (lane (s.poly r) i))).toNat.testBit j) ∧
        writesBytes off.toNat (32 * d) s t) ∧
    (off.toNat + 32 * d ≤ 2048 → ¬canonical (s.poly r) → faults 5 (mk r off) s) ∧
    (2048 < off.toNat + 32 * d → faults 3 (mk r off) s)

/-- A command that fills a register from a region of `len` bytes and has no data contract (R138 to R141,
R160, R172 to R175): `value` gives lane `i` from the bytes of the region. -/
def fills (op len : Nat) (value : List Byte → Nat → Int) (mk : PReg → Offset → Instr) : Prop :=
  ∀ (r : PReg) (off : Offset) (s : State),
    decode (word op r.val 0 0 0 off.toNat) = .ok (mk r off) ∧
    (off.toNat + len ≤ 2048 →
      ∃ t, exec (mk r off) s = .next t ∧
        (∀ i, i < 256 → lane (t.poly r) i = value (memRead s.buf off.toNat len) i) ∧
        writesPolys (fun q => q = r) s t) ∧
    (2048 < off.toNat + len → faults 3 (mk r off) s)

/-- A 4-way command (R176 to R178): batch lane `l` samples with `eta l` from the 33 bytes at stride 33 into
`P[r + l]`; a register that is no quad has no word (R91), and `exec` of such a command faults as its word
would (log entry 7). -/
def fillsQuad (op : Nat) (eta : Fin 4 → Nat) (mk : PReg → Offset → Instr) : Prop :=
  ∀ (r : PReg) (off : Offset) (s : State),
    (r = 0 ∨ r = 4 →
      decode (word op r.val 0 0 0 off.toNat) = .ok (mk r off) ∧
      (off.toNat + 132 ≤ 2048 →
        ∃ t, exec (mk r off) s = .next t ∧
          (∀ (l : Fin 4) (i : Nat), i < 256 →
            lane (t.poly (r + Fin.ofNat 8 l.val)) i =
              sample (eta l) (Config.xof (memRead s.buf (off.toNat + 33 * l.val) 33) (64 * eta l)) i) ∧
          writesPolys (fun q => ∃ l : Fin 4, q = r + Fin.ofNat 8 l.val) s t) ∧
      (2048 < off.toNat + 132 → faults 3 (mk r off) s)) ∧
    (¬(r = 0 ∨ r = 4) →
      decode (word op r.val 0 0 0 off.toNat) = .error .illegalField ∧ faults 2 (mk r off) s)

end Sys2Proof.Claim

open Sys2Proof Sys2Proof.Machine Sys2Proof.Claim

/-! ## Encoding -/

/-- R83: the six worked encodings. -/
def Obligations.WorkedEncodingsDecode : Prop :=
  decode 0x0000D101#32 = .ok (.add 1 2 3) ∧
  decode 0x00000508#32 = .ok (.ntt 5) ∧
  decode 0x00003B0C#32 = .ok (.mulcache 3 7) ∧
  decode 0x0000420D#32 = .ok (.basemul 2 0 1 0) ∧
  decode 0x18000210#32 = .ok (.tobytes 2 0x180#12) ∧
  decode 0x40000426#32 = .ok (.getnoise4xmix 4 0x400#12)

/-- R81, R83: encoding a well-formed command and decoding the word gives the command back. -/
def Obligations.DecodeUndoesEncode : Prop :=
  ∀ i : Instr, i.wellFormed = true → decode (encode i) = .ok i

/-- R253: a legal word is the one encoding of its command, and that command is well-formed. -/
def Obligations.LegalWordIsTheOneEncoding : Prop :=
  ∀ (w : Word) (i : Instr), decode w = .ok i → i.wellFormed = true ∧ encode i = w

/-- R84, R88: which words are no command, and why. -/
def Obligations.IllegalWordsAreNamed : Prop :=
  ∀ w : Word,
    (decode w = .error .illegalOpcode ↔ ∀ row ∈ rows, w.toNat % 256 ≠ row.1) ∧
    (decode w = .error .illegalField ↔ ∃ row ∈ rows, w.toNat % 256 = row.1 ∧ reservedBitSet w row.2) ∧
    ((∃ i, decode w = .ok i) ↔ ∃ row ∈ rows, w.toNat % 256 = row.1 ∧ ¬reservedBitSet w row.2)

/-! ## The step -/

/-- R60: the engine's step is the meaning of the command the latched word decodes to; the model's step adds
nothing around it. The order of the host's moves is the model's (log entry 5). -/
def Obligations.StepRunsDecodedCommand : Prop :=
  ∀ (s : State) (i : Instr), engineMoves s → decode s.cmd = .ok i → step s = exec i s

/-- R84: a word that is no command faults in the engine step and does nothing else. That this engine step
comes before the host's next move is the model's choice (log entry 5). -/
def Obligations.StepFaultsOnIllegalWord : Prop :=
  ∀ s : State, engineMoves s →
    (decode s.cmd = .error .illegalOpcode → step s = .next (faulted 1 s)) ∧
    (decode s.cmd = .error .illegalField → step s = .next (faulted 2 s))

/-- R60: the step always answers a next state, and an engine step ends the command: `BUSY` is 0 after it,
`CMD` keeps the word, and every pending host move is still pending. The pending moves and the last answer are
the model's own fields (log entries 5 and 8). -/
def Obligations.EveryStepAnswersNext : Prop :=
  ∀ s : State, ∃ t, step s = .next t ∧
    (engineMoves s → t.busy = false ∧ t.cmd = s.cmd ∧ t.host = s.host ∧ t.answer = s.answer)

/-- R58, R62: while no command is pending the host's next move is made, on the state of that moment; with
no pending move nothing happens. The list of pending moves and the step that waits are the model's (log
entry 5). -/
def Obligations.HostMovesInOrder : Prop :=
  ∀ s : State,
    (∀ m rest, hostMoves m rest s → step s = .next (hostEvent { s with host := rest } m.event)) ∧
    (s.busy = false → s.host = [] → step s = .next s)

/-! ## Elementwise commands -/

/-- R240. -/
def Obligations.AddResult : Prop :=
  ∀ (rd ra rb : PReg) (s : State),
    decode (word 0x01 rd.val ra.val rb.val 0 0) = .ok (.add rd ra rb) ∧
    ((∀ i, i < 256 → fits (lane (s.poly ra) i + lane (s.poly rb) i)) →
      ∃ t, exec (.add rd ra rb) s = .next t ∧
        (∀ i, i < 256 → lane (t.poly rd) i = lane (s.poly ra) i + lane (s.poly rb) i) ∧
        writesPolys (fun q => q = rd) s t) ∧
    ((∃ i, i < 256 ∧ ¬fits (lane (s.poly ra) i + lane (s.poly rb) i)) → faults 7 (.add rd ra rb) s)

/-- R241. -/
def Obligations.SubResult : Prop :=
  ∀ (rd ra rb : PReg) (s : State),
    decode (word 0x02 rd.val ra.val rb.val 0 0) = .ok (.sub rd ra rb) ∧
    ((∀ i, i < 256 → fits (lane (s.poly ra) i - lane (s.poly rb) i)) →
      ∃ t, exec (.sub rd ra rb) s = .next t ∧
        (∀ i, i < 256 → lane (t.poly rd) i = lane (s.poly ra) i - lane (s.poly rb) i) ∧
        writesPolys (fun q => q = rd) s t) ∧
    ((∃ i, i < 256 ∧ ¬fits (lane (s.poly ra) i - lane (s.poly rb) i)) → faults 7 (.sub rd ra rb) s)

/-- R242: every lane becomes its one representative in -1664..1664. -/
def Obligations.ReduceResult : Prop :=
  ∀ (rd : PReg) (s : State),
    decode (word 0x03 rd.val 0 0 0 0) = .ok (.reduce rd) ∧
    ∃ t, exec (.reduce rd) s = .next t ∧
      (∀ i, i < 256 → lane (t.poly rd) i ≡ lane (s.poly rd) i [ZMOD 3329] ∧
        -1664 ≤ lane (t.poly rd) i ∧ lane (t.poly rd) i ≤ 1664) ∧
      writesPolys (fun q => q = rd) s t

/-- R118. -/
def Obligations.TounsResult : Prop :=
  ∀ (rd : PReg) (s : State),
    decode (word 0x04 rd.val 0 0 0 0) = .ok (.touns rd) ∧
    (canonical (s.poly rd) →
      ∃ t, exec (.touns rd) s = .next t ∧
        (∀ i, i < 256 → lane (t.poly rd) i = residue (lane (s.poly rd) i)) ∧
        writesPolys (fun q => q = rd) s t) ∧
    (¬canonical (s.poly rd) → faults 5 (.touns rd) s)

/-! ## Transforms -/

/-- R203: the Montgomery product with 1353; the new lane is 2^16 times the old one modulo 3329. -/
def Obligations.TomontResult : Prop :=
  ∀ (rd : PReg) (s : State),
    decode (word 0x05 rd.val 0 0 0 0) = .ok (.tomont rd) ∧
    ∃ t, exec (.tomont rd) s = .next t ∧
      (∀ i, i < 256 → lane (t.poly rd) i = fqmul (lane (s.poly rd) i) 1353 ∧
        lane (t.poly rd) i ≡ 65536 * lane (s.poly rd) i [ZMOD 3329] ∧
        -2341 ≤ lane (t.poly rd) i ∧ lane (t.poly rd) i ≤ 2341) ∧
      writesPolys (fun q => q = rd) s t

/-- R195: the range check, then `ntt_fn`. -/
def Obligations.NttResult : Prop :=
  ∀ (rd : PReg) (s : State),
    decode (word 0x08 rd.val 0 0 0 0) = .ok (.ntt rd) ∧
    (canonical (s.poly rd) →
      ∃ t, exec (.ntt rd) s = .next t ∧
        (∀ i, i < 256 → lane (t.poly rd) i = (nttFn (lanes (s.poly rd))).getD i 0) ∧
        writesPolys (fun q => q = rd) s t) ∧
    (¬canonical (s.poly rd) → faults 5 (.ntt rd) s)

/-- R196: the meaning of the forward output, pair by pair. -/
def Obligations.NttMeaning : Prop :=
  ∀ (rd : PReg) (s : State), canonical (s.poly rd) →
    ∃ t, exec (.ntt rd) s = .next t ∧
      ∀ i, i < 256 → holdsTransform (lane (s.poly rd)) (lane (t.poly rd) i) i

/-- R199: `intt_fn`, on every content; no fault. -/
def Obligations.InttResult : Prop :=
  ∀ (rd : PReg) (s : State),
    decode (word 0x09 rd.val 0 0 0 0) = .ok (.intt rd) ∧
    ∃ t, exec (.intt rd) s = .next t ∧
      (∀ i, i < 256 → lane (t.poly rd) i = (inttFn (lanes (s.poly rd))).getD i 0) ∧
      writesPolys (fun q => q = rd) s t

/-- R201: the bounds of the inverse transform, on every content. -/
def Obligations.InttBounds : Prop :=
  ∀ (rd : PReg) (s : State), ∃ t, exec (.intt rd) s = .next t ∧
    (∀ i, i < 128 → -1664 ≤ lane (t.poly rd) i ∧ lane (t.poly rd) i ≤ 1664) ∧
    (∀ i, 128 ≤ i → i < 256 → -1785 ≤ lane (t.poly rd) i ∧ lane (t.poly rd) i ≤ 1785)

/-- R200: an input that holds the transform of a polynomial, up to congruence, comes back as 2^16 times its
coefficients. -/
def Obligations.InttMeaning : Prop :=
  ∀ (rd : PReg) (s : State) (a : Nat → Int),
    (∀ i, i < 256 → holdsTransform a (lane (s.poly rd) i) i) →
    ∃ t, exec (.intt rd) s = .next t ∧
      ∀ i, i < 256 → lane (t.poly rd) i ≡ 65536 * a i [ZMOD 3329] ∧ lane (t.poly rd) i ≡ 2285 * a i [ZMOD 3329]

/-- R202: the bare round trip, both ways, keeps the factor 2285; the round trip through one product with the
transform of 1, reduced, gives the input's centered representatives. -/
def Obligations.TransformRoundTrips : Prop :=
  (∀ (d : PReg) (s : State), s.fault = false → canonical (s.poly d) →
    ∃ t, runAll [.ntt d, .intt d] s = .next t ∧ t.fault = false ∧
      ∀ i, i < 256 → lane (t.poly d) i ≡ 2285 * lane (s.poly d) i [ZMOD 3329] ∧
        -1785 ≤ lane (t.poly d) i ∧ lane (t.poly d) i ≤ 1785) ∧
  (∀ (d : PReg) (s : State), s.fault = false →
    ∃ t, runAll [.intt d, .ntt d] s = .next t ∧ t.fault = false ∧
      ∀ i, i < 256 → lane (t.poly d) i ≡ 2285 * lane (s.poly d) i [ZMOD 3329]) ∧
  (∀ (a b d : PReg) (c : CReg) (s : State), a ≠ b → s.fault = false → canonical (s.poly a) →
    lane (s.poly b) 0 = 1 → (∀ i, 0 < i → i < 256 → lane (s.poly b) i = 0) →
    ∃ t, runAll [.ntt a, .ntt b, .mulcache c b, .basemul d a b c, .intt d, .reduce d] s = .next t ∧
      t.fault = false ∧ ∀ i, i < 256 → lane (t.poly d) i = cmod (lane (s.poly a) i))

/-! ## The multiplication cache -/

/-- R223: data, source and valid bit of the one cache; no other register changes. -/
def Obligations.MulcacheResult : Prop :=
  ∀ (cd : CReg) (ra : PReg) (s : State),
    decode (word 0x0C cd.val ra.val 0 0 0) = .ok (.mulcache cd ra) ∧
    ∃ t, exec (.mulcache cd ra) s = .next t ∧
      (∀ p, p < 128 → lane (t.cache cd).data p = fqmul (lane (s.poly ra) (2 * p + 1)) (gammaM p)) ∧
      (t.cache cd).valid = true ∧ (t.cache cd).src = ra ∧ writesCache cd s t

/-- R224: the tag check, the product, the overflow check. -/
def Obligations.BasemulResult : Prop :=
  ∀ (rd ra rb : PReg) (cc : CReg) (s : State),
    decode (word 0x0D rd.val ra.val rb.val cc.val 0) = .ok (.basemul rd ra rb cc) ∧
    ((s.cache cc).valid = true → (s.cache cc).src = rb → (∀ i, i < 256 → fits (product ra rb cc s i)) →
      ∃ t, exec (.basemul rd ra rb cc) s = .next t ∧
        (∀ i, i < 256 → lane (t.poly rd) i = product ra rb cc s i) ∧ writesPolys (fun q => q = rd) s t) ∧
    ((s.cache cc).valid = true → (s.cache cc).src = rb → (∃ i, i < 256 ∧ ¬fits (product ra rb cc s i)) →
      faults 7 (.basemul rd ra rb cc) s) ∧
    (¬((s.cache cc).valid = true ∧ (s.cache cc).src = rb) → faults 4 (.basemul rd ra rb cc) s)

/-- R225: as `BASEMUL`, with the product added to the old destination. -/
def Obligations.BasemulaccResult : Prop :=
  ∀ (rd ra rb : PReg) (cc : CReg) (s : State),
    decode (word 0x0E rd.val ra.val rb.val cc.val 0) = .ok (.basemulacc rd ra rb cc) ∧
    ((s.cache cc).valid = true → (s.cache cc).src = rb → (∀ i, i < 256 → fits (product ra rb cc s i)) →
      (∀ i, i < 256 → fits (lane (s.poly rd) i + product ra rb cc s i)) →
      ∃ t, exec (.basemulacc rd ra rb cc) s = .next t ∧
        (∀ i, i < 256 → lane (t.poly rd) i = lane (s.poly rd) i + product ra rb cc s i) ∧
        writesPolys (fun q => q = rd) s t) ∧
    ((s.cache cc).valid = true → (s.cache cc).src = rb →
      (∃ i, i < 256 ∧ (¬fits (product ra rb cc s i) ∨ ¬fits (lane (s.poly rd) i + product ra rb cc s i))) →
      faults 7 (.basemulacc rd ra rb cc) s) ∧
    (¬((s.cache cc).valid = true ∧ (s.cache cc).src = rb) → faults 4 (.basemulacc rd ra rb cc) s)

/-- R226: the cached product is the from-scratch product, bit for bit; so a `BASEMUL` that completes, in a
state whose tags tell the truth, leaves the from-scratch product. -/
def Obligations.CachedEqualsNaive : Prop :=
  (∀ (a b : List Int) (i : Nat), i < 256 →
    (basemulFn a b (mulcacheFn b)).getD i 0 = naive (fun j => a.getD j 0) (fun j => b.getD j 0) i) ∧
  (∀ (rd ra rb : PReg) (cc : CReg) (s t : State), s.tagsTrue → exec (.basemul rd ra rb cc) s = .next t →
    t.fault = false → ∀ i, i < 256 → lane (t.poly rd) i = naive (lane (s.poly ra)) (lane (s.poly rb)) i)

/-- R227: five commands multiply in `Z_q[X]/(X^256 + 1)` with no residual factor. -/
def Obligations.RingProduct : Prop :=
  ∀ (a b d : PReg) (c : CReg) (s : State), a ≠ b → s.fault = false → canonical (s.poly a) →
    canonical (s.poly b) →
    ∃ t, runAll [.ntt a, .ntt b, .mulcache c b, .basemul d a b c, .intt d] s = .next t ∧ t.fault = false ∧
      ∀ i, i < 256 →
        lane (t.poly d) i ≡ ringProduct (lane (s.poly a)) (lane (s.poly b)) i [ZMOD 3329] ∧
        -1785 ≤ lane (t.poly d) i ∧ lane (t.poly d) i ≤ 1785

/-- R229: a cache of `P[rb]` cannot be used after a write to `P[rb]`, by a command or by the host; a write
to another register leaves it usable. -/
def Obligations.StaleCacheFaults : Prop :=
  ∀ (cc : CReg) (rb : PReg) (s : State), (s.cache cc).src = rb →
    (∀ (i : Instr) (t : State), exec i s = .next t → t.fault = false → destination i rb →
      ∀ rd ra, faults 4 (.basemul rd ra rb cc) t ∧ faults 4 (.basemulacc rd ra rb cc) t) ∧
    (∀ (j : Nat) (v : BitVec 16), j < 256 → ∀ rd ra,
      faults 4 (.basemul rd ra rb cc) (busAccess s (.write (0x1000 + 0x200 * rb.val + 2 * j) (.b16 v))) ∧
      faults 4 (.basemulacc rd ra rb cc) (busAccess s (.write (0x1000 + 0x200 * rb.val + 2 * j) (.b16 v)))) ∧
    (∀ (i : Instr) (t : State), exec i s = .next t → ¬destination i rb → (∀ ra, i ≠ .mulcache cc ra) →
      t.cache cc = s.cache cc ∧ t.poly rb = s.poly rb)

/-- R25, R26: only `MULCACHE` sets a valid bit; neither another command nor a host access does, and no host
access changes the data or the source of a cache. -/
def Obligations.OnlyMulcacheValidates : Prop :=
  ∀ (s : State) (k : CReg),
    (∀ (i : Instr) (t : State), exec i s = .next t → (t.cache k).valid = true →
      (∃ ra, i = .mulcache k ra) ∨ t.cache k = s.cache k) ∧
    (∀ a : BusAccess, ((busAccess s a).cache k).data = (s.cache k).data ∧
      ((busAccess s a).cache k).src = (s.cache k).src ∧
      (((busAccess s a).cache k).valid = true → (s.cache k).valid = true))

/-! ## Codecs -/

/-- R132. -/
def Obligations.TobytesResult : Prop := packs 0x10 12 (fun u => u) .tobytes

/-- R133. -/
def Obligations.FrombytesResult : Prop :=
  ∀ (r : PReg) (off : Offset) (s : State),
    decode (word 0x11 r.val 0 0 0 off.toNat) = .ok (.frombytes r off) ∧
    (off.toNat + 384 ≤ 2048 → (∀ i, i < 256 → field 12 (memRead s.buf off.toNat 384) i ≤ 3328) →
      ∃ t, exec (.frombytes r off) s = .next t ∧
        (∀ i, i < 256 → lane (t.poly r) i = field 12 (memRead s.buf off.toNat 384) i) ∧
        writesPolys (fun q => q = r) s t) ∧
    (off.toNat + 384 ≤ 2048 → (∃ i, i < 256 ∧ 3328 < field 12 (memRead s.buf off.toNat 384) i) →
      faults 6 (.frombytes r off) s) ∧
    (2048 < off.toNat + 384 → faults 3 (.frombytes r off) s)

/-- R134 to R137. -/
def Obligations.CompressResult : Prop :=
  packs 0x14 4 (compressed 4) .compress4 ∧ packs 0x15 5 (compressed 5) .compress5 ∧
  packs 0x16 10 (compressed 10) .compress10 ∧ packs 0x17 11 (compressed 11) .compress11

/-- R138 to R141. -/
def Obligations.DecompressResult : Prop :=
  fills 0x18 128 (fun b i => decompressed 4 (field 4 b i)) .decompress4 ∧
  fills 0x19 160 (fun b i => decompressed 5 (field 5 b i)) .decompress5 ∧
  fills 0x1A 320 (fun b i => decompressed 10 (field 10 b i)) .decompress10 ∧
  fills 0x1B 352 (fun b i => decompressed 11 (field 11 b i)) .decompress11

/-- R161. -/
def Obligations.TomsgResult : Prop := packs 0x12 1 (compressed 1) .tomsg

/-- R160. -/
def Obligations.FrommsgResult : Prop :=
  fills 0x13 32 (fun b i => if streamBit b i then 1665 else 0) .frommsg

/-- R142: the four round trips of the byte codec. -/
def Obligations.CodecRoundTrips : Prop :=
  (∀ (a d : PReg) (o : Offset) (s : State), s.fault = false → o.toNat + 384 ≤ 2048 → canonical (s.poly a) →
    ∃ t, runAll [.tobytes a o, .frombytes d o] s = .next t ∧ t.fault = false ∧
      ∀ i, i < 256 → lane (t.poly d) i = residue (lane (s.poly a) i)) ∧
  (∀ (d : PReg) (o o' : Offset) (s u : State), s.fault = false → o'.toNat + 384 ≤ 2048 →
    exec (.frombytes d o) s = .next u → u.fault = false →
    ∃ t, exec (.tobytes d o') u = .next t ∧ t.fault = false ∧
      memRead t.buf o'.toNat 384 = memRead s.buf o.toNat 384) ∧
  (∀ c ∈ [(4, Instr.decompress4, Instr.compress4), (5, Instr.decompress5, Instr.compress5),
      (10, Instr.decompress10, Instr.compress10), (11, Instr.decompress11, Instr.compress11)],
    ∀ (d : PReg) (o o' : Offset) (s : State), s.fault = false → o.toNat + 32 * c.1 ≤ 2048 →
      o'.toNat + 32 * c.1 ≤ 2048 →
      ∃ t, runAll [c.2.1 d o, c.2.2 d o'] s = .next t ∧ t.fault = false ∧
        memRead t.buf o'.toNat (32 * c.1) = memRead s.buf o.toNat (32 * c.1)) ∧
  (∀ c ∈ [(4, (104 : Int), Instr.decompress4, Instr.compress4), (5, (52 : Int), Instr.decompress5, Instr.compress5),
      (10, (2 : Int), Instr.decompress10, Instr.compress10), (11, (1 : Int), Instr.decompress11, Instr.compress11)],
    ∀ (a d : PReg) (o : Offset) (s : State), s.fault = false → o.toNat + 32 * c.1 ≤ 2048 →
      canonical (s.poly a) →
      ∃ t, runAll [c.2.2.2 a o, c.2.2.1 d o] s = .next t ∧ t.fault = false ∧
        ∀ i, i < 256 → min ((lane (t.poly d) i - lane (s.poly a) i) % 3329)
          ((lane (s.poly a) i - lane (t.poly d) i) % 3329) ≤ c.2.1)

/-- R162: a message survives the round trip, and a lane survives an error of up to 832 modulo 3329 but for
one case. -/
def Obligations.MessageRoundTrip : Prop :=
  (∀ (d : PReg) (o o' : Offset) (s : State), s.fault = false → o.toNat + 32 ≤ 2048 → o'.toNat + 32 ≤ 2048 →
    ∃ t, runAll [.frommsg d o, .tomsg d o'] s = .next t ∧ t.fault = false ∧
      memRead t.buf o'.toNat 32 = memRead s.buf o.toNat 32) ∧
  (∀ e : Int, -832 ≤ e → e ≤ 832 → compressed 1 (e % 3329) = 0 ∧
    (compressed 1 ((1665 + e) % 3329) = if e = 832 then 0 else 1))

/-! ## The sampler -/

/-- R172, R173. -/
def Obligations.CbdResult : Prop := fills 0x20 128 (sample 2) .cbd2 ∧ fills 0x21 192 (sample 3) .cbd3

/-- R174, R175: the 33 bytes of the region are seed and nonce. The stream is `Config.xof`, of which nothing
is known but R170. -/
def Obligations.GetnoiseResult : Prop :=
  fills 0x22 33 (fun b i => sample 2 (Config.xof b 128) i) .getnoise2 ∧
  fills 0x23 33 (fun b i => sample 3 (Config.xof b 192) i) .getnoise3

/-- R176 to R178. The last clause of `fillsQuad`, that `exec` of a command whose register is no quad (no word
spells one, R91) faults with `ILLEGAL_FIELD`, is the model's reading (log entry 7). -/
def Obligations.BatchedNoiseResult : Prop :=
  fillsQuad 0x24 (fun _ => 2) .getnoise4x2 ∧ fillsQuad 0x25 (fun _ => 3) .getnoise4x3 ∧
  fillsQuad 0x26 (fun l => if l.val < 2 then 3 else 2) .getnoise4xmix

/-- R179: the state after a batched command is the state after the four single commands, in any order, for a
batch whose region fits. -/
def Obligations.BatchEqualsSingles : Prop :=
  ∀ (r : PReg) (off : Offset) (s : State) (order : List (Fin 4)), r = 0 ∨ r = 4 → off.toNat + 132 ≤ 2048 →
    order.Perm [0, 1, 2, 3] →
    let reg := fun l : Fin 4 => r + Fin.ofNat 8 l.val
    let at_ := fun l : Fin 4 => off + BitVec.ofNat 12 (33 * l.val)
    exec (.getnoise4x2 r off) s = runAll (order.map fun l => .getnoise2 (reg l) (at_ l)) s ∧
    exec (.getnoise4x3 r off) s = runAll (order.map fun l => .getnoise3 (reg l) (at_ l)) s ∧
    exec (.getnoise4xmix r off) s =
      runAll (order.map fun l => if l.val < 2 then .getnoise3 (reg l) (at_ l) else .getnoise2 (reg l) (at_ l)) s

/-- R170: `XOF` has the length asked for and obeys the prefix law. -/
def Obligations.XofContract : Prop :=
  ∀ (inp : List Byte) (n m : Nat), n ≤ m →
    (Config.xof inp n).length = n ∧ (Config.xof inp m).take n = Config.xof inp n

/-! ## Constants and bounds -/

/-- R194: the listed twiddle table is its formula, and its entries are in -1659..1653. -/
def Obligations.TwiddleTable : Prop :=
  zetas.length = 128 ∧
  ∀ i, i < 128 → zeta i = cmod (2 ^ 16 * 17 ^ bitrev7 i) ∧ -1659 ≤ zeta i ∧ zeta i ≤ 1653

/-- R191: the division of Montgomery reduction is exact, its result is `a * 2^(-16)` modulo 3329, and its
magnitude is bounded. -/
def Obligations.MontgomeryReduction : Prop :=
  ∀ a : Int, 65536 * mred a = a - sext16 (low16 (low16 a * 62209)) * 3329 ∧
    mred a ≡ 169 * a [ZMOD 3329] ∧ 2 * 65536 * |mred a| ≤ 2 * |a| + 3329 * 65536

/-- Every lane of every register a completed command writes is within the bound its rule gives for that
register and that lane. -/
def Obligations.OutputBounds : Prop :=
  ∀ (i : Instr) (s t : State) (q : PReg) (j : Nat) (lo hi : Int), exec i s = .next t → t.fault = false →
    destination i q → j < 256 → laneBound q j i = some (lo, hi) → lo ≤ lane (t.poly q) j ∧ lane (t.poly q) j ≤ hi

/-! ## Faults -/

/-- R251: the first check that fails decides the cause, for every state and every latched word; a command
that passes every check completes without a fault. -/
def Obligations.FirstFailingCheckDecides : Prop :=
  ∀ s : State,
    let badRegion := fun i : Instr => ∃ off len, region i = some (off, len) ∧ 2048 < off + len
    let badTag := fun i : Instr => ∃ rb cc, checkedCache i = some (rb, cc) ∧
      ¬((s.cache cc).valid = true ∧ (s.cache cc).src = rb)
    let badRange := fun i : Instr => ∃ r, checkedSource i = some r ∧ ¬canonical (s.poly r)
    let badField := fun i : Instr => ∃ r off, i = .frombytes r off ∧
      ∃ k, k < 256 ∧ 3328 < field 12 (memRead s.buf off.toNat 384) k
    (decode s.cmd = .error .illegalOpcode → engineStep s = .next (faulted 1 s)) ∧
    (decode s.cmd = .error .illegalField → engineStep s = .next (faulted 2 s)) ∧
    ∀ i, decode s.cmd = .ok i →
      (badRegion i → engineStep s = .next (faulted 3 s)) ∧
      (¬badRegion i → badTag i → engineStep s = .next (faulted 4 s)) ∧
      (¬badRegion i → ¬badTag i → badRange i → engineStep s = .next (faulted 5 s)) ∧
      (¬badRegion i → ¬badTag i → badField i → engineStep s = .next (faulted 6 s)) ∧
      (¬badRegion i → ¬badTag i → overflows s i → engineStep s = .next (faulted 7 s)) ∧
      (¬badRegion i → ¬badTag i → ¬badRange i → ¬badField i → ¬overflows s i →
        ∃ t, engineStep s = .next t ∧ quiet s t)

/-- R254: the last legal offset of every format M command, and the fault one byte above it. -/
def Obligations.RegionMustFit : Prop :=
  ∀ (i : Instr) (s : State) (off len : Nat), s.fault = false → i.wellFormed = true →
    region i = some (off, len) →
    (2048 - len < off → faults 3 i s) ∧ (off ≤ 2048 - len → ¬faults 3 i s)

/-- R259: an engine step that records a fault leaves the state before it with three assignments, and one of
the seven codes. -/
def Obligations.FaultEntryIsPrecise : Prop :=
  ∀ s t : State, s.fault = false → engineStep s = .next t → t.fault = true →
    t = faulted t.fcause s ∧ 1 ≤ t.fcause.toNat ∧ t.fcause.toNat ≤ 7

/-- R260: a write of 1 to bit 1 of `STATUS` clears the fault and its cause and nothing else; any other write
to `STATUS`, and any write while `FAULT = 0`, changes nothing but the model's record of the answer (log
entry 8). -/
def Obligations.FaultClear : Prop :=
  ∀ (s : State) (v : Word),
    (s.fault = true → v.getLsbD 1 = true →
      busAccess s (.write 0x0008 (.b32 v)) = { s with fault := false, fcause := 0, answer := some .done }) ∧
    (s.fault = false ∨ v.getLsbD 1 = false →
      busAccess s (.write 0x0008 (.b32 v)) = { s with answer := some .done })

/-! ## The host's side -/

/-- R61: a word written to `CMD` is accepted, whatever it is, when `FAULT = 0`, and discarded when
`FAULT = 1`. That the write comes off the list of pending moves and is answered `done` is the model's (log
entries 5 and 8). -/
def Obligations.CommandWrite : Prop :=
  ∀ (s : State) (w : Word) (early : Bool) (rest : List HostMove), s.busy = false →
    s.host = ⟨.access (.write 0x0004 (.b32 w)), early⟩ :: rest →
    (s.fault = false → step s = .next { s with cmd := w, busy := true, host := rest, answer := some .done }) ∧
    (s.fault = true → step s = .next { s with host := rest, answer := some .done })

/-- R59: while a command is pending, a read of a control register may complete, on the state as it is; every
other legal access waits, and the engine step comes first. Which of the two goes first, where both may, is
settled by the move's flag (log entry 5). -/
def Obligations.HeldAccesses : Prop :=
  ∀ (s : State) (a : BusAccess) (early : Bool) (rest : List HostMove), s.busy = true →
    s.host = ⟨.access a, early⟩ :: rest → legal a →
    (¬isControlRead a → step s = engineStep s ∧ ∃ t, step s = .next t ∧ t.busy = false ∧ t.host = s.host) ∧
    (isControlRead a → early = true → step s = .next (busAccess { s with host := rest } a)) ∧
    (isControlRead a → early = false → step s = engineStep s)

/-- R28 to R32: what the five control registers read as. -/
def Obligations.ControlRegisterReads : Prop :=
  ∀ s : State,
    busRead s .w32 0x0000 = some (.b32 0x01000D01#32) ∧
    busRead s .w32 0x0004 = some (.b32 s.cmd) ∧
    (∃ v : Word, busRead s .w32 0x0008 = some (.b32 v) ∧ v.getLsbD 0 = s.busy ∧ v.getLsbD 1 = s.fault ∧
      v.toNat < 4) ∧
    (∃ v : Word, busRead s .w32 0x000C = some (.b32 v) ∧ v.toNat = s.fcause.toNat) ∧
    (∃ v : Word, busRead s .w32 0x0010 = some (.b32 v) ∧
      ∀ k : CReg, v.getLsbD (4 * k.val + 3) = (s.cache k).valid ∧
        v.toNat / 2 ^ (4 * k.val) % 8 = (s.cache k).src.val)

/-- R51, R52, R66: the `P` window reads and writes one lane, and a write clears the valid bit of every cache of
that register in the same change; the `C` window reads one entry. The answer `done` to a write is the model's
choice (log entry 8). -/
def Obligations.LaneWindows : Prop :=
  ∀ s : State,
    (∀ (r : PReg) (i : Nat), i < 256 →
      (∃ v : BitVec 16, busRead s .w16 (0x1000 + 0x200 * r.val + 2 * i) = some (.b16 v) ∧
        v.toInt = lane (s.poly r) i) ∧
      ∀ v : BitVec 16, ∃ t, busAccess s (.write (0x1000 + 0x200 * r.val + 2 * i) (.b16 v)) = t ∧
        lane (t.poly r) i = v.toInt ∧ (∀ j, j ≠ i → lane (t.poly r) j = lane (s.poly r) j) ∧
        (∀ q, q ≠ r → t.poly q = s.poly q) ∧ tagsAfter (fun q => q = r) s t ∧ sameBytes s t ∧
        t.cmd = s.cmd ∧ t.busy = s.busy ∧ t.fault = s.fault ∧ t.fcause = s.fcause ∧ t.host = s.host ∧
        t.answer = some .done) ∧
    (∀ (k : CReg) (p : Nat), p < 128 →
      ∃ v : BitVec 16, busRead s .w16 (0x2000 + 0x100 * k.val + 2 * p) = some (.b16 v) ∧
        v.toInt = lane (s.cache k).data p)

/-- R52: the `BUF` window is little-endian, at all three widths, and a write stores exactly its bytes. -/
def Obligations.BufWindow : Prop :=
  ∀ (s : State) (a : Nat),
    (a < 2048 →
      busRead s .w8 (0x2800 + a) = some (.b8 (Memory.read s.buf a)) ∧
      ∀ v : BitVec 8, ∃ t, busAccess s (.write (0x2800 + a) (.b8 v)) = t ∧ Memory.read t.buf a = v ∧
        (∀ x, x ≠ a → Memory.read t.buf x = Memory.read s.buf x) ∧ onlyBufWritten s t) ∧
    (a < 2048 → a % 2 = 0 →
      (∃ v : BitVec 16, busRead s .w16 (0x2800 + a) = some (.b16 v) ∧
        ∀ j, j < 2 → v.toNat / 2 ^ (8 * j) % 256 = (Memory.read s.buf (a + j)).toNat) ∧
      ∀ v : BitVec 16, ∃ t, busAccess s (.write (0x2800 + a) (.b16 v)) = t ∧
        (∀ j, j < 2 → (Memory.read t.buf (a + j)).toNat = v.toNat / 2 ^ (8 * j) % 256) ∧
        (∀ x, ¬(a ≤ x ∧ x < a + 2) → Memory.read t.buf x = Memory.read s.buf x) ∧ onlyBufWritten s t) ∧
    (a < 2048 → a % 4 = 0 →
      (∃ v : BitVec 32, busRead s .w32 (0x2800 + a) = some (.b32 v) ∧
        ∀ j, j < 4 → v.toNat / 2 ^ (8 * j) % 256 = (Memory.read s.buf (a + j)).toNat) ∧
      ∀ v : BitVec 32, ∃ t, busAccess s (.write (0x2800 + a) (.b32 v)) = t ∧
        (∀ j, j < 4 → (Memory.read t.buf (a + j)).toNat = v.toNat / 2 ^ (8 * j) % 256) ∧
        (∀ x, ¬(a ≤ x ∧ x < a + 4) → Memory.read t.buf x = Memory.read s.buf x) ∧ onlyBufWritten s t)

/-- R54, R55: exactly the accesses of R54 are legal; every other gets the error response and changes no
state of RE. The error response is the model's `answer` (log entries 4 and 8). -/
def Obligations.IllegalAccess : Prop :=
  ∀ (s : State) (a : BusAccess),
    (¬legal a → busAccess s a = { s with answer := some .error }) ∧
    (legal a → (busAccess s a).answer ≠ some .error)

/-- R56: no read has a side effect. -/
def Obligations.ReadsHaveNoSideEffect : Prop :=
  ∀ (s : State) (w : Width) (off : Nat), ∃ ans,
    busAccess s (.read w off) = { s with answer := some ans } ∧
    busAccess (busAccess s (.read w off)) (.read w off) = busAccess s (.read w off)

/-- R268: the host changes `BUSY` only by issuing a command, sets no fault, and changes `CMD` and `FCAUSE`
only by the writes of R61 and R260. -/
def Obligations.HostPowers : Prop :=
  ∀ (s : State) (a : BusAccess),
    ((busAccess s a).busy ≠ s.busy → ∃ w, a = .write 0x0004 (.b32 w)) ∧
    ((busAccess s a).cmd ≠ s.cmd → ∃ w, a = .write 0x0004 (.b32 w)) ∧
    ((busAccess s a).fault = true → s.fault = true) ∧
    ((busAccess s a).fcause ≠ s.fcause → ∃ v, a = .write 0x0008 (.b32 v) ∧ v.getLsbD 1 = true) ∧
    (busAccess s a).host = s.host

/-- R70, R33: what a command does depends on the registers, the caches and the bytes of its own region, and
on nothing else; in particular on no control register and on no byte outside the region. -/
def Obligations.ReadFootprint : Prop :=
  ∀ (i : Instr) (s s' t t' : State),
    (∀ r, s'.poly r = s.poly r) → (∀ k, s'.cache k = s.cache k) →
    (∀ off len, region i = some (off, len) →
      ∀ a, off ≤ a → a < off + len → Memory.read s'.buf a = Memory.read s.buf a) →
    s.fault = false → s'.fault = false → exec i s = .next t → exec i s' = .next t' →
    (∀ r, t'.poly r = t.poly r) ∧ (∀ k, t'.cache k = t.cache k) ∧ t'.fault = t.fault ∧
    (t.fault = true → t'.fcause = t.fcause) ∧
    ∀ off len, region i = some (off, len) →
      ∀ a, off ≤ a → a < off + len → Memory.read t'.buf a = Memory.read t.buf a

/-! ## Reset and the invariant -/

/-- R34: the values the rule gives for reset; the lanes, the cache data and `BUF` are not among them. -/
def Obligations.ResetValues : Prop :=
  State.reset.cmd = 0 ∧ State.reset.busy = false ∧ State.reset.fault = false ∧ State.reset.fcause = 0 ∧
  (∀ k, (State.reset.cache k).valid = false ∧ (State.reset.cache k).src = 0) ∧
  busRead State.reset .w32 0x0000 = some (.b32 0x01000D01#32) ∧
  busRead State.reset .w32 0x0010 = some (.b32 0#32)

/-- R290: a reset in any state, also while a command is pending, gives the control state of R34 and any
content whatever of the data registers; a command in flight leaves none of its writes and no fault. That a
reset is a pending move with its content is the model's (log entry 5). -/
def Obligations.ResetEvent : Prop :=
  ∀ (s : State) (l : Launch) (early : Bool) (rest : List HostMove),
    s.host = ⟨.reset l, early⟩ :: rest → s.busy = false ∨ early = true →
    ∃ t, step s = .next t ∧ t.cmd = 0 ∧ t.busy = false ∧ t.fault = false ∧ t.fcause = 0 ∧ t.host = rest ∧
      (∀ k, (t.cache k).valid = false ∧ (t.cache k).src = 0 ∧ (t.cache k).data = l.cacheData[k.val]) ∧
      (∀ r, t.poly r = l.polys[r.val]) ∧
      ∀ (a : Nat) (h : a < 2048), Memory.read t.buf a = l.bytes[a]

/-- The invariant holds after reset. It holds of any content of the data registers; `State.reset` has zeros
there (log entry 1), and the proof needs only that the tags are 0 and that `BUF` lists nothing. -/
def Obligations.InvariantAtReset : Prop := State.reset.Inv

/-- R24, R30, R250: every step, of the engine or of the environment, keeps `BUF` in canonical form, `BUSY`
and `FAULT` apart, `FCAUSE` true to `FAULT`, and every valid tag true of its source register. -/
def Obligations.InvariantKept : Prop := ∀ s t : State, s.Inv → step s = .next t → t.Inv
end

