-- ==== Sys2Proof/Laws/Arith.lean ====
section
/-! SUPPORT. The integer arithmetic: ranges and residues of `cmod`, `to_unsigned`, the scalar codec and
Montgomery reduction (spec/00_scope.md R9, spec/40_scalar_codec.md R111 to R116, spec/44_ntt.md R191 to
R194). -/

namespace Sys2Proof.Machine

/-! Centered and unsigned residues. -/

theorem cmod_range (x : Int) : -1664 ≤ cmod x ∧ cmod x ≤ 1664 := by
  unfold cmod; split <;> omega

theorem cmod_congr (x : Int) : cmod x ≡ x [ZMOD 3329] := by
  unfold cmod Int.ModEq; split <;> omega

/-- `cmod x` is the only centered number congruent to `x` (R9). -/
theorem cmod_unique {x r : Int} (hr : -1664 ≤ r ∧ r ≤ 1664) (h : r ≡ x [ZMOD 3329]) : cmod x = r := by
  unfold cmod; unfold Int.ModEq at h; split <;> omega

theorem toUnsigned_range {c : Int} (h : -3328 ≤ c ∧ c ≤ 3328) : 0 ≤ toUnsigned c ∧ toUnsigned c ≤ 3328 := by
  unfold toUnsigned cmov16; by_cases hc : c < 0 <;> simp [hc] <;> omega

theorem toUnsigned_congr (c : Int) : toUnsigned c ≡ c [ZMOD 3329] := by
  unfold toUnsigned cmov16 Int.ModEq; by_cases hc : c < 0 <;> simp [hc]

theorem toUnsigned_of_nonneg {c : Int} (h : 0 ≤ c) : toUnsigned c = c := by
  unfold toUnsigned cmov16; simp [show ¬ c < 0 by omega]

/-! The scalar codec. -/

theorem compress_range (d : Nat) (u : Int) : 0 ≤ compress d u ∧ compress d u < 2 ^ d :=
  ⟨Int.emod_nonneg _ (by positivity), Int.emod_lt_of_pos _ (by positivity)⟩

/-- A decompressed field is a residue (R116 (a)), for every width the engine has. -/
theorem decompress_range {d : Nat} (hd : 1 ≤ d) (hd' : d ≤ 11) {y : Int} (h0 : 0 ≤ y) (h : y < 2 ^ d) :
    0 ≤ decompress d y ∧ decompress d y ≤ 3328 := by
  unfold decompress
  interval_cases d <;> norm_num at h ⊢ <;> omega

/-- Compressing a decompressed field gives the field (R116 (b)). -/
theorem compress_decompress {d : Nat} (hd : d ∈ [1, 4, 5, 10, 11]) {y : Int} (h0 : 0 ≤ y) (h : y < 2 ^ d) :
    compress d (decompress d y) = y := by
  unfold compress decompress
  simp only [List.mem_cons, List.not_mem_nil, or_false] at hd
  rcases hd with rfl | rfl | rfl | rfl | rfl <;> norm_num at h ⊢
  · rw [show ((y * 3329 + 1) / 2 * 2 + 1664) / 3329 = y by omega]; omega
  · rw [show ((y * 3329 + 8) / 16 * 16 + 1664) / 3329 = y by omega]; omega
  · rw [show ((y * 3329 + 16) / 32 * 32 + 1664) / 3329 = y by omega]; omega
  · rw [show ((y * 3329 + 512) / 1024 * 1024 + 1664) / 3329 = y by omega]; omega
  · rw [show ((y * 3329 + 1024) / 2048 * 2048 + 1664) / 3329 = y by omega]; omega

/-! Montgomery reduction. -/

theorem sext16_low16_range (x : Int) : -32768 ≤ sext16 (low16 x) ∧ sext16 (low16 x) ≤ 32767 := by
  unfold sext16 low16; split <;> omega

/-- The division in `mred` is exact (R191). -/
theorem mred_mul (a : Int) : mred a * 65536 = a - sext16 (low16 (low16 a * 62209)) * 3329 := by
  unfold mred
  apply Int.ediv_mul_cancel
  unfold sext16 low16
  split <;> omega

theorem mred_congr (a : Int) : mred a * 65536 ≡ a [ZMOD 3329] := by
  rw [mred_mul]; unfold Int.ModEq; omega

/-- The bound of R191, in integers. -/
theorem mred_bound {a B : Int} (h : -B ≤ a ∧ a ≤ B) :
    -(B + 32768 * 3329) ≤ mred a * 65536 ∧ mred a * 65536 ≤ B + 32768 * 3329 := by
  have := mred_mul a
  have := sext16_low16_range (low16 a * 62209)
  constructor <;> omega

theorem mul_bound {a b A B : Int} (ha : -A ≤ a ∧ a ≤ A) (hb : -B ≤ b ∧ b ≤ B) :
    -(A * B) ≤ a * b ∧ a * b ≤ A * B := by
  have h1 : |a| ≤ A := abs_le.mpr ha
  have h2 : |b| ≤ B := abs_le.mpr hb
  have : |a * b| ≤ A * B := by
    rw [abs_mul]
    exact mul_le_mul h1 h2 (abs_nonneg b) ((abs_nonneg a).trans h1)
  exact abs_le.mp this

theorem fqmul_congr (a b : Int) : fqmul a b * 65536 ≡ a * b [ZMOD 3329] := mred_congr _

/-- The bound of R192, in integers. -/
theorem fqmul_bound {a b A B : Int} (ha : -A ≤ a ∧ a ≤ A) (hb : -B ≤ b ∧ b ≤ B) :
    -(A * B + 32768 * 3329) ≤ fqmul a b * 65536 ∧ fqmul a b * 65536 ≤ A * B + 32768 * 3329 :=
  mred_bound (mul_bound ha hb)

/-! The twiddle table. -/

theorem zetas_length : zetas.length = 128 := by decide +kernel

theorem zeta_range (k : Nat) : -1659 ≤ zeta k ∧ zeta k ≤ 1659 := by
  by_cases h : k < 128
  · have : ∀ k < 128, -1659 ≤ zeta k ∧ zeta k ≤ 1659 := by decide +kernel
    exact this k h
  · unfold zeta
    rw [List.getD_eq_default _ _ (by rw [zetas_length]; omega)]
    omega

/-- The 7-bit reversal `brv7` of R194. -/
def brv7 (i : Nat) : Nat :=
  64 * (i % 2) + 32 * (i / 2 % 2) + 16 * (i / 4 % 2) + 8 * (i / 8 % 2) + 4 * (i / 16 % 2) +
    2 * (i / 32 % 2) + i / 64 % 2

/-- The listing of R194 is the formula of R194. -/
theorem zeta_eq_formula {i : Nat} (h : i < 128) : zeta i = cmod (2 ^ 16 * 17 ^ brv7 i) := by
  have : ∀ i < 128, zeta i = cmod (2 ^ 16 * 17 ^ brv7 i) := by decide +kernel
  exact this i h

end Sys2Proof.Machine
end

