-- ==== Sys2Proof/Laws/Lanes.lean ====
section
/-! SUPPORT. A register as a sequence of integers: reading a lane, writing a sequence, checking all
lanes. -/

namespace Sys2Proof.Machine

theorem padTo_getD {α : Type} (d : α) (n i : Nat) (l : List α) (h : i < n) :
    (padTo d n l).getD i d = l.getD i d := by
  induction n generalizing i l with
  | zero => omega
  | succ n ih =>
    cases l with
    | nil => cases i with
      | zero => rfl
      | succ i => simpa [padTo] using ih i [] (by omega)
    | cons a l => cases i with
      | zero => rfl
      | succ i => simpa [padTo] using ih i l (by omega)

theorem padTo_eq_self {α : Type} (d : α) (l : List α) : padTo d l.length l = l := by
  induction l with
  | nil => rfl
  | cons a l ih => simp [padTo, ih]

@[simp] theorem lanes_length {n : Nat} (v : Vector Lane n) : (lanes v).length = n := by
  simp [lanes]

theorem lanes_getD {n : Nat} (v : Vector Lane n) (i : Nat) : (lanes v).getD i 0 = lane v i := by
  unfold lane
  split
  · next h => simp [lanes, List.getD_eq_getElem?_getD, h]
  · next h => simp [lanes, List.getD_eq_getElem?_getD, h]

theorem lanes_getElem {n : Nat} (v : Vector Lane n) (i : Nat) (h : i < (lanes v).length) :
    (lanes v)[i] = lane v i := by
  rw [← lanes_getD, List.getD_eq_getElem _ _ h]

theorem toInt_ofInt16 {x : Int} (h : -32768 ≤ x ∧ x ≤ 32767) : (BitVec.ofInt 16 x).toInt = x := by
  rw [BitVec.toInt_ofInt, Int.bmod_eq_of_le] <;> omega

/-- A register written with a sequence of int16 values holds that sequence. -/
theorem lanes_ofLanes {n : Nat} {l : List Int} (hl : l.length = n)
    (h : ∀ x ∈ l, -32768 ≤ x ∧ x ≤ 32767) : lanes (ofLanes n l) = l := by
  have hp : padTo 0 n (l.map (BitVec.ofInt 16)) = l.map (BitVec.ofInt 16) := by
    have := padTo_eq_self (0 : Lane) (l.map (BitVec.ofInt 16))
    rwa [List.length_map, hl] at this
  simp only [lanes, ofLanes, Vector.toList_mk, hp, List.map_map]
  conv_rhs => rw [← List.map_id l]
  exact List.map_congr_left fun x hx => toInt_ofInt16 (h x hx)

theorem lane_ofLanes {n i : Nat} (l : List Int) (hi : i < n) (h : -32768 ≤ l.getD i 0 ∧ l.getD i 0 ≤ 32767) :
    lane (ofLanes n l) i = l.getD i 0 := by
  have hg := padTo_getD (0 : Lane) n i (l.map (BitVec.ofInt 16)) hi
  have hlen := padTo_length (0 : Lane) n (l.map (BitVec.ofInt 16))
  have h1 : (padTo (0 : Lane) n (l.map (BitVec.ofInt 16)))[i]'(by omega) = BitVec.ofInt 16 (l.getD i 0) := by
    rw [List.getD_eq_getElem?_getD, List.getElem?_eq_getElem (by omega)] at hg
    simp only [Option.getD_some] at hg
    rw [hg]
    simp only [List.getD_eq_getElem?_getD, List.getElem?_map]
    cases l[i]? <;> simp
  simp only [lane, hi, ↓reduceDIte, ofLanes]
  rw [Vector.getElem_mk, List.getElem_toArray, h1, toInt_ofInt16 h]

theorem lane_bound {n : Nat} (v : Vector Lane n) (i : Nat) : -32768 ≤ lane v i ∧ lane v i ≤ 32767 := by
  unfold lane
  split
  · have := BitVec.le_toInt v[i]; have := BitVec.toInt_lt (x := v[i]); omega
  · omega

theorem mem_lanes {n : Nat} (v : Vector Lane n) (x : Int) : x ∈ lanes v ↔ ∃ i, i < n ∧ lane v i = x := by
  rw [List.mem_iff_getElem]
  constructor
  · rintro ⟨i, h, rfl⟩; exact ⟨i, by simpa using h, (lanes_getElem v i h).symm⟩
  · rintro ⟨i, h, rfl⟩; exact ⟨i, by simpa using h, lanes_getElem v i (by simpa using h)⟩

/-- Registers with the same lanes are equal. -/
theorem lanes_injective {n : Nat} {v w : Vector Lane n} (h : lanes v = lanes w) : v = w := by
  have : v.toList = w.toList := by
    apply List.map_injective_iff.mpr _ h
    intro a b hab; exact BitVec.eq_of_toInt_eq hab
  exact Vector.toList_inj.mp this

theorem ofLanes_lanes {n : Nat} (v : Vector Lane n) : ofLanes n (lanes v) = v := by
  apply lanes_injective
  apply lanes_ofLanes (lanes_length v)
  intro x hx
  obtain ⟨i, -, rfl⟩ := (mem_lanes v x).mp hx
  exact lane_bound v i

/-! The checks, lane by lane. -/

@[simp] theorem fitsInt16_iff (x : Int) : fitsInt16 x = true ↔ -32768 ≤ x ∧ x ≤ 32767 := by
  simp [fitsInt16]

@[simp] theorem isCanonical_iff (x : Int) : isCanonical x = true ↔ -3328 ≤ x ∧ x ≤ 3328 := by
  simp [isCanonical]

@[simp] theorem isResidue_iff (v : Nat) : isResidue v = true ↔ v ≤ 3328 := by simp [isResidue]

theorem all_lanes_iff {n : Nat} (v : Vector Lane n) (p : Int → Bool) :
    (lanes v).all p = true ↔ ∀ i, i < n → p (lane v i) = true := by
  simp only [List.all_eq_true, mem_lanes]
  constructor
  · intro h i hi; exact h _ ⟨i, hi, rfl⟩
  · rintro h x ⟨i, hi, rfl⟩; exact h i hi

theorem all_getD_iff (l : List Int) (p : Int → Bool) :
    l.all p = true ↔ ∀ i, i < l.length → p (l.getD i 0) = true := by
  simp only [List.all_eq_true, List.mem_iff_getElem]
  constructor
  · intro h i hi; exact h _ ⟨i, hi, by simp [List.getD_eq_getElem?_getD, hi]⟩
  · rintro h x ⟨i, hi, rfl⟩; have := h i hi; simpa [List.getD_eq_getElem?_getD, hi] using this

end Sys2Proof.Machine
end

