-- ==== Sys2Proof/Laws/Memory.lean ====
section
/-! SUPPORT. The laws of `BUF`: a read after a write gives the byte written, a write leaves every other
byte alone, and every write keeps the canonical form. The first two hold of every list of cells. -/

namespace Sys2Proof.Machine

theorem read_filter_ne (m : Memory) (a a' : Nat) (h : a' ≠ a) :
    Memory.read (m.filter fun c => c.1 != a) a' = Memory.read m a' := by
  induction m with
  | nil => rfl
  | cons c m ih =>
    obtain ⟨x, b⟩ := c
    by_cases hx : x = a
    · subst hx; simp [Memory.read, ih, Ne.symm h]
    · simp [Memory.read, ih, hx]

theorem read_filter_self (m : Memory) (a : Nat) : Memory.read (m.filter fun c => c.1 != a) a = 0#8 := by
  induction m with
  | nil => rfl
  | cons c m ih =>
    obtain ⟨x, b⟩ := c
    by_cases hx : x = a
    · subst hx; simp [ih]
    · simp [Memory.read, ih, hx]

theorem read_insert_ne (m : Memory) (a a' : Nat) (b : Byte) (h : a' ≠ a) :
    Memory.read (Memory.insert m a b) a' = Memory.read m a' := by
  induction m with
  | nil => simp [Memory.insert, Memory.read, Ne.symm h]
  | cons c m ih =>
    obtain ⟨x, y⟩ := c
    simp only [Memory.insert]
    split <;> simp [Memory.read, ih, Ne.symm h]

theorem read_insert_self (m : Memory) (a : Nat) (b : Byte) (h : ∀ c ∈ m, c.1 ≠ a) :
    Memory.read (Memory.insert m a b) a = b := by
  induction m with
  | nil => simp [Memory.insert, Memory.read]
  | cons c m ih =>
    obtain ⟨x, y⟩ := c
    simp only [List.mem_cons, forall_eq_or_imp] at h
    simp only [Memory.insert]
    split
    · simp [Memory.read]
    · simp [Memory.read, h.1, ih h.2]

/-- A read gives the last byte written there, and any other byte as before the write. -/
theorem read_write (m : Memory) (a a' : Nat) (b : Byte) :
    Memory.read (Memory.write m a b) a' = if a' = a then b else Memory.read m a' := by
  unfold Memory.write
  by_cases hb : b = 0#8
  · by_cases h : a' = a
    · subst h; simp [hb, read_filter_self]
    · simp [hb, h, read_filter_ne]
  · by_cases h : a' = a
    · subst h; simp [hb, read_insert_self]
    · simp [hb, h, read_insert_ne, read_filter_ne]

/-- The bytes of a region write: those of the list inside the region, the old ones outside. -/
theorem read_memWrite (m : Memory) (off : Nat) (l : List Byte) (a : Nat) :
    Memory.read (memWrite m off l) a =
      if off ≤ a ∧ a < off + l.length then l.getD (a - off) 0#8 else Memory.read m a := by
  induction l generalizing m off with
  | nil => simp [memWrite]
  | cons b l ih =>
    simp only [memWrite, ih, read_write, List.length_cons]
    by_cases h1 : a = off
    · subst h1; simp
    · by_cases h2 : off + 1 ≤ a ∧ a < off + 1 + l.length
      · have h3 : off ≤ a ∧ a < off + (l.length + 1) := by omega
        have h4 : a - off = (a - (off + 1)) + 1 := by omega
        simp only [h2, h3, h4, and_self, ↓reduceIte, List.getD_cons_succ]
      · have h3 : ¬(off ≤ a ∧ a < off + (l.length + 1)) := by omega
        simp only [h2, h3, h1, ↓reduceIte]

@[simp] theorem memRead_length (m : Memory) (off n : Nat) : (memRead m off n).length = n := by
  simp [memRead]

theorem memRead_getElem (m : Memory) (off n k : Nat) (h : k < (memRead m off n).length) :
    (memRead m off n)[k] = Memory.read m (off + k) := by
  simp [memRead]

theorem memRead_getD (m : Memory) (off n k : Nat) (h : k < n) :
    (memRead m off n).getD k 0#8 = Memory.read m (off + k) := by
  rw [List.getD_eq_getElem _ _ (by simpa using h), memRead_getElem]

/-- Reading back a region just written. -/
theorem memRead_memWrite (m : Memory) (off : Nat) (l : List Byte) :
    memRead (memWrite m off l) off l.length = l := by
  apply List.ext_getElem (by simp)
  intro k h1 h2
  rw [memRead_getElem, read_memWrite, if_pos (by omega), Nat.add_sub_cancel_left,
    List.getD_eq_getElem _ _ h2]

/-- Memories that agree on a region give the same bytes there. -/
theorem memRead_congr {m m' : Memory} {off n : Nat}
    (h : ∀ a, off ≤ a → a < off + n → Memory.read m a = Memory.read m' a) :
    memRead m off n = memRead m' off n := by
  apply List.map_congr_left
  intro k hk
  exact h _ (by omega) (by have := List.mem_range.mp hk; omega)

/-! The canonical form. -/

theorem wfFrom_mono {lo lo' : Nat} (h : lo' ≤ lo) {m : Memory} (hm : Memory.wfFrom lo m = true) :
    Memory.wfFrom lo' m = true := by
  cases m with
  | nil => rfl
  | cons c m =>
    obtain ⟨x, b⟩ := c
    simp only [Memory.wfFrom, Bool.and_eq_true, decide_eq_true_eq] at hm ⊢
    exact ⟨⟨⟨by omega, hm.1.1.2⟩, hm.1.2⟩, hm.2⟩

theorem wfFrom_filter {lo : Nat} (p : Host.Cell → Bool) {m : Memory} (hm : Memory.wfFrom lo m = true) :
    Memory.wfFrom lo (m.filter p) = true := by
  induction m generalizing lo with
  | nil => rfl
  | cons c m ih =>
    obtain ⟨x, b⟩ := c
    simp only [Memory.wfFrom, Bool.and_eq_true, decide_eq_true_eq] at hm
    rw [List.filter_cons]
    split
    · simp only [Memory.wfFrom, Bool.and_eq_true, decide_eq_true_eq]
      exact ⟨hm.1, ih hm.2⟩
    · exact wfFrom_mono (by omega) (ih hm.2)

theorem wfFrom_insert {lo a : Nat} {b : Byte} {m : Memory} (hm : Memory.wfFrom lo m = true)
    (hlo : lo ≤ a) (ha : a < Config.bufSize) (hb : b ≠ 0#8) (hn : ∀ c ∈ m, c.1 ≠ a) :
    Memory.wfFrom lo (Memory.insert m a b) = true := by
  induction m generalizing lo with
  | nil => simp [Memory.insert, Memory.wfFrom, hlo, ha, hb]
  | cons c m ih =>
    obtain ⟨x, y⟩ := c
    simp only [List.mem_cons, forall_eq_or_imp] at hn
    simp only [Memory.wfFrom, Bool.and_eq_true, decide_eq_true_eq] at hm
    simp only [Memory.insert]
    split
    · simp only [Memory.wfFrom, Bool.and_eq_true, decide_eq_true_eq, bne_iff_ne, ne_eq]
      exact ⟨⟨⟨hlo, ha⟩, hb⟩, ⟨⟨by omega, hm.1.1.2⟩, by simpa using hm.1.2⟩, hm.2⟩
    · simp only [Memory.wfFrom, Bool.and_eq_true, decide_eq_true_eq]
      exact ⟨hm.1, ih hm.2 (by omega) hn.2⟩

/-- Writing a byte of `BUF` keeps the canonical form. -/
theorem wf_write {m : Memory} (hm : Memory.wf m = true) {a : Nat} (ha : a < Config.bufSize) (b : Byte) :
    Memory.wf (Memory.write m a b) = true := by
  unfold Memory.wf Memory.write at *
  split
  · exact wfFrom_filter _ hm
  · next hb => exact wfFrom_insert (wfFrom_filter _ hm) (by omega) ha hb (by simp)

/-- Writing a region inside `BUF` keeps the canonical form. -/
theorem wf_memWrite {m : Memory} (hm : Memory.wf m = true) {off : Nat} {l : List Byte}
    (h : off + l.length ≤ Config.bufSize) : Memory.wf (memWrite m off l) = true := by
  induction l generalizing m off with
  | nil => exact hm
  | cons b l ih =>
    simp only [List.length_cons] at h
    exact ih (wf_write hm (by omega) b) (by omega)

/-- Canonical memories that read alike are equal. -/
theorem eq_of_read_eq {m m' : Memory} (hm : Memory.wf m = true) (hm' : Memory.wf m' = true)
    (h : ∀ a, Memory.read m a = Memory.read m' a) : m = m' := by
  have low : ∀ (m : Memory) (lo a : Nat), Memory.wfFrom lo m = true → a < lo → Memory.read m a = 0#8 := by
    intro m
    induction m with
    | nil => intros; rfl
    | cons c m ih =>
      intro lo a hw ha
      obtain ⟨x, b⟩ := c
      simp only [Memory.wfFrom, Bool.and_eq_true, decide_eq_true_eq] at hw
      simp only [Memory.read]
      rw [if_neg (by omega)]
      exact ih (x + 1) a hw.2 (by omega)
  have main : ∀ (m m' : Memory) (lo : Nat), Memory.wfFrom lo m = true → Memory.wfFrom lo m' = true →
      (∀ a, lo ≤ a → Memory.read m a = Memory.read m' a) → m = m' := by
    intro m
    induction m with
    | nil =>
      intro m' lo _ hw' h
      cases m' with
      | nil => rfl
      | cons c m' =>
        obtain ⟨x, b⟩ := c
        simp only [Memory.wfFrom, Bool.and_eq_true, decide_eq_true_eq, bne_iff_ne, ne_eq] at hw'
        have := h x (by omega)
        simp only [Memory.read, ↓reduceIte] at this
        exact absurd this.symm hw'.1.2
    | cons c m ih =>
      intro m' lo hw hw' h
      obtain ⟨x, b⟩ := c
      simp only [Memory.wfFrom, Bool.and_eq_true, decide_eq_true_eq, bne_iff_ne, ne_eq] at hw
      cases m' with
      | nil =>
        have := h x (by omega)
        simp only [Memory.read, ↓reduceIte] at this
        exact absurd this hw.1.2
      | cons c' m' =>
        obtain ⟨y, d⟩ := c'
        simp only [Memory.wfFrom, Bool.and_eq_true, decide_eq_true_eq, bne_iff_ne, ne_eq] at hw'
        have hxy : x = y := by
          rcases Nat.lt_trichotomy x y with hlt | heq | hgt
          · have := h x (by omega)
            simp only [Memory.read, ↓reduceIte] at this
            rw [if_neg (by omega), low m' (y + 1) x hw'.2 (by omega)] at this
            exact absurd this hw.1.2
          · exact heq
          · have := h y (by omega)
            simp only [Memory.read, ↓reduceIte] at this
            rw [if_neg (by omega), low m (x + 1) y hw.2 (by omega)] at this
            exact absurd this.symm hw'.1.2
        subst hxy
        have hbd : b = d := by simpa [Memory.read] using h x (by omega)
        subst hbd
        congr 1
        apply ih m' (x + 1) hw.2 hw'.2
        intro a ha
        have := h a (by omega)
        simpa [Memory.read, show x ≠ a by omega] using this
  exact main m m' 0 hm hm' fun a _ => h a

theorem wf_ofBytes (l : List Byte) : Memory.wf (Memory.ofBytes l) = true :=
  wf_memWrite rfl (by simp [Config.bufSize])

/-- The byte of `BUF` after a reset with the launch bytes given. -/
theorem read_ofBytes (l : List Byte) (a : Nat) (h : a < Config.bufSize) :
    Memory.read (Memory.ofBytes l) a = l.getD a 0#8 := by
  unfold Memory.ofBytes
  rw [read_memWrite]
  by_cases ha : a < l.length
  · rw [if_pos (by simp; omega)]
    simp [List.getD_eq_getElem?_getD, h]
  · rw [if_neg (by simp; omega)]
    simp [List.getD_eq_getElem?_getD, ha, Memory.read]

end Sys2Proof.Machine
end

