-- ==== Sys2Proof/Laws/State.lean ====
section
/-! SUPPORT. One lemma per field and per update of the state, so that no later proof unfolds a record
update, and the two register files read back after each write. -/

namespace Sys2Proof.Machine

/-! Completing, taking a fault. -/

@[simp] theorem finish_polys (s : State) : s.finish.polys = s.polys := rfl
@[simp] theorem finish_caches (s : State) : s.finish.caches = s.caches := rfl
@[simp] theorem finish_buf (s : State) : s.finish.buf = s.buf := rfl
@[simp] theorem finish_cmd (s : State) : s.finish.cmd = s.cmd := rfl
@[simp] theorem finish_busy (s : State) : s.finish.busy = false := rfl
@[simp] theorem finish_fault (s : State) : s.finish.fault = s.fault := rfl
@[simp] theorem finish_fcause (s : State) : s.finish.fcause = s.fcause := rfl
@[simp] theorem finish_host (s : State) : s.finish.host = s.host := rfl
@[simp] theorem finish_answer (s : State) : s.finish.answer = s.answer := rfl
@[simp] theorem finish_poly (s : State) (r : PReg) : s.finish.poly r = s.poly r := rfl
@[simp] theorem finish_cache (s : State) (k : CReg) : s.finish.cache k = s.cache k := rfl

@[simp] theorem takeFault_polys (c : Cause) (s : State) : (s.takeFault c).polys = s.polys := rfl
@[simp] theorem takeFault_caches (c : Cause) (s : State) : (s.takeFault c).caches = s.caches := rfl
@[simp] theorem takeFault_buf (c : Cause) (s : State) : (s.takeFault c).buf = s.buf := rfl
@[simp] theorem takeFault_cmd (c : Cause) (s : State) : (s.takeFault c).cmd = s.cmd := rfl
@[simp] theorem takeFault_busy (c : Cause) (s : State) : (s.takeFault c).busy = false := rfl
@[simp] theorem takeFault_fault (c : Cause) (s : State) : (s.takeFault c).fault = true := rfl
@[simp] theorem takeFault_fcause (c : Cause) (s : State) : (s.takeFault c).fcause = c.code := rfl
@[simp] theorem takeFault_host (c : Cause) (s : State) : (s.takeFault c).host = s.host := rfl
@[simp] theorem takeFault_answer (c : Cause) (s : State) : (s.takeFault c).answer = s.answer := rfl
@[simp] theorem takeFault_poly (c : Cause) (s : State) (r : PReg) :
    (s.takeFault c).poly r = s.poly r := rfl
@[simp] theorem takeFault_cache (c : Cause) (s : State) (k : CReg) :
    (s.takeFault c).cache k = s.cache k := rfl

/-! Writing a polynomial register. -/

@[simp] theorem writePoly_buf (s : State) (r : PReg) (f : Poly) : (s.writePoly r f).buf = s.buf := rfl
@[simp] theorem writePoly_cmd (s : State) (r : PReg) (f : Poly) : (s.writePoly r f).cmd = s.cmd := rfl
@[simp] theorem writePoly_busy (s : State) (r : PReg) (f : Poly) : (s.writePoly r f).busy = s.busy := rfl
@[simp] theorem writePoly_fault (s : State) (r : PReg) (f : Poly) :
    (s.writePoly r f).fault = s.fault := rfl
@[simp] theorem writePoly_fcause (s : State) (r : PReg) (f : Poly) :
    (s.writePoly r f).fcause = s.fcause := rfl
@[simp] theorem writePoly_host (s : State) (r : PReg) (f : Poly) : (s.writePoly r f).host = s.host := rfl
@[simp] theorem writePoly_answer (s : State) (r : PReg) (f : Poly) :
    (s.writePoly r f).answer = s.answer := rfl

theorem writePoly_poly (s : State) (r r' : PReg) (f : Poly) :
    (s.writePoly r f).poly r' = if r' = r then f else s.poly r' := by
  simp only [State.poly, State.writePoly, Vector.getElem_set, Fin.ext_iff, eq_comm (a := r.val)]

@[simp] theorem writePoly_poly_self (s : State) (r : PReg) (f : Poly) : (s.writePoly r f).poly r = f := by
  simp [writePoly_poly]

theorem writePoly_poly_ne (s : State) {r r' : PReg} (f : Poly) (h : r' ≠ r) :
    (s.writePoly r f).poly r' = s.poly r' := by
  simp [writePoly_poly, h]

@[simp] theorem writePoly_cache (s : State) (r : PReg) (f : Poly) (k : CReg) :
    (s.writePoly r f).cache k = Cache.drop r (s.cache k) := by
  simp [State.cache, State.writePoly]

@[simp] theorem drop_data (r : PReg) (c : Cache) : (Cache.drop r c).data = c.data := rfl
@[simp] theorem drop_src (r : PReg) (c : Cache) : (Cache.drop r c).src = c.src := rfl
@[simp] theorem drop_valid (r : PReg) (c : Cache) :
    (Cache.drop r c).valid = (c.valid && c.src != r) := rfl

/-! Writing a mulcache register. -/

@[simp] theorem writeCache_polys (s : State) (k : CReg) (d : Vector Lane 128) (src : PReg) :
    (s.writeCache k d src).polys = s.polys := rfl
@[simp] theorem writeCache_buf (s : State) (k : CReg) (d : Vector Lane 128) (src : PReg) :
    (s.writeCache k d src).buf = s.buf := rfl
@[simp] theorem writeCache_cmd (s : State) (k : CReg) (d : Vector Lane 128) (src : PReg) :
    (s.writeCache k d src).cmd = s.cmd := rfl
@[simp] theorem writeCache_busy (s : State) (k : CReg) (d : Vector Lane 128) (src : PReg) :
    (s.writeCache k d src).busy = s.busy := rfl
@[simp] theorem writeCache_fault (s : State) (k : CReg) (d : Vector Lane 128) (src : PReg) :
    (s.writeCache k d src).fault = s.fault := rfl
@[simp] theorem writeCache_fcause (s : State) (k : CReg) (d : Vector Lane 128) (src : PReg) :
    (s.writeCache k d src).fcause = s.fcause := rfl
@[simp] theorem writeCache_host (s : State) (k : CReg) (d : Vector Lane 128) (src : PReg) :
    (s.writeCache k d src).host = s.host := rfl
@[simp] theorem writeCache_answer (s : State) (k : CReg) (d : Vector Lane 128) (src : PReg) :
    (s.writeCache k d src).answer = s.answer := rfl
@[simp] theorem writeCache_poly (s : State) (k : CReg) (d : Vector Lane 128) (src r : PReg) :
    (s.writeCache k d src).poly r = s.poly r := rfl

theorem writeCache_cache (s : State) (k k' : CReg) (d : Vector Lane 128) (src : PReg) :
    (s.writeCache k d src).cache k' =
      if k' = k then { data := d, valid := true, src := src } else s.cache k' := by
  simp only [State.cache, State.writeCache, Vector.getElem_set, Fin.ext_iff, eq_comm (a := k.val)]

@[simp] theorem writeCache_cache_self (s : State) (k : CReg) (d : Vector Lane 128) (src : PReg) :
    (s.writeCache k d src).cache k = { data := d, valid := true, src := src } := by
  simp [writeCache_cache]

theorem writeCache_cache_ne (s : State) {k k' : CReg} (d : Vector Lane 128) (src : PReg) (h : k' ≠ k) :
    (s.writeCache k d src).cache k' = s.cache k' := by
  simp [writeCache_cache, h]

/-! Writing the buffer. -/

@[simp] theorem writeBuf_polys (s : State) (off : Nat) (l : List Byte) :
    (s.writeBuf off l).polys = s.polys := rfl
@[simp] theorem writeBuf_caches (s : State) (off : Nat) (l : List Byte) :
    (s.writeBuf off l).caches = s.caches := rfl
@[simp] theorem writeBuf_buf (s : State) (off : Nat) (l : List Byte) :
    (s.writeBuf off l).buf = memWrite s.buf off l := rfl
@[simp] theorem writeBuf_cmd (s : State) (off : Nat) (l : List Byte) : (s.writeBuf off l).cmd = s.cmd := rfl
@[simp] theorem writeBuf_busy (s : State) (off : Nat) (l : List Byte) :
    (s.writeBuf off l).busy = s.busy := rfl
@[simp] theorem writeBuf_fault (s : State) (off : Nat) (l : List Byte) :
    (s.writeBuf off l).fault = s.fault := rfl
@[simp] theorem writeBuf_fcause (s : State) (off : Nat) (l : List Byte) :
    (s.writeBuf off l).fcause = s.fcause := rfl
@[simp] theorem writeBuf_host (s : State) (off : Nat) (l : List Byte) :
    (s.writeBuf off l).host = s.host := rfl
@[simp] theorem writeBuf_answer (s : State) (off : Nat) (l : List Byte) :
    (s.writeBuf off l).answer = s.answer := rfl
@[simp] theorem writeBuf_poly (s : State) (off : Nat) (l : List Byte) (r : PReg) :
    (s.writeBuf off l).poly r = s.poly r := rfl
@[simp] theorem writeBuf_cache (s : State) (off : Nat) (l : List Byte) (k : CReg) :
    (s.writeBuf off l).cache k = s.cache k := rfl

/-! Writing a quad: the four registers, and the caches of all four (R91, R25). -/

@[simp] theorem writeQuad_buf (s : State) (r : PReg) (f0 f1 f2 f3 : Poly) :
    (s.writeQuad r f0 f1 f2 f3).buf = s.buf := rfl
@[simp] theorem writeQuad_cmd (s : State) (r : PReg) (f0 f1 f2 f3 : Poly) :
    (s.writeQuad r f0 f1 f2 f3).cmd = s.cmd := rfl
@[simp] theorem writeQuad_busy (s : State) (r : PReg) (f0 f1 f2 f3 : Poly) :
    (s.writeQuad r f0 f1 f2 f3).busy = s.busy := rfl
@[simp] theorem writeQuad_fault (s : State) (r : PReg) (f0 f1 f2 f3 : Poly) :
    (s.writeQuad r f0 f1 f2 f3).fault = s.fault := rfl
@[simp] theorem writeQuad_fcause (s : State) (r : PReg) (f0 f1 f2 f3 : Poly) :
    (s.writeQuad r f0 f1 f2 f3).fcause = s.fcause := rfl
@[simp] theorem writeQuad_host (s : State) (r : PReg) (f0 f1 f2 f3 : Poly) :
    (s.writeQuad r f0 f1 f2 f3).host = s.host := rfl
@[simp] theorem writeQuad_answer (s : State) (r : PReg) (f0 f1 f2 f3 : Poly) :
    (s.writeQuad r f0 f1 f2 f3).answer = s.answer := rfl

theorem writeQuad_poly (s : State) (r r' : PReg) (f0 f1 f2 f3 : Poly) :
    (s.writeQuad r f0 f1 f2 f3).poly r' =
      if r' = r + 3 then f3 else if r' = r + 2 then f2 else if r' = r + 1 then f1
      else if r' = r then f0 else s.poly r' := by
  simp [State.writeQuad, writePoly_poly]

theorem writeQuad_cache (s : State) (r : PReg) (f0 f1 f2 f3 : Poly) (k : CReg) :
    (s.writeQuad r f0 f1 f2 f3).cache k =
      Cache.drop (r + 3) (Cache.drop (r + 2) (Cache.drop (r + 1) (Cache.drop r (s.cache k)))) := by
  simp [State.writeQuad]

/-! Clearing a fault, and reset. -/

theorem clearFault_of_fault {s : State} (h : s.fault = true) :
    s.clearFault = { s with fault := false, fcause := 0 } := by
  simp [State.clearFault, h]

theorem clearFault_of_no_fault {s : State} (h : s.fault = false) : s.clearFault = s := by
  simp [State.clearFault, h]

@[simp] theorem powerOn_polys (s : State) (l : Launch) : (s.powerOn l).polys = l.polys := rfl
@[simp] theorem powerOn_buf (s : State) (l : Launch) :
    (s.powerOn l).buf = Memory.ofBytes l.bytes.toList := rfl
@[simp] theorem powerOn_cmd (s : State) (l : Launch) : (s.powerOn l).cmd = 0 := rfl
@[simp] theorem powerOn_busy (s : State) (l : Launch) : (s.powerOn l).busy = false := rfl
@[simp] theorem powerOn_fault (s : State) (l : Launch) : (s.powerOn l).fault = false := rfl
@[simp] theorem powerOn_fcause (s : State) (l : Launch) : (s.powerOn l).fcause = 0 := rfl
@[simp] theorem powerOn_host (s : State) (l : Launch) : (s.powerOn l).host = s.host := rfl
@[simp] theorem powerOn_answer (s : State) (l : Launch) : (s.powerOn l).answer = none := rfl

@[simp] theorem powerOn_cache (s : State) (l : Launch) (k : CReg) :
    (s.powerOn l).cache k = { data := l.cacheData[k.val], valid := false, src := 0 } := by
  simp [State.cache, State.powerOn]

end Sys2Proof.Machine
end

