-- ==== Sys2Proof/Laws/Streams.lean ====
section
/-! SUPPORT. Bit streams and packed fields (spec/00_scope.md R10, spec/41_byte_codec.md R130): cutting a
stream into groups and joining fields are inverse to each other, and the bits by position. -/

namespace Sys2Proof.Machine

@[simp] theorem fieldBits_length (d x : Nat) : (fieldBits d x).length = d := by simp [fieldBits]

theorem fieldBits_getElem (d x j : Nat) (h : j < (fieldBits d x).length) :
    (fieldBits d x)[j] = x.testBit j := by simp [fieldBits]

theorem fieldBits_succ (d x : Nat) : fieldBits (d + 1) x = x.testBit 0 :: fieldBits d (x / 2) := by
  simp [fieldBits, List.range_succ_eq_map, Function.comp_def, Nat.testBit_succ]

theorem natOfBits_fieldBits (d x : Nat) : natOfBits (fieldBits d x) = x % 2 ^ d := by
  induction d generalizing x with
  | zero => simp [fieldBits, natOfBits, Nat.mod_one]
  | succ d ih =>
    rw [fieldBits_succ, natOfBits, ih, Nat.pow_succ', Nat.mod_mul]
    have : (x.testBit 0).toNat = x % 2 := by
      rw [Nat.testBit_zero]; rcases Nat.mod_two_eq_zero_or_one x with h | h <;> simp [h]
    omega

theorem natOfBits_lt (l : List Bool) : natOfBits l < 2 ^ l.length := by
  induction l with
  | nil => simp [natOfBits]
  | cons b l ih =>
    have : b.toNat ≤ 1 := Bool.toNat_le b
    simp only [natOfBits, List.length_cons, Nat.pow_succ]
    omega

theorem fieldBits_natOfBits (l : List Bool) : fieldBits l.length (natOfBits l) = l := by
  induction l with
  | nil => simp [fieldBits]
  | cons b l ih =>
    rw [List.length_cons, fieldBits_succ]
    have h1 : (natOfBits (b :: l)).testBit 0 = b := by
      rw [Nat.testBit_zero, natOfBits]; cases b <;> simp [Nat.add_mod]
    have h2 : natOfBits (b :: l) / 2 = natOfBits l := by
      rw [natOfBits]; have : b.toNat ≤ 1 := Bool.toNat_le b; omega
    rw [h1, h2, ih]

/-- Bit `j` of the number a bit list spells. -/
theorem natOfBits_testBit (l : List Bool) (j : Nat) : (natOfBits l).testBit j = l.getD j false := by
  by_cases h : j < l.length
  · have hf := fieldBits_natOfBits l
    have h' : j < (fieldBits l.length (natOfBits l)).length := by simpa using h
    have := fieldBits_getElem l.length (natOfBits l) j h'
    rw [← this, List.getD_eq_getElem _ _ h]
    exact List.getElem_of_eq hf h'
  · rw [List.getD_eq_default _ _ (by omega)]
    exact Nat.testBit_lt_two_pow (Nat.lt_of_lt_of_le (natOfBits_lt l) (Nat.pow_le_pow_right (by omega) (by omega)))

/-! Groups. -/

@[simp] theorem groups_length (d n : Nat) (l : List Bool) : (groups d n l).length = n := by
  induction n generalizing l with
  | zero => rfl
  | succ n ih => simp [groups, ih]

theorem groups_getElem (d n i : Nat) (l : List Bool) (h : i < (groups d n l).length) :
    (groups d n l)[i] = (l.drop (d * i)).take d := by
  induction n generalizing i l with
  | zero => simp at h
  | succ n ih =>
    cases i with
    | zero => simp [groups]
    | succ i =>
      have h' : i < (groups d n (l.drop d)).length := by simpa using h
      simp only [groups, List.getElem_cons_succ, ih i (l.drop d) h', List.drop_drop]
      congr 2
      ring

/-- Joining groups of `d` bits and cutting the stream again gives the groups. -/
theorem groups_flatten (d : Nat) (gs : List (List Bool)) (h : ∀ g ∈ gs, g.length = d) :
    groups d gs.length gs.flatten = gs := by
  induction gs with
  | nil => rfl
  | cons g gs ih =>
    have hg : g.length = d := h g (by simp)
    have ih' := ih fun g' hg' => h g' (by simp [hg'])
    simp only [List.length_cons, groups, List.flatten_cons]
    rw [← hg, List.take_left, List.drop_left, hg, ih']

/-- Cutting a stream of `n` groups and joining them gives the stream. -/
theorem flatten_groups (d n : Nat) (l : List Bool) (h : l.length = n * d) : (groups d n l).flatten = l := by
  induction n generalizing l with
  | zero => simp at h; simp [groups, h]
  | succ n ih =>
    have : (l.drop d).length = n * d := by
      rw [List.length_drop, h, Nat.succ_mul]; omega
    simp [groups, ih _ this]

theorem groups_mem_length {d n : Nat} {l g : List Bool} (h : l.length = n * d) (hg : g ∈ groups d n l) :
    g.length = d := by
  induction n generalizing l with
  | zero => simp [groups] at hg
  | succ n ih =>
    rw [Nat.succ_mul] at h
    simp only [groups, List.mem_cons] at hg
    rcases hg with rfl | hg
    · simp; omega
    · exact ih (by rw [List.length_drop]; omega) hg

theorem flatMap_length_const {α : Type} (f : α → List Bool) (d : Nat) (v : List α)
    (h : ∀ x ∈ v, (f x).length = d) : (v.flatMap f).length = v.length * d := by
  induction v with
  | nil => simp
  | cons a v ih =>
    rw [List.flatMap_cons, List.length_append, h a (by simp), ih fun x hx => h x (by simp [hx]),
      List.length_cons, Nat.succ_mul, Nat.add_comm]

@[simp] theorem byteBits_length (bytes : List Byte) : (byteBits bytes).length = bytes.length * 8 :=
  flatMap_length_const _ 8 bytes fun _ _ => fieldBits_length 8 _

/-- An entry of a stream of equally long pieces. -/
theorem flatMap_getD {α : Type} (f : α → List Bool) (d : Nat) (hd : 0 < d) (v : List α) (dflt : α)
    (h : ∀ x ∈ v, (f x).length = d) (k : Nat) (hk : k < v.length * d) :
    (v.flatMap f).getD k false = (f (v.getD (k / d) dflt)).getD (k % d) false := by
  induction v generalizing k with
  | nil => simp at hk
  | cons a v ih =>
    have ha : (f a).length = d := h a (by simp)
    rw [List.flatMap_cons]
    by_cases hlt : k < d
    · rw [Nat.div_eq_of_lt hlt, Nat.mod_eq_of_lt hlt, List.getD_append _ _ _ _ (by omega)]
      simp
    · rw [List.getD_append_right _ _ _ _ (by omega), ha,
        ih (fun x hx => h x (by simp [hx])) (k - d) (by rw [List.length_cons, Nat.succ_mul] at hk; omega)]
      have h1 : k / d = (k - d) / d + 1 := Nat.div_eq_sub_div hd (by omega)
      have h2 : k % d = (k - d) % d := by rw [Nat.mod_eq_sub_mod (by omega)]
      rw [h1, h2, List.getD_cons_succ]

/-- Stream bit `k` is bit `k mod 8` of byte `k / 8` (R10). -/
theorem byteBits_getD (bytes : List Byte) (k : Nat) (hk : k < bytes.length * 8) :
    (byteBits bytes).getD k false = (bytes.getD (k / 8) 0#8).getLsbD (k % 8) := by
  rw [byteBits, flatMap_getD _ 8 (by omega) bytes 0 (fun _ _ => fieldBits_length 8 _) k hk,
    List.getD_eq_getElem _ _ (by rw [fieldBits_length]; omega), fieldBits_getElem]
  rfl

/-! `pack_d` and `unpack_d`. -/

@[simp] theorem unpack_length (d : Nat) (bytes : List Byte) : (unpack d bytes).length = 256 := by
  simp [unpack]

@[simp] theorem pack_length (d : Nat) (v : List Nat) : (pack d v).length = 32 * d := by simp [pack]

theorem byteBits_map_ofBits (gs : List (List Bool)) (h : ∀ g ∈ gs, g.length = 8) :
    byteBits (gs.map fun g => BitVec.ofNat 8 (natOfBits g)) = gs.flatten := by
  induction gs with
  | nil => rfl
  | cons g gs ih =>
    have hg : g.length = 8 := h g (by simp)
    have hlt : natOfBits g < 256 := by have := natOfBits_lt g; rw [hg] at this; exact this
    have ih' := ih fun g' hg' => h g' (by simp [hg'])
    simp only [byteBits, List.map_cons, List.flatMap_cons, List.flatten_cons] at ih' ⊢
    rw [ih', BitVec.toNat_ofNat, Nat.mod_eq_of_lt hlt]
    have := fieldBits_natOfBits g
    rw [hg] at this
    rw [this]

/-- The bit stream of packed fields is the concatenation of the fields (R130). -/
theorem byteBits_pack (d : Nat) (v : List Nat) (hv : v.length = 256) :
    byteBits (pack d v) = v.flatMap (fieldBits d) := by
  have hlen : (v.flatMap (fieldBits d)).length = 32 * d * 8 := by
    rw [flatMap_length_const _ d v (fun _ _ => fieldBits_length d _), hv]; ring
  rw [pack, byteBits_map_ofBits _ fun g hg => groups_mem_length hlen hg, flatten_groups 8 (32 * d) _ hlen]

/-- `bit(pack_d(v), i*d + j) = v[i][j]` (R130). -/
theorem pack_bit (d : Nat) (v : List Nat) (hv : v.length = 256) (i j : Nat) (hi : i < 256) (hj : j < d) :
    streamBit (pack d v) (i * d + j) = (v.getD i 0).testBit j := by
  unfold streamBit
  have hk : i * d + j < 256 * d := by
    have : i * d + d ≤ 256 * d := by rw [← Nat.succ_mul]; exact Nat.mul_le_mul_right d hi
    omega
  rw [← byteBits_getD _ _ (by rw [pack_length]; omega), byteBits_pack d v hv,
    flatMap_getD _ d (by omega) v 0 (fun _ _ => fieldBits_length d _) _ (by rw [hv]; omega)]
  have h1 : (i * d + j) / d = i := by
    rw [Nat.add_comm, Nat.add_mul_div_right _ _ (by omega), Nat.div_eq_of_lt hj]; omega
  have h2 : (i * d + j) % d = j := by
    rw [Nat.add_comm, Nat.add_mul_mod_self_right, Nat.mod_eq_of_lt hj]
  rw [h1, h2, List.getD_eq_getElem _ _ (by simpa using hj), fieldBits_getElem]

/-- `unpack_d(pack_d(v)) = v` (R130). -/
theorem unpack_pack (d : Nat) (v : List Nat) (hv : v.length = 256) (hlt : ∀ x ∈ v, x < 2 ^ d) :
    unpack d (pack d v) = v := by
  rw [unpack, byteBits_pack d v hv]
  have hg : groups d 256 (v.flatMap (fieldBits d)) = v.map (fieldBits d) := by
    have := groups_flatten d (v.map (fieldBits d)) (by simp)
    rwa [List.length_map, hv, ← List.flatMap_def] at this
  rw [hg, List.map_map]
  conv_rhs => rw [← List.map_id v]
  apply List.map_congr_left
  intro x hx
  simp [natOfBits_fieldBits, Nat.mod_eq_of_lt (hlt x hx)]

/-- `pack_d(unpack_d(B)) = B` (R130). -/
theorem pack_unpack (d : Nat) (bytes : List Byte) (h : bytes.length = 32 * d) :
    pack d (unpack d bytes) = bytes := by
  have hlen : (byteBits bytes).length = 256 * d := by rw [byteBits_length, h]; ring
  have h1 : (unpack d bytes).flatMap (fieldBits d) = byteBits bytes := by
    rw [unpack, List.flatMap_map]
    conv_rhs => rw [← flatten_groups d 256 _ hlen]
    rw [List.flatMap_def]
    congr 1
    conv_rhs => rw [← List.map_id (groups d 256 (byteBits bytes))]
    apply List.map_congr_left
    intro g hg
    have := fieldBits_natOfBits g
    rw [groups_mem_length hlen hg] at this
    simpa using this
  rw [pack, h1]
  have h2 : groups 8 (32 * d) (byteBits bytes) = bytes.map fun b => fieldBits 8 b.toNat := by
    have := groups_flatten 8 (bytes.map fun b => fieldBits 8 b.toNat) (by simp)
    rwa [List.length_map, h, ← List.flatMap_def] at this
  rw [h2, List.map_map]
  conv_rhs => rw [← List.map_id bytes]
  apply List.map_congr_left
  intro b _
  have : b.toNat < 256 := b.isLt
  simp [natOfBits_fieldBits, Nat.mod_eq_of_lt this]

theorem unpack_lt {d : Nat} {bytes : List Byte} (h : bytes.length = 32 * d) {x : Nat}
    (hx : x ∈ unpack d bytes) : x < 2 ^ d := by
  have hlen : (byteBits bytes).length = 256 * d := by rw [byteBits_length, h]; ring
  simp only [unpack, List.mem_map] at hx
  obtain ⟨g, hg, rfl⟩ := hx
  have := natOfBits_lt g
  rwa [groups_mem_length hlen hg] at this

/-- A group of stream bits of a byte sequence, by position. -/
theorem byteGroup_getD (d n i j : Nat) (bytes : List Byte) (h : bytes.length * 8 = n * d) (hi : i < n)
    (hj : j < d) :
    ((groups d n (byteBits bytes))[i]'(by simpa using hi)).getD j false =
      (bytes.getD ((d * i + j) / 8) 0#8).getLsbD ((d * i + j) % 8) := by
  have hk : d * i + j < bytes.length * 8 := by
    have : i * d + d ≤ n * d := by rw [← Nat.succ_mul]; exact Nat.mul_le_mul_right d hi
    rw [h, Nat.mul_comm]; omega
  rw [groups_getElem, ← byteBits_getD _ _ hk, List.getD_eq_getElem?_getD, List.getD_eq_getElem?_getD,
    List.getElem?_take_of_lt hj, List.getElem?_drop]

/-- `unpack_d(B)[i]` has bit `j` equal to stream bit `i*d + j` of `B` (R130). -/
theorem unpack_bit (d i j : Nat) (bytes : List Byte) (h : bytes.length = 32 * d) (hi : i < 256) (hj : j < d) :
    ((unpack d bytes).getD i 0).testBit j = streamBit bytes (i * d + j) := by
  unfold streamBit
  rw [List.getD_eq_getElem _ _ (by simpa using hi)]
  simp only [unpack, List.getElem_map]
  rw [natOfBits_testBit, byteGroup_getD d 256 i j bytes (by omega) hi hj, Nat.mul_comm d i]

theorem natOfBits_eq_sum (l : List Bool) :
    natOfBits l = ∑ j ∈ Finset.range l.length, (l.getD j false).toNat * 2 ^ j := by
  induction l with
  | nil => rfl
  | cons b l ih =>
    rw [natOfBits, ih, List.length_cons, Finset.sum_range_succ', Finset.mul_sum, Nat.add_comm]
    simp only [List.getD_cons_succ, List.getD_cons_zero, Nat.pow_zero, Nat.mul_one, Nat.add_right_cancel_iff]
    exact Finset.sum_congr rfl fun j _ => by ring

/-- `unpack_d(B)[i]` as R130 writes it. -/
theorem unpack_eq_sum {d i : Nat} {bytes : List Byte} (h : bytes.length = 32 * d) (hi : i < 256) :
    (unpack d bytes).getD i 0 = ∑ j ∈ Finset.range d, (streamBit bytes (i * d + j)).toNat * 2 ^ j := by
  have hlen : ((groups d 256 (byteBits bytes))[i]'(by simpa using hi)).length = d :=
    groups_mem_length (n := 256) (by rw [byteBits_length]; omega) (List.getElem_mem _)
  rw [List.getD_eq_getElem _ _ (by simpa using hi)]
  simp only [unpack, List.getElem_map]
  rw [natOfBits_eq_sum, hlen]
  apply Finset.sum_congr rfl
  intro j hj
  rw [Finset.mem_range] at hj
  rw [byteGroup_getD d 256 i j bytes (by omega) hi hj, Nat.mul_comm d i]
  rfl

/-- Bit sequences of bytes determine the bytes. -/
theorem byteBits_injective {b b' : List Byte} (hl : b.length = b'.length)
    (h : ∀ k, k < b.length * 8 → streamBit b k = streamBit b' k) : b = b' := by
  have e : byteBits b = byteBits b' := by
    apply List.ext_getElem (by simp [hl])
    intro k h1 h2
    have hk : k < b.length * 8 := by simpa using h1
    have e1 := byteBits_getD b k hk
    have e2 := byteBits_getD b' k (by omega)
    rw [List.getD_eq_getElem _ _ h1] at e1
    rw [List.getD_eq_getElem _ _ h2] at e2
    rw [e1, e2]
    exact h k hk
  apply List.ext_getElem hl
  intro i h1 h2
  apply BitVec.eq_of_getLsbD_eq
  intro j hj
  have := h (8 * i + j) (by omega)
  unfold streamBit at this
  have e1 : (8 * i + j) / 8 = i := by omega
  have e2 : (8 * i + j) % 8 = j := by omega
  rwa [e1, e2, List.getD_eq_getElem _ _ h1, List.getD_eq_getElem _ _ h2] at this

end Sys2Proof.Machine
end

