-- ==== Sys2Proof/Laws/Exec.lean ====
section
/-! SUPPORT. What a command can do to the state, said once: the engine's checks by the condition they
test, and the shapes of a command's result (spec/20_memory.md R60, spec/60_exceptions.md R251,
R259). -/

namespace Sys2Proof.Machine

/-! The checks. -/

theorem checkQuad_pos {r : PReg} (h : isQuad r = true) (s : State) (k : Result) : checkQuad r s k = k := by
  simp [checkQuad, h]

theorem checkQuad_neg {r : PReg} (h : isQuad r = false) (s : State) (k : Result) :
    checkQuad r s k = raise .illegalField s := by simp [checkQuad, h]

theorem isQuad_iff (r : PReg) : isQuad r = true ↔ r = 0 ∨ r = 4 := by simp [isQuad]

theorem checkRegion_pos {off : Offset} {len : Nat} (h : off.toNat + len ≤ 2048) (s : State) (k : Result) :
    checkRegion off len s k = k := if_pos h

theorem checkRegion_neg {off : Offset} {len : Nat} (h : 2048 < off.toNat + len) (s : State) (k : Result) :
    checkRegion off len s k = raise .bufRange s := if_neg (by unfold Config.bufSize; omega)

theorem checkTag_pos {cc : CReg} {rb : PReg} {s : State} (hv : (s.cache cc).valid = true)
    (hs : (s.cache cc).src = rb) (k : Result) : checkTag cc rb s k = k := by
  simp [checkTag, hv, hs]

theorem checkTag_neg {cc : CReg} {rb : PReg} {s : State}
    (h : ¬((s.cache cc).valid = true ∧ (s.cache cc).src = rb)) (k : Result) :
    checkTag cc rb s k = raise .cacheInvalid s := by
  have : ((s.cache cc).valid && (s.cache cc).src == rb) = false := by
    rw [Bool.eq_false_iff]; simpa using h
  simp [checkTag, this]

/-- Every lane of the register is in the canonical signed range (R256). -/
def Canonical (f : Poly) : Prop := ∀ i, i < 256 → -3328 ≤ lane f i ∧ lane f i ≤ 3328

theorem all_canonical_iff (f : Poly) : (lanes f).all isCanonical = true ↔ Canonical f := by
  rw [all_lanes_iff]; simp [Canonical]

theorem checkCanonical_pos {r : PReg} {s : State} (h : Canonical (s.poly r)) (k : Result) :
    checkCanonical r s k = k := by
  simp only [checkCanonical, if_pos ((all_canonical_iff _).mpr h)]

theorem checkCanonical_neg {r : PReg} {s : State} (h : ¬Canonical (s.poly r)) (k : Result) :
    checkCanonical r s k = raise .coeffRange s := by
  simp only [checkCanonical, if_neg (fun h' => h ((all_canonical_iff _).mp h'))]

/-- Every integer of the sequence is an int16 (R258). -/
def FitsAll (l : List Int) : Prop := ∀ i, i < l.length → -32768 ≤ l.getD i 0 ∧ l.getD i 0 ≤ 32767

theorem all_fits_iff (l : List Int) : l.all fitsInt16 = true ↔ FitsAll l := by
  rw [all_getD_iff]; simp [FitsAll]

theorem checkFits_pos {l : List Int} (h : FitsAll l) (s : State) (k : Result) : checkFits l s k = k := by
  simp only [checkFits, if_pos ((all_fits_iff _).mpr h)]

theorem checkFits_neg {l : List Int} (h : ¬FitsAll l) (s : State) (k : Result) :
    checkFits l s k = raise .overflow s := by
  simp only [checkFits, if_neg (fun h' => h ((all_fits_iff _).mp h'))]

theorem checkResidues_pos {v : List Nat} (h : ∀ x ∈ v, x ≤ 3328) (s : State) (k : Result) :
    checkResidues v s k = k := if_pos (by simpa using h)

theorem checkResidues_neg {v : List Nat} (h : ¬∀ x ∈ v, x ≤ 3328) (s : State) (k : Result) :
    checkResidues v s k = raise .decodeRange s := if_neg (by simpa using h)

/-! Sequences of lanes. -/

/-- A lane of a sequence made lane by lane from a register. -/
theorem map_lanes_getD {n i : Nat} (v : Vector Lane n) (f : Int → Int) (hi : i < n) :
    ((lanes v).map f).getD i 0 = f (lane v i) := by
  rw [List.getD_eq_getElem _ _ (by simpa using hi), List.getElem_map, lanes_getElem]

theorem zipWith_lanes_getD {n i : Nat} (v w : Vector Lane n) (f : Int → Int → Int) (hi : i < n) :
    (List.zipWith f (lanes v) (lanes w)).getD i 0 = f (lane v i) (lane w i) := by
  rw [List.getD_eq_getElem _ _ (by simpa using hi), List.getElem_zipWith, lanes_getElem, lanes_getElem]

theorem zipWith_getD {i : Nat} (v : Poly) {r : List Int} (hr : r.length = 256) (f : Int → Int → Int) (hi : i < 256) :
    (List.zipWith f (lanes v) r).getD i 0 = f (lane v i) (r.getD i 0) := by
  rw [List.getD_eq_getElem _ _ (by simp [hr, hi]), List.getElem_zipWith, lanes_getElem,
    List.getD_eq_getElem _ _ (by omega)]

theorem map_nat_getD {i : Nat} (v : List Nat) (f : Nat → Int) (hi : i < v.length) :
    (v.map f).getD i 0 = f (v.getD i 0) := by
  rw [List.getD_eq_getElem _ _ (by simpa using hi), List.getElem_map, List.getD_eq_getElem _ _ hi]

/-- A field of the fields packed from a register. -/
theorem map_lanes_nat_getD {n i : Nat} (v : Vector Lane n) (f : Int → Nat) (hi : i < n) :
    ((lanes v).map f).getD i 0 = f (lane v i) := by
  rw [List.getD_eq_getElem _ _ (by simpa using hi), List.getElem_map, lanes_getElem]

/-! The shapes of a result. -/

/-- The polynomial register a command writes, if it writes one. -/
def polyDest : Instr → Option PReg
  | .add rd _ _ | .sub rd _ _ | .reduce rd | .touns rd | .tomont rd | .ntt rd | .intt rd | .basemul rd _ _ _
  | .basemulacc rd _ _ _ => some rd
  | .frombytes r _ | .frommsg r _ | .decompress4 r _ | .decompress5 r _ | .decompress10 r _
  | .decompress11 r _ | .cbd2 r _ | .cbd3 r _ | .getnoise2 r _ | .getnoise3 r _ => some r
  | _ => none

/-- The first register of the quad a 4-way command writes. -/
def quadDest : Instr → Option PReg
  | .getnoise4x2 r _ | .getnoise4x3 r _ | .getnoise4xmix r _ => some r
  | _ => none

/-- The region of `BUF` a command writes: offset and length. -/
def bufDest : Instr → Option (Nat × Nat)
  | .tobytes _ off => some (off.toNat, 384)
  | .tomsg _ off => some (off.toNat, 32)
  | .compress4 _ off => some (off.toNat, 128)
  | .compress5 _ off => some (off.toNat, 160)
  | .compress10 _ off => some (off.toNat, 320)
  | .compress11 _ off => some (off.toNat, 352)
  | _ => none

/-- What command `i` started in `s` can leave: the fault record, or the one kind of write it has, with
`BUSY` cleared. -/
inductive Effect (i : Instr) (s : State) : State → Prop where
  | fault (c : Cause) : Effect i s (s.takeFault c)
  | poly (r : PReg) (f : Poly) (h : polyDest i = some r) : Effect i s (s.writePoly r f).finish
  | quad (r : PReg) (f0 f1 f2 f3 : Poly) (h : quadDest i = some r) (hq : isQuad r = true) :
      Effect i s (s.writeQuad r f0 f1 f2 f3).finish
  | cache (k : CReg) (r : PReg) (h : i = .mulcache k r) :
      Effect i s (s.writeCache k (ofLanes 128 (mulcacheFn (lanes (s.poly r)))) r).finish
  | buf (off : Nat) (bytes : List Byte) (h : bufDest i = some (off, bytes.length))
      (hb : off + bytes.length ≤ 2048) : Effect i s (s.writeBuf off bytes).finish

/-- A result of command `i` that is a next state with one of its effects. -/
def Lawful (i : Instr) (s : State) (r : Result) : Prop := ∃ t, r = .next t ∧ Effect i s t

theorem lawful_raise (i : Instr) (c : Cause) (s : State) : Lawful i s (raise c s) := ⟨_, rfl, .fault c⟩

theorem lawful_completePoly {i : Instr} {r : PReg} (h : polyDest i = some r) (f : List Int) (s : State) :
    Lawful i s (completePoly r f s) := ⟨_, rfl, .poly r _ h⟩

theorem lawful_checkQuad {i : Instr} {r : PReg} {s : State} {k : Result} (h : isQuad r = true → Lawful i s k) :
    Lawful i s (checkQuad r s k) := by
  unfold checkQuad; split
  · exact h ‹_›
  · exact lawful_raise i _ s

theorem lawful_checkRegion {i : Instr} {off : Offset} {len : Nat} {s : State} {k : Result} (h : off.toNat + len ≤ 2048 → Lawful i s k) :
    Lawful i s (checkRegion off len s k) := by
  unfold checkRegion; split
  · exact h ‹_›
  · exact lawful_raise i _ s

theorem lawful_checkTag {i : Instr} {cc : CReg} {rb : PReg} {s : State} {k : Result} (h : Lawful i s k) :
    Lawful i s (checkTag cc rb s k) := by
  unfold checkTag; split
  · exact h
  · exact lawful_raise i _ s

theorem lawful_checkCanonical {i : Instr} {r : PReg} {s : State} {k : Result} (h : Lawful i s k) :
    Lawful i s (checkCanonical r s k) := by
  unfold checkCanonical; split
  · exact h
  · exact lawful_raise i _ s

theorem lawful_checkFits {i : Instr} {l : List Int} {s : State} {k : Result} (h : Lawful i s k) :
    Lawful i s (checkFits l s k) := by
  unfold checkFits; split
  · exact h
  · exact lawful_raise i _ s

theorem lawful_checkResidues {i : Instr} {v : List Nat} {s : State} {k : Result} (h : Lawful i s k) :
    Lawful i s (checkResidues v s k) := by
  unfold checkResidues; split
  · exact h
  · exact lawful_raise i _ s

theorem lawful_encodeTo {i : Instr} {d : Nat} {off : Offset} (h : bufDest i = some (off.toNat, 32 * d))
    (field : Int → Int) (r : PReg) (s : State) : Lawful i s (encodeTo d field r off s) :=
  lawful_checkRegion fun hr => lawful_checkCanonical ⟨_, rfl, .buf _ _ (by simpa using h) (by simpa using hr)⟩

theorem lawful_decompressFrom {i : Instr} {r : PReg} (h : polyDest i = some r) (d : Nat) (off : Offset) (s : State) :
    Lawful i s (decompressFrom d r off s) :=
  lawful_checkRegion fun _ => lawful_completePoly h _ s

theorem lawful_cbdFrom {i : Instr} {r : PReg} (h : polyDest i = some r) (eta : Nat) (off : Offset) (s : State) :
    Lawful i s (cbdFrom eta r off s) :=
  lawful_checkRegion fun _ => lawful_completePoly h _ s

theorem lawful_noiseFrom {i : Instr} {r : PReg} (h : polyDest i = some r) (xof : Sponge) (eta : Nat) (off : Offset)
    (s : State) : Lawful i s (noiseFrom xof eta r off s) :=
  lawful_checkRegion fun _ => lawful_completePoly h _ s

theorem lawful_noiseQuad {i : Instr} {r : PReg} (h : quadDest i = some r) (xof : Sponge) (e0 e1 e2 e3 : Nat)
    (off : Offset) (s : State) : Lawful i s (noiseQuad xof e0 e1 e2 e3 r off s) :=
  lawful_checkQuad fun hq => lawful_checkRegion fun _ => ⟨_, rfl, .quad r _ _ _ _ h hq⟩

/-- Every command ends in a next state with one of its effects (R60): none stops the machine. -/
theorem exec_lawful (i : Instr) (s : State) : Lawful i s (exec i s) := by
  cases i with
  | add rd ra rb => exact lawful_checkFits (lawful_completePoly rfl _ s)
  | sub rd ra rb => exact lawful_checkFits (lawful_completePoly rfl _ s)
  | reduce rd => exact lawful_completePoly rfl _ s
  | touns rd => exact lawful_checkCanonical (lawful_completePoly rfl _ s)
  | tomont rd => exact lawful_completePoly rfl _ s
  | ntt rd => exact lawful_checkCanonical (lawful_completePoly rfl _ s)
  | intt rd => exact lawful_completePoly rfl _ s
  | mulcache cd ra => exact ⟨_, rfl, .cache cd ra rfl⟩
  | basemul rd ra rb cc =>
    simp only [exec, execBasemul]
    generalize cachedProduct ra rb cc s = p
    exact lawful_checkTag (lawful_checkFits (lawful_completePoly rfl _ s))
  | basemulacc rd ra rb cc =>
    simp only [exec, execBasemulacc]
    generalize cachedProduct ra rb cc s = p
    exact lawful_checkTag (lawful_checkFits (lawful_checkFits (lawful_completePoly rfl _ s)))
  | frombytes r off =>
    unfold exec execFrombytes
    exact lawful_checkRegion fun _ => lawful_checkResidues (lawful_completePoly rfl _ s)
  | frommsg r off => unfold exec execFrommsg; exact lawful_checkRegion fun _ => lawful_completePoly rfl _ s
  | tobytes r off => unfold exec execTobytes; exact lawful_encodeTo rfl _ r s
  | tomsg r off => unfold exec execTomsg; exact lawful_encodeTo rfl _ r s
  | compress4 r off => unfold exec execCompress4; exact lawful_encodeTo rfl _ r s
  | compress5 r off => unfold exec execCompress5; exact lawful_encodeTo rfl _ r s
  | compress10 r off => unfold exec execCompress10; exact lawful_encodeTo rfl _ r s
  | compress11 r off => unfold exec execCompress11; exact lawful_encodeTo rfl _ r s
  | decompress4 r off => unfold exec execDecompress4; exact lawful_decompressFrom rfl _ off s
  | decompress5 r off => unfold exec execDecompress5; exact lawful_decompressFrom rfl _ off s
  | decompress10 r off => unfold exec execDecompress10; exact lawful_decompressFrom rfl _ off s
  | decompress11 r off => unfold exec execDecompress11; exact lawful_decompressFrom rfl _ off s
  | cbd2 r off => unfold exec execCbd2; exact lawful_cbdFrom rfl _ off s
  | cbd3 r off => unfold exec execCbd3; exact lawful_cbdFrom rfl _ off s
  | getnoise2 r off => unfold exec execGetnoise2; exact lawful_noiseFrom rfl _ _ off s
  | getnoise3 r off => unfold exec execGetnoise3; exact lawful_noiseFrom rfl _ _ off s
  | getnoise4x2 r off => unfold exec execGetnoise4x2; exact lawful_noiseQuad rfl _ _ _ _ _ off s
  | getnoise4x3 r off => unfold exec execGetnoise4x3; exact lawful_noiseQuad rfl _ _ _ _ _ off s
  | getnoise4xmix r off => unfold exec execGetnoise4xmix; exact lawful_noiseQuad rfl _ _ _ _ _ off s

/-- What a command that answers `t` has done. -/
theorem exec_effect {i : Instr} {s t : State} (h : exec i s = .next t) : Effect i s t := by
  obtain ⟨t', h1, h2⟩ := exec_lawful i s
  rw [h] at h1
  injection h1 with h1
  exact h1 ▸ h2

/-- What no command touches, whatever it does. -/
theorem Effect.keeps {i : Instr} {s t : State} (h : Effect i s t) :
    t.cmd = s.cmd ∧ t.busy = false ∧ t.host = s.host ∧ t.answer = s.answer := by
  cases h <;> exact ⟨rfl, rfl, rfl, rfl⟩

theorem Effect.wf {i : Instr} {s t : State} (h : Effect i s t) (hs : Memory.wf s.buf = true) :
    Memory.wf t.buf = true := by
  cases h with
  | fault c => exact hs
  | poly r f h => exact hs
  | quad r f0 f1 f2 f3 h hq => exact hs
  | cache k r h => exact hs
  | buf off bytes h hb => exact wf_memWrite hs hb

end Sys2Proof.Machine
end

