-- ==== Sys2Proof/Laws/Layers.lean ====
section
/-! SUPPORT. The loops of the transforms, lane by lane: what one layer of R195 and of R199 does to every
lane, from which the bounds and the meaning of the transforms follow without unfolding a loop again. -/

namespace Sys2Proof.Machine

theorem getD_set (l : List Int) (i j : Nat) (a : Int) (h : i < l.length) :
    (l.set i a).getD j 0 = if j = i then a else l.getD j 0 := by
  simp only [List.getD_eq_getElem?_getD, List.getElem?_set, eq_comm (a := i), h]
  split <;> simp

/-- A loop body that replaces the pair of lanes `j`, `j+len` by `F` and `G` of their old values and
leaves every other lane. -/
def PairBody (body : List Int → Nat → List Int) (len : Nat) (F G : Int → Int → Int) : Prop :=
  ∀ r j, j + len < r.length → (body r j).length = r.length ∧
    ∀ i, (body r j).getD i 0 =
      if i = j then F (r.getD j 0) (r.getD (j + len) 0)
      else if i = j + len then G (r.getD j 0) (r.getD (j + len) 0)
      else r.getD i 0

theorem nttButterfly_pair {len : Nat} (hlen : 0 < len) (z : Int) :
    PairBody (nttButterfly len z) len (fun x y => x + fqmul y z) (fun x y => x - fqmul y z) := by
  intro r j h
  refine ⟨by simp [nttButterfly], fun i => ?_⟩
  unfold nttButterfly
  dsimp only
  rw [getD_set _ _ _ _ (by simp; omega), getD_set _ _ _ _ h]

theorem inttButterfly_pair {len : Nat} (hlen : 0 < len) (z : Int) :
    PairBody (inttButterfly len z) len (fun x y => cmod (x + y)) (fun x y => fqmul (y - x) z) := by
  intro r j h
  refine ⟨by simp [inttButterfly], fun i => ?_⟩
  unfold inttButterfly
  dsimp only
  rw [getD_set _ _ _ _ (by simp; omega), getD_set _ _ _ _ (by omega)]
  by_cases h1 : i = j
  · rw [if_neg (by omega), if_pos h1, if_pos h1]
  · by_cases h2 : i = j + len <;> simp [h1, h2]
    omega

/-- The loop over the first `n` pairs of a block. -/
theorem pairs_getD {body : List Int → Nat → List Int} {len : Nat} {F G : Int → Int → Int}
    (hb : PairBody body len F G) (start n : Nat) (r : List Int) (hn : n ≤ len)
    (hr : start + len + n ≤ r.length) :
    ((List.range' start n).foldl body r).length = r.length ∧
    ∀ i, ((List.range' start n).foldl body r).getD i 0 =
      if start ≤ i ∧ i < start + n then F (r.getD i 0) (r.getD (i + len) 0)
      else if start + len ≤ i ∧ i < start + len + n then G (r.getD (i - len) 0) (r.getD i 0)
      else r.getD i 0 := by
  induction n with
  | zero =>
    refine ⟨rfl, fun i => ?_⟩
    rw [if_neg (by omega), if_neg (by omega)]; rfl
  | succ n ih =>
    obtain ⟨hl, hg⟩ := ih (by omega) (by omega)
    rw [List.range'_1_concat, List.foldl_append]
    simp only [List.foldl_cons, List.foldl_nil]
    obtain ⟨hl', hg'⟩ := hb ((List.range' start n).foldl body r) (start + n) (by omega)
    refine ⟨by omega, fun i => ?_⟩
    have e1 := hg (start + n)
    rw [if_neg (by omega), if_neg (by omega)] at e1
    have e2 := hg (start + n + len)
    rw [if_neg (by omega), if_neg (by omega)] at e2
    rw [hg' i, e1, e2]
    by_cases h1 : i = start + n
    · subst h1; rw [if_pos rfl, if_pos (by omega)]
    · rw [if_neg h1]
      by_cases h2 : i = start + n + len
      · subst h2
        rw [if_pos rfl, if_neg (by omega), if_pos (by omega), Nat.add_sub_cancel]
      · have c1 : (start ≤ i ∧ i < start + (n + 1)) ↔ (start ≤ i ∧ i < start + n) := by omega
        have c2 : (start + len ≤ i ∧ i < start + len + (n + 1)) ↔
            (start + len ≤ i ∧ i < start + len + n) := by omega
        rw [if_neg h2, hg i]
        simp only [c1, c2]

/-- What a layer does to lane `i` of `r` when block `b` of it uses the factor `z b`. -/
def layerLane (F G : Int → Int → Int → Int) (len : Nat) (z : Nat → Int) (r : List Int) (i : Nat) : Int :=
  if i % (2 * len) < len then F (z (i / (2 * len))) (r.getD i 0) (r.getD (i + len) 0)
  else G (z (i / (2 * len))) (r.getD (i - len) 0) (r.getD i 0)

/-- The loop over the first `m` blocks of a layer. -/
theorem blocks_getD {body : Nat → Int → List Int → Nat → List Int} {len : Nat} (hlen : 0 < len)
    {F G : Int → Int → Int → Int} (hb : ∀ z, PairBody (body len z) len (F z) (G z)) (next : Nat → Nat)
    (m : Nat) (r : List Int) (k : Nat) (hr : m * (2 * len) ≤ r.length) :
    let res := (List.range' 0 m (2 * len)).foldl
      (fun (rk : List Int × Nat) start => (overBlock body len start (zeta rk.2) rk.1, next rk.2)) (r, k)
    res.2 = next^[m] k ∧ res.1.length = r.length ∧
    ∀ i, res.1.getD i 0 =
      if i < m * (2 * len) then layerLane F G len (fun b => zeta (next^[b] k)) r i else r.getD i 0 := by
  induction m with
  | zero => exact ⟨rfl, rfl, fun i => by rw [if_neg (by omega)]; rfl⟩
  | succ m ih =>
    have hm : (m + 1) * (2 * len) = m * (2 * len) + 2 * len := by ring
    obtain ⟨h2, hl, hg⟩ := ih (by omega)
    have hr' : List.range' 0 (m + 1) (2 * len) = List.range' 0 m (2 * len) ++ [m * (2 * len)] := by
      rw [List.range'_concat]; simp [Nat.mul_comm]
    dsimp only at h2 hl hg ⊢
    rw [hr', List.foldl_append]
    generalize (List.range' 0 m (2 * len)).foldl
      (fun (rk : List Int × Nat) start => (overBlock body len start (zeta rk.2) rk.1, next rk.2)) (r, k)
      = rk at h2 hl hg ⊢
    obtain ⟨r1, k1⟩ := rk
    simp only [List.foldl_cons, List.foldl_nil] at h2 hl hg ⊢
    subst h2
    obtain ⟨hl', hg'⟩ := pairs_getD (hb (zeta (next^[m] k))) (m * (2 * len)) len r1 le_rfl (by omega)
    refine ⟨(Function.iterate_succ_apply' next m k).symm, by rw [← hl]; exact hl', fun i => ?_⟩
    change ((List.range' (m * (2 * len)) len).foldl (body len (zeta (next^[m] k))) r1).getD i 0 = _
    rw [hg' i]
    by_cases h1 : m * (2 * len) ≤ i ∧ i < m * (2 * len) + len
    · have hd : i / (2 * len) = m := 
        Nat.div_eq_of_lt_le (by omega) (by omega)
      have hmod : i % (2 * len) = i - m * (2 * len) := by
        have := Nat.div_add_mod i (2 * len); rw [hd] at this; rw [Nat.mul_comm] at this; omega
      rw [if_pos h1, if_pos (by omega), layerLane, hmod, if_pos (by omega), hd, hg i, hg (i + len),
        if_neg (by omega), if_neg (by omega)]
    · rw [if_neg h1]
      by_cases h2 : m * (2 * len) + len ≤ i ∧ i < m * (2 * len) + len + len
      · have hd : i / (2 * len) = m := 
          Nat.div_eq_of_lt_le (by omega) (by omega)
        have hmod : i % (2 * len) = i - m * (2 * len) := by
          have := Nat.div_add_mod i (2 * len); rw [hd] at this; rw [Nat.mul_comm] at this; omega
        rw [if_pos h2, if_pos (by omega), layerLane, hmod, if_neg (by omega), hd, hg i, hg (i - len),
          if_neg (by omega), if_neg (by omega)]
      · rw [if_neg h2, hg i]
        by_cases h3 : i < m * (2 * len)
        · rw [if_pos h3, if_pos (by omega)]
        · rw [if_neg h3, if_neg (by omega)]

theorem iterate_add_one (b k : Nat) : (fun k => k + 1)^[b] k = k + b := by
  induction b with
  | zero => rfl
  | succ b ih => rw [Function.iterate_succ_apply', ih]; rfl

theorem iterate_sub_one (b k : Nat) : (fun k => k - 1)^[b] k = k - b := by
  induction b with
  | zero => rfl
  | succ b ih => rw [Function.iterate_succ_apply', ih]; rfl

/-- One layer of the forward transform: half of each block gets the sums, half the differences. -/
theorem nttLayer_spec {len : Nat} (hlen : 0 < len) (hdiv : 128 / len * (2 * len) = 256) (r : List Int)
    (hr : r.length = 256) (k : Nat) :
    (nttLayer (r, k) len).2 = k + 128 / len ∧ (nttLayer (r, k) len).1.length = 256 ∧
    ∀ i < 256, (nttLayer (r, k) len).1.getD i 0 =
      layerLane (fun z x y => x + fqmul y z) (fun z x y => x - fqmul y z) len (fun b => zeta (k + b)) r i := by
  obtain ⟨h1, h2, h3⟩ := blocks_getD (body := nttButterfly) hlen (nttButterfly_pair hlen) (fun k => k + 1)
    (128 / len) r k (by omega)
  simp only [iterate_add_one] at h1 h3
  refine ⟨h1, by rw [← hr]; exact h2, fun i hi => ?_⟩
  have := h3 i
  rw [if_pos (by omega)] at this
  exact this

/-- One layer of the inverse transform. -/
theorem inttLayer_spec {len : Nat} (hlen : 0 < len) (hdiv : 128 / len * (2 * len) = 256) (r : List Int)
    (hr : r.length = 256) (k : Nat) :
    (inttLayer (r, k) len).2 = k - 128 / len ∧ (inttLayer (r, k) len).1.length = 256 ∧
    ∀ i < 256, (inttLayer (r, k) len).1.getD i 0 =
      layerLane (fun _ x y => cmod (x + y)) (fun z x y => fqmul (y - x) z) len (fun b => zeta (k - b)) r i := by
  obtain ⟨h1, h2, h3⟩ := blocks_getD (body := inttButterfly) hlen (inttButterfly_pair hlen) (fun k => k - 1)
    (128 / len) r k (by omega)
  simp only [iterate_sub_one] at h1 h3
  refine ⟨h1, by rw [← hr]; exact h2, fun i hi => ?_⟩
  have := h3 i
  rw [if_pos (by omega)] at this
  exact this

/-! The transforms, layer by layer. -/

/-- The state of the forward loop after its first `n` layers. -/
def nttUpTo : Nat → List Int → List Int × Nat
  | 0, r => (r, 1)
  | n + 1, r => nttLayer (nttUpTo n r) (2 ^ (7 - n))

theorem nttFn_eq (r : List Int) : nttFn r = (nttUpTo 7 r).1 := by
  simp [nttFn, nttUpTo]

/-- The state of the inverse loop after its first `n` layers. -/
def inttUpTo : Nat → List Int → List Int × Nat
  | 0, r => (r.map fun x => fqmul x 1441, 127)
  | n + 1, r => inttLayer (inttUpTo n r) (2 ^ (n + 1))

theorem inttFn_eq (r : List Int) : inttFn r = (inttUpTo 7 r).1 := by
  simp [inttFn, inttUpTo]

theorem pow_div_facts {n : Nat} (hn : n < 7) :
    0 < 2 ^ (7 - n) ∧ 128 / 2 ^ (7 - n) * (2 * 2 ^ (7 - n)) = 256 ∧ 128 / 2 ^ (7 - n) = 2 ^ n := by
  interval_cases n <;> decide

theorem nttUpTo_inv (r : List Int) (hr : r.length = 256) {n : Nat} (hn : n ≤ 7) :
    (nttUpTo n r).2 = 2 ^ n ∧ (nttUpTo n r).1.length = 256 := by
  induction n with
  | zero => exact ⟨rfl, hr⟩
  | succ n ih =>
    obtain ⟨h1, h2⟩ := ih (by omega)
    obtain ⟨p1, p2, p3⟩ := pow_div_facts (n := n) (by omega)
    obtain ⟨a, b, -⟩ := nttLayer_spec p1 p2 (nttUpTo n r).1 h2 (nttUpTo n r).2
    refine ⟨?_, b⟩
    change (nttLayer ((nttUpTo n r).1, (nttUpTo n r).2) _).2 = _
    rw [a, h1, p3, Nat.pow_succ]; ring

theorem nttUpTo_succ_getD (r : List Int) (hr : r.length = 256) {n : Nat} (hn : n < 7) {i : Nat} (hi : i < 256) :
    (nttUpTo (n + 1) r).1.getD i 0 =
      layerLane (fun z x y => x + fqmul y z) (fun z x y => x - fqmul y z) (2 ^ (7 - n))
        (fun b => zeta (2 ^ n + b)) (nttUpTo n r).1 i := by
  obtain ⟨h1, h2⟩ := nttUpTo_inv r hr (n := n) (by omega)
  obtain ⟨p1, p2, -⟩ := pow_div_facts hn
  obtain ⟨-, -, c⟩ := nttLayer_spec p1 p2 (nttUpTo n r).1 h2 (nttUpTo n r).2
  rw [h1] at c
  rw [← c i hi, ← h1]
  rfl

theorem inttUpTo_inv (r : List Int) (hr : r.length = 256) {n : Nat} (hn : n ≤ 7) :
    (inttUpTo n r).2 = 2 ^ (7 - n) - 1 ∧ (inttUpTo n r).1.length = 256 := by
  induction n with
  | zero => exact ⟨rfl, by simpa [inttUpTo] using hr⟩
  | succ n ih =>
    obtain ⟨h1, h2⟩ := ih (by omega)
    have p : 0 < 2 ^ (n + 1) ∧ 128 / 2 ^ (n + 1) * (2 * 2 ^ (n + 1)) = 256 ∧
        2 ^ (7 - n) - 1 - 128 / 2 ^ (n + 1) = 2 ^ (7 - (n + 1)) - 1 := by
      have : n < 7 := by omega
      interval_cases n <;> decide
    obtain ⟨a, b, -⟩ := inttLayer_spec p.1 p.2.1 (inttUpTo n r).1 h2 (inttUpTo n r).2
    refine ⟨?_, b⟩
    change (inttLayer ((inttUpTo n r).1, (inttUpTo n r).2) _).2 = _
    rw [a, h1, p.2.2]

theorem inttUpTo_succ_getD (r : List Int) (hr : r.length = 256) {n : Nat} (hn : n < 7) {i : Nat} (hi : i < 256) :
    (inttUpTo (n + 1) r).1.getD i 0 =
      layerLane (fun _ x y => cmod (x + y)) (fun z x y => fqmul (y - x) z) (2 ^ (n + 1))
        (fun b => zeta (2 ^ (7 - n) - 1 - b)) (inttUpTo n r).1 i := by
  obtain ⟨h1, h2⟩ := inttUpTo_inv r hr (n := n) (by omega)
  have p : 0 < 2 ^ (n + 1) ∧ 128 / 2 ^ (n + 1) * (2 * 2 ^ (n + 1)) = 256 := by
    interval_cases n <;> decide
  obtain ⟨-, -, c⟩ := inttLayer_spec p.1 p.2 (inttUpTo n r).1 h2 (inttUpTo n r).2
  rw [h1] at c
  rw [← c i hi, ← h1]
  rfl

theorem nttFn_length {r : List Int} (hr : r.length = 256) : (nttFn r).length = 256 := by
  rw [nttFn_eq]; exact (nttUpTo_inv r hr le_rfl).2

theorem inttFn_length {r : List Int} (hr : r.length = 256) : (inttFn r).length = 256 := by
  rw [inttFn_eq]; exact (inttUpTo_inv r hr le_rfl).2

/-! Bounds. -/

/-- One forward layer raises a bound `B` to `C` (R197). -/
theorem nttLayer_bound {r : List Int} {len i : Nat} {z : Nat → Int} {B C : Int}
    (hz : ∀ b, -1659 ≤ z b ∧ z b ≤ 1659) (hr : ∀ j, -B ≤ r.getD j 0 ∧ r.getD j 0 ≤ B)
    (hC : B * 1659 + 32768 * 3329 < (C - B + 1) * 65536) {v : Int}
    (hv : v = layerLane (fun z x y => x + fqmul y z) (fun z x y => x - fqmul y z) len z r i) :
    -C ≤ v ∧ v ≤ C := by
  have hx : ∀ j, ∀ b, -(C - B) ≤ fqmul (r.getD j 0) (z b) ∧ fqmul (r.getD j 0) (z b) ≤ C - B := by
    intro j b
    have := fqmul_bound (hr j) (hz b)
    constructor <;> omega
  simp only [layerLane] at hv
  rw [hv]
  split
  · have := hx (i + len) (i / (2 * len)); have := hr i; constructor <;> omega
  · have := hx i (i / (2 * len)); have := hr (i - len); constructor <;> omega

theorem getD_bound_of_lt {r : List Int} {B : Int} (hB : 0 ≤ B) (hr : r.length = 256)
    (h : ∀ i < 256, -B ≤ r.getD i 0 ∧ r.getD i 0 ≤ B) (j : Nat) : -B ≤ r.getD j 0 ∧ r.getD j 0 ≤ B := by
  by_cases hj : j < 256
  · exact h j hj
  · rw [List.getD_eq_default _ _ (by omega)]; omega

theorem nttUpTo_bound_step {r : List Int} (hr : r.length = 256) {n : Nat} (hn : n < 7) {B C : Int}
    (h : ∀ j, -B ≤ (nttUpTo n r).1.getD j 0 ∧ (nttUpTo n r).1.getD j 0 ≤ B) (hC0 : 0 ≤ C)
    (hC : B * 1659 + 32768 * 3329 < (C - B + 1) * 65536) (j : Nat) :
    -C ≤ (nttUpTo (n + 1) r).1.getD j 0 ∧ (nttUpTo (n + 1) r).1.getD j 0 ≤ C := by
  apply getD_bound_of_lt hC0 (nttUpTo_inv r hr (n := n + 1) (by omega)).2
  intro i hi
  rw [nttUpTo_succ_getD r hr hn hi]
  exact nttLayer_bound (fun b => zeta_range _) h hC rfl

/-- The output bound of the forward transform (R197). -/
theorem nttFn_bound {r : List Int} (hr : r.length = 256)
    (h : ∀ i < 256, -3328 ≤ r.getD i 0 ∧ r.getD i 0 ≤ 3328) (j : Nat) :
    -16534 ≤ (nttFn r).getD j 0 ∧ (nttFn r).getD j 0 ≤ 16534 := by
  have h0 : ∀ j, -3328 ≤ (nttUpTo 0 r).1.getD j 0 ∧ (nttUpTo 0 r).1.getD j 0 ≤ 3328 :=
    getD_bound_of_lt (by omega) hr h
  have h1 := nttUpTo_bound_step hr (n := 0) (C := 5076) (by omega) h0 (by omega) (by omega)
  have h2 := nttUpTo_bound_step hr (n := 1) (C := 6868) (by omega) h1 (by omega) (by omega)
  have h3 := nttUpTo_bound_step hr (n := 2) (C := 8706) (by omega) h2 (by omega) (by omega)
  have h4 := nttUpTo_bound_step hr (n := 3) (C := 10590) (by omega) h3 (by omega) (by omega)
  have h5 := nttUpTo_bound_step hr (n := 4) (C := 12522) (by omega) h4 (by omega) (by omega)
  have h6 := nttUpTo_bound_step hr (n := 5) (C := 14503) (by omega) h5 (by omega) (by omega)
  rw [nttFn_eq]
  exact nttUpTo_bound_step hr (n := 6) (C := 16534) (by omega) h6 (by omega) (by omega) j

/-- One inverse layer (R201): sums are centered, differences are Montgomery products. -/
theorem inttLayer_bound {r : List Int} {len i : Nat} {z : Nat → Int} {B C : Int}
    (hz : ∀ b, -1659 ≤ z b ∧ z b ≤ 1659) (hr : ∀ j, -B ≤ r.getD j 0 ∧ r.getD j 0 ≤ B)
    (hC : 2 * B * 1659 + 32768 * 3329 < (C + 1) * 65536) {v : Int}
    (hv : v = layerLane (fun _ x y => cmod (x + y)) (fun z x y => fqmul (y - x) z) len z r i) :
    (i % (2 * len) < len → -1664 ≤ v ∧ v ≤ 1664) ∧ (¬ i % (2 * len) < len → -C ≤ v ∧ v ≤ C) := by
  rw [hv]
  simp only [layerLane]
  refine ⟨fun h => by rw [if_pos h]; exact cmod_range _, fun h => ?_⟩
  rw [if_neg h]
  have hd : -(2 * B) ≤ r.getD i 0 - r.getD (i - len) 0 ∧ r.getD i 0 - r.getD (i - len) 0 ≤ 2 * B := by
    have := hr i; have := hr (i - len); omega
  have := fqmul_bound hd (hz (i / (2 * len)))
  constructor <;> omega

theorem inttUpTo_bound {r : List Int} (hr : r.length = 256)
    (h : ∀ i < 256, -32768 ≤ r.getD i 0 ∧ r.getD i 0 ≤ 32768) {n : Nat} (hn : n ≤ 7) (j : Nat) :
    -2385 ≤ (inttUpTo n r).1.getD j 0 ∧ (inttUpTo n r).1.getD j 0 ≤ 2385 := by
  induction n generalizing j with
  | zero =>
    apply getD_bound_of_lt (by omega) (inttUpTo_inv r hr (n := 0) (by omega)).2
    intro i hi
    have e : (inttUpTo 0 r).1.getD i 0 = fqmul (r.getD i 0) 1441 := by
      simp [inttUpTo, List.getD_eq_getElem?_getD, hr, hi]
    rw [e]
    have := fqmul_bound (h i hi) (b := 1441) (B := 1441) (by omega)
    constructor <;> omega
  | succ n ih =>
    apply getD_bound_of_lt (by omega) (inttUpTo_inv r hr (n := n + 1) (by omega)).2
    intro i hi
    rw [inttUpTo_succ_getD r hr (by omega) hi]
    have hb := inttLayer_bound (len := 2 ^ (n + 1)) (i := i) (z := fun b => zeta (2 ^ (7 - n) - 1 - b))
      (C := 1785) (fun b => zeta_range _) (ih (by omega)) (by omega) rfl
    by_cases hc : i % (2 * 2 ^ (n + 1)) < 2 ^ (n + 1)
    · have := hb.1 hc; constructor <;> omega
    · have := hb.2 hc; constructor <;> omega

/-- The output bounds of the inverse transform (R201): 1664 on lanes 0 to 127, 1785 on the others. -/
theorem inttFn_bound {r : List Int} (hr : r.length = 256)
    (h : ∀ i < 256, -32768 ≤ r.getD i 0 ∧ r.getD i 0 ≤ 32768) {i : Nat} (hi : i < 256) :
    (i < 128 → -1664 ≤ (inttFn r).getD i 0 ∧ (inttFn r).getD i 0 ≤ 1664) ∧
    -1785 ≤ (inttFn r).getD i 0 ∧ (inttFn r).getD i 0 ≤ 1785 := by
  have hb := inttLayer_bound (r := (inttUpTo 6 r).1) (len := 2 ^ (6 + 1)) (i := i)
    (z := fun b => zeta (2 ^ (7 - 6) - 1 - b)) (C := 1785) (fun b => zeta_range _)
    (inttUpTo_bound hr h (n := 6) (by omega)) (by omega) rfl
  rw [← inttUpTo_succ_getD r hr (n := 6) (by omega) hi] at hb
  rw [inttFn_eq]
  simp only [Nat.reduceAdd, Nat.reducePow, Nat.reduceMul] at hb
  have hm : i % 256 = i := Nat.mod_eq_of_lt hi
  rw [hm] at hb
  refine ⟨hb.1, ?_⟩
  by_cases hc : i < 128
  · have := hb.1 hc; constructor <;> omega
  · exact hb.2 hc

end Sys2Proof.Machine
end

