-- ==== Sys2Proof/Laws/Meaning.lean ====
section
/-! SUPPORT. What the transforms mean modulo 3329 (spec/44_ntt.md R196, R200): the forward transform
evaluates the polynomial modulo `X^2 - 17^(2*brv7(m)+1)` for every pair `m`, and the inverse transform
undoes it up to the factor 2^16. -/

namespace Sys2Proof.Machine

open Finset

/-- The residues modulo 3329. -/
abbrev Zq := ZMod 3329

theorem zq_eq_iff (a b : Int) : (a : Zq) = (b : Zq) ↔ a ≡ b [ZMOD 3329] :=
  ZMod.intCast_eq_intCast_iff a b 3329

theorem zq_of_emod {a b : Int} (h : (a - b) % 3329 = 0) : (a : Zq) = (b : Zq) := by
  rw [zq_eq_iff, Int.modEq_iff_dvd]
  exact Int.dvd_of_emod_eq_zero (by omega)

theorem radix_inv : (65536 : Zq) * 169 = 1 := by decide +kernel

theorem zq_mred (a : Int) : ((mred a : Int) : Zq) = (a : Zq) * 169 := by
  have h := (zq_eq_iff _ _).mpr (mred_congr a)
  push_cast at h
  rw [← h, mul_assoc, radix_inv, mul_one]

theorem zq_fqmul (a b : Int) : ((fqmul a b : Int) : Zq) = (a : Zq) * b * 169 := by
  rw [fqmul, zq_mred]; push_cast; ring

theorem zq_cmod (a : Int) : ((cmod a : Int) : Zq) = (a : Zq) := (zq_eq_iff _ _).mpr (cmod_congr a)

/-- The square of the root used by block `b` of layer `n`: the polynomial lives modulo
`X^(256/2^n) - root n b` before that layer. -/
def root : Nat → Nat → Int
  | 0, _ => -1
  | n + 1, b => if b % 2 = 0 then zeta (2 ^ n + b / 2) * 169 else -(zeta (2 ^ n + b / 2) * 169)

theorem root_sq {n b : Nat} (hn : n < 7) (hb : b < 2 ^ n) :
    ((zeta (2 ^ n + b) : Int) : Zq) * 169 * (((zeta (2 ^ n + b) : Int) : Zq) * 169) = (root n b : Zq) := by
  have h : ∀ n < 7, ∀ b < 2 ^ n,
      (zeta (2 ^ n + b) * 169 * (zeta (2 ^ n + b) * 169) - root n b) % 3329 = 0 := by decide +kernel
  have := zq_of_emod (h n hn b hb)
  push_cast at this
  exact this

/-- The root of pair `m` after the last layer (R196). -/
theorem root_last {m : Nat} (hm : m < 128) : (root 7 m : Zq) = 17 ^ (2 * brv7 m + 1) := by
  have h : ∀ m < 128, (root 7 m - 17 ^ (2 * brv7 m + 1)) % 3329 = 0 := by decide +kernel
  have := zq_of_emod (h m hm)
  push_cast at this
  exact this

/-- The factors of a block in the forward and the inverse transform are negated inverses. -/
theorem zeta_pair {n b : Nat} (hn : n < 7) (hb : b < 2 ^ n) :
    ((zeta (2 ^ n + b) : Int) : Zq) * 169 * (((zeta (2 ^ (n + 1) - 1 - b) : Int) : Zq) * 169) = -1 := by
  have h : ∀ n < 7, ∀ b < 2 ^ n,
      (zeta (2 ^ n + b) * 169 * (zeta (2 ^ (n + 1) - 1 - b) * 169) - (-1)) % 3329 = 0 := by decide +kernel
  have := zq_of_emod (h n hn b hb)
  push_cast at this
  exact this

theorem sum_range_even_odd (f : Nat → Zq) (n : Nat) :
    ∑ t ∈ range (2 * n), f t = ∑ t ∈ range n, f (2 * t) + ∑ t ∈ range n, f (2 * t + 1) := by
  induction n with
  | zero => simp
  | succ n ih =>
    rw [show 2 * (n + 1) = 2 * n + 1 + 1 by ring, sum_range_succ, sum_range_succ, ih, sum_range_succ,
      sum_range_succ]
    ring

/-- After `n` layers, block `b` holds the polynomial modulo `X^(256/2^n) - root n b`. -/
theorem nttUpTo_eval {r : List Int} (hr : r.length = 256) {n : Nat} (hn : n ≤ 7) {b j : Nat}
    (hb : b < 2 ^ n) (hj : j < 2 ^ (8 - n)) :
    (((nttUpTo n r).1.getD (b * 2 ^ (8 - n) + j) 0 : Int) : Zq) =
      ∑ t ∈ range (2 ^ n), ((r.getD (j + t * 2 ^ (8 - n)) 0 : Int) : Zq) * (root n b : Zq) ^ t := by
  induction n generalizing b j with
  | zero =>
    obtain rfl : b = 0 := by omega
    simp [nttUpTo]
  | succ n ih =>
    have hn7 : n < 7 := by omega
    have hL : 2 ^ (8 - n) = 2 * 2 ^ (7 - n) := by
      rw [show 8 - n = (7 - n) + 1 by omega, Nat.pow_succ]; ring
    have hL' : 8 - (n + 1) = 7 - n := by omega
    rw [hL'] at hj ⊢
    have hLpos : 0 < 2 ^ (7 - n) := by positivity
    have htot : 2 ^ n * (2 * 2 ^ (7 - n)) = 256 := by
      rw [← hL, ← Nat.pow_add, show n + (8 - n) = 8 by omega]
    rw [Nat.pow_succ] at hb
    have hb2 : b / 2 < 2 ^ n := by omega
    have hblk : b / 2 * (2 * 2 ^ (7 - n)) + 2 * 2 ^ (7 - n) ≤ 256 := by
      rw [← htot, ← Nat.succ_mul]; exact Nat.mul_le_mul_right _ hb2
    have elo := ih (by omega) hb2 (j := j) (by omega)
    have ehi := ih (by omega) hb2 (j := j + 2 ^ (7 - n)) (by omega)
    rw [hL] at elo ehi
    have hsq := root_sq hn7 hb2
    have hz : ∀ s : Zq, s * s = (root n (b / 2) : Zq) →
        (∑ t ∈ range (2 ^ (n + 1)), ((r.getD (j + t * 2 ^ (7 - n)) 0 : Int) : Zq) * s ^ t) =
        (∑ t ∈ range (2 ^ n), ((r.getD (j + t * (2 * 2 ^ (7 - n))) 0 : Int) : Zq) * (root n (b / 2) : Zq) ^ t) +
        (∑ t ∈ range (2 ^ n),
          ((r.getD (j + 2 ^ (7 - n) + t * (2 * 2 ^ (7 - n))) 0 : Int) : Zq) * (root n (b / 2) : Zq) ^ t) * s := by
      intro s hs
      rw [Nat.pow_succ, Nat.mul_comm (2 ^ n), sum_range_even_odd, sum_mul]
      congr 1
      · apply sum_congr rfl
        intro t _
        rw [pow_mul, pow_two, hs, show j + 2 * t * 2 ^ (7 - n) = j + t * (2 * 2 ^ (7 - n)) by ring]
      · apply sum_congr rfl
        intro t _
        rw [pow_succ, pow_mul, pow_two, hs,
          show j + (2 * t + 1) * 2 ^ (7 - n) = j + 2 ^ (7 - n) + t * (2 * 2 ^ (7 - n)) by ring]
        ring
    rcases Nat.mod_two_eq_zero_or_one b with hp | hp
    · have hbe : b = 2 * (b / 2) := by omega
      have hi : b * 2 ^ (7 - n) + j = b / 2 * (2 * 2 ^ (7 - n)) + j := by
        conv_lhs => rw [hbe]
        ring
      have hmod : (b / 2 * (2 * 2 ^ (7 - n)) + j) % (2 * 2 ^ (7 - n)) = j := by
        rw [Nat.add_comm, Nat.add_mul_mod_self_right, Nat.mod_eq_of_lt (by omega)]
      have hdiv : (b / 2 * (2 * 2 ^ (7 - n)) + j) / (2 * 2 ^ (7 - n)) = b / 2 := by
        rw [Nat.add_comm, Nat.add_mul_div_right _ _ (by omega), Nat.div_eq_of_lt (by omega)]; omega
      rw [hi, nttUpTo_succ_getD r hr hn7 (by omega), layerLane, hmod, hdiv, if_pos hj]
      have hroot : (root (n + 1) b : Zq) = ((zeta (2 ^ n + b / 2) : Int) : Zq) * 169 := by
        simp [root, hp]
      rw [hroot, hz _ hsq]
      push_cast
      rw [zq_fqmul, elo, show b / 2 * (2 * 2 ^ (7 - n)) + j + 2 ^ (7 - n) =
        b / 2 * (2 * 2 ^ (7 - n)) + (j + 2 ^ (7 - n)) by ring, ehi]
      ring
    · have hbe : b = 2 * (b / 2) + 1 := by omega
      have hi : b * 2 ^ (7 - n) + j = b / 2 * (2 * 2 ^ (7 - n)) + (j + 2 ^ (7 - n)) := by
        conv_lhs => rw [hbe]
        ring
      have hmod : (b / 2 * (2 * 2 ^ (7 - n)) + (j + 2 ^ (7 - n))) % (2 * 2 ^ (7 - n)) = j + 2 ^ (7 - n) := by
        rw [Nat.add_comm, Nat.add_mul_mod_self_right, Nat.mod_eq_of_lt (by omega)]
      have hdiv : (b / 2 * (2 * 2 ^ (7 - n)) + (j + 2 ^ (7 - n))) / (2 * 2 ^ (7 - n)) = b / 2 := by
        rw [Nat.add_comm, Nat.add_mul_div_right _ _ (by omega), Nat.div_eq_of_lt (by omega)]; omega
      rw [hi, nttUpTo_succ_getD r hr hn7 (by omega), layerLane, hmod, hdiv, if_neg (by omega)]
      have hroot : (root (n + 1) b : Zq) = -(((zeta (2 ^ n + b / 2) : Int) : Zq) * 169) := by
        simp [root, hp]
      rw [hroot, hz _ (by rw [neg_mul_neg]; exact hsq)]
      push_cast
      rw [zq_fqmul, ehi, show b / 2 * (2 * 2 ^ (7 - n)) + (j + 2 ^ (7 - n)) - 2 ^ (7 - n) =
        b / 2 * (2 * 2 ^ (7 - n)) + j by omega, elo]
      ring

/-- The meaning of the forward output (R196): pair `m` is the polynomial modulo
`X^2 - 17^(2*brv7(m)+1)`. -/
theorem nttFn_eval {r : List Int} (hr : r.length = 256) {m j : Nat} (hm : m < 128) (hj : j < 2) :
    (((nttFn r).getD (2 * m + j) 0 : Int) : Zq) =
      ∑ t ∈ range 128, ((r.getD (2 * t + j) 0 : Int) : Zq) * ((17 : Zq) ^ (2 * brv7 m + 1)) ^ t := by
  have h := nttUpTo_eval hr (n := 7) le_rfl (b := m) (j := j) hm hj
  rw [nttFn_eq, ← root_last hm, Nat.mul_comm 2 m]
  simp only [Nat.reduceSub, Nat.reducePow, pow_one] at h
  rw [h]
  apply sum_congr rfl
  intro t _
  rw [show 2 * t + j = j + t * 2 by ring]

/-- The inverse layers undo the forward layers: from a multiple of the forward output, `n` inverse
layers lead to a multiple of the forward loop's state `n` layers earlier. -/
theorem inttUpTo_undoes {r s : List Int} {c : Zq} (hr : r.length = 256) (hs : s.length = 256)
    (h : ∀ i < 256, ((s.getD i 0 : Int) : Zq) = (((nttFn r).getD i 0 : Int) : Zq) * c) {n : Nat} (hn : n ≤ 7) :
    ∀ i < 256, (((inttUpTo n s).1.getD i 0 : Int) : Zq) =
      1441 * 169 * 2 ^ n * c * (((nttUpTo (7 - n) r).1.getD i 0 : Int) : Zq) := by
  induction n with
  | zero =>
    intro i hi
    have e : (inttUpTo 0 s).1.getD i 0 = fqmul (s.getD i 0) 1441 := by
      simp [inttUpTo, List.getD_eq_getElem?_getD, hs, hi]
    rw [e, zq_fqmul, h i hi, nttFn_eq]
    push_cast
    ring
  | succ n ih =>
    intro i hi
    have ih := ih (by omega)
    obtain ⟨k, hk⟩ : ∃ k, k + n = 6 := ⟨6 - n, by omega⟩
    have e7 : 7 - n = k + 1 := by omega
    have e6 : 7 - (n + 1) = k := by omega
    have eL : n + 1 = 7 - k := by omega
    rw [inttUpTo_succ_getD s hs (by omega) hi]
    rw [e7] at ih ⊢
    rw [e6, eL]
    have hL : 0 < 2 ^ (7 - k) := by positivity
    have htot : 2 ^ k * (2 * 2 ^ (7 - k)) = 256 := by
      rw [← Nat.pow_succ', ← Nat.pow_add, show k + (7 - k + 1) = 8 by omega]
    have hb : i / (2 * 2 ^ (7 - k)) < 2 ^ k := by
      rw [Nat.div_lt_iff_lt_mul (by omega), htot]; exact hi
    have hi' := Nat.div_add_mod i (2 * 2 ^ (7 - k))
    have hblk : (2 * 2 ^ (7 - k)) * (i / (2 * 2 ^ (7 - k))) + 2 * 2 ^ (7 - k) ≤ 256 := by
      have : (i / (2 * 2 ^ (7 - k)) + 1) * (2 * 2 ^ (7 - k)) ≤ 2 ^ k * (2 * 2 ^ (7 - k)) :=
        Nat.mul_le_mul_right _ hb
      rw [htot, Nat.add_mul, Nat.mul_comm] at this
      omega
    have hpow : (2 : Zq) ^ (7 - k) = 2 ^ n * 2 := by rw [← eL, pow_succ]
    have hw := zeta_pair (n := k) (by omega) hb
    have hmodlt := Nat.mod_lt i (y := 2 * 2 ^ (7 - k)) (by omega)
    simp only [layerLane]
    by_cases hc : i % (2 * 2 ^ (7 - k)) < 2 ^ (7 - k)
    · have hm2 : (i + 2 ^ (7 - k)) % (2 * 2 ^ (7 - k)) = i % (2 * 2 ^ (7 - k)) + 2 ^ (7 - k) := by
        rw [Nat.add_mod, Nat.mod_eq_of_lt (b := 2 * 2 ^ (7 - k)) (a := 2 ^ (7 - k)) (by omega)]
        exact Nat.mod_eq_of_lt (by omega)
      have hd2 : (i + 2 ^ (7 - k)) / (2 * 2 ^ (7 - k)) = i / (2 * 2 ^ (7 - k)) := by
        have := Nat.div_add_mod (i + 2 ^ (7 - k)) (2 * 2 ^ (7 - k))
        rw [hm2] at this
        exact Nat.eq_of_mul_eq_mul_left (show 0 < 2 * 2 ^ (7 - k) by omega) (by omega)
      rw [if_pos hc, zq_cmod]
      push_cast
      rw [ih i hi, ih (i + 2 ^ (7 - k)) (by omega), nttUpTo_succ_getD r hr (by omega) hi,
        nttUpTo_succ_getD r hr (by omega) (show i + 2 ^ (7 - k) < 256 by omega)]
      simp only [layerLane]
      rw [if_pos hc, hm2, if_neg (by omega), hd2, Nat.add_sub_cancel]
      push_cast
      rw [hpow]
      ring
    · have hm2 : (i - 2 ^ (7 - k)) % (2 * 2 ^ (7 - k)) = i % (2 * 2 ^ (7 - k)) - 2 ^ (7 - k) := by
        have : i - 2 ^ (7 - k) = (i % (2 * 2 ^ (7 - k)) - 2 ^ (7 - k)) +
            2 * 2 ^ (7 - k) * (i / (2 * 2 ^ (7 - k))) := by omega
        rw [this, Nat.add_mul_mod_self_left, Nat.mod_eq_of_lt (by omega)]
      have hd2 : (i - 2 ^ (7 - k)) / (2 * 2 ^ (7 - k)) = i / (2 * 2 ^ (7 - k)) := by
        have := Nat.div_add_mod (i - 2 ^ (7 - k)) (2 * 2 ^ (7 - k))
        rw [hm2] at this
        exact Nat.eq_of_mul_eq_mul_left (show 0 < 2 * 2 ^ (7 - k) by omega) (by omega)
      rw [if_neg hc, zq_fqmul]
      push_cast
      rw [ih i hi, ih (i - 2 ^ (7 - k)) (by omega), nttUpTo_succ_getD r hr (by omega) hi,
        nttUpTo_succ_getD r hr (by omega) (show i - 2 ^ (7 - k) < 256 by omega)]
      simp only [layerLane]
      rw [if_neg hc, hm2, if_pos (by omega), hd2, Nat.sub_add_cancel (by omega)]
      push_cast
      rw [zq_fqmul, hpow]
      linear_combination (1441 * 169 * 2 ^ n * c * (-2) * (((nttUpTo k r).1.getD i 0 : Int) : Zq)) * hw

/-- The inverse of a scaled transform, with the factor 2^16 of R200. -/
theorem inttFn_scaled_by {r s : List Int} {c : Zq} (hr : r.length = 256) (hs : s.length = 256)
    (h : ∀ i < 256, ((s.getD i 0 : Int) : Zq) = (((nttFn r).getD i 0 : Int) : Zq) * c) {i : Nat}
    (hi : i < 256) : (((inttFn s).getD i 0 : Int) : Zq) = 2285 * c * ((r.getD i 0 : Int) : Zq) := by
  have h7 : (1441 * 169 * 2 ^ 7 : Zq) = 2285 := by decide +kernel
  rw [inttFn_eq, inttUpTo_undoes hr hs h le_rfl i hi, h7]
  rfl

/-- The meaning of the inverse (R200): the transform of a polynomial, up to congruence, goes back to
2^16 times its coefficients. -/
theorem inttFn_undoes {r s : List Int} (hr : r.length = 256) (hs : s.length = 256)
    (h : ∀ i < 256, ((s.getD i 0 : Int) : Zq) = (((nttFn r).getD i 0 : Int) : Zq)) {i : Nat} (hi : i < 256) :
    (((inttFn s).getD i 0 : Int) : Zq) = 2285 * ((r.getD i 0 : Int) : Zq) := by
  rw [inttFn_scaled_by hr hs (c := 1) (by simpa using h) hi, mul_one]

/-- The inverse of the transform scaled by 2^(-16): no factor is left (R227). -/
theorem inttFn_scaled {r s : List Int} (hr : r.length = 256) (hs : s.length = 256)
    (h : ∀ i < 256, ((s.getD i 0 : Int) : Zq) = (((nttFn r).getD i 0 : Int) : Zq) * 169) {i : Nat}
    (hi : i < 256) : (((inttFn s).getD i 0 : Int) : Zq) = ((r.getD i 0 : Int) : Zq) := by
  have h1 : (2285 * 169 : Zq) = 1 := by decide +kernel
  rw [inttFn_scaled_by hr hs h hi, h1, one_mul]

end Sys2Proof.Machine
end

