-- ==== Sys2Proof/Laws/Product.lean ====
section
/-! SUPPORT. Base multiplication (spec/45_mulcache_basemul.md R220 to R227): the cached product is the
from-scratch one, its bounds, and the ring product in `Z_q[X]/(X^256 + 1)` that the whole sequence
computes. -/

namespace Sys2Proof.Machine

open Finset

/-! The cache and the pairwise product. -/

@[simp] theorem mulcacheFn_length (b : List Int) : (mulcacheFn b).length = 128 := by simp [mulcacheFn]

@[simp] theorem basemulFn_length (a b c : List Int) : (basemulFn a b c).length = 256 := by simp [basemulFn]

theorem mulcacheFn_getD (b : List Int) {p : Nat} (hp : p < 128) :
    (mulcacheFn b).getD p 0 = fqmul (b.getD (2 * p + 1) 0) (gammaM p) := by
  simp [mulcacheFn, List.getD_eq_getElem?_getD, hp]

theorem basemulFn_getD (a b c : List Int) {i : Nat} (hi : i < 256) :
    (basemulFn a b c).getD i 0 = basemulLane a b c i := by
  simp [basemulFn, List.getD_eq_getElem?_getD, hi]

theorem basemulLane_even (a b c : List Int) (p : Nat) :
    basemulLane a b c (2 * p) =
      mred (a.getD (2 * p + 1) 0 * c.getD p 0 + a.getD (2 * p) 0 * b.getD (2 * p) 0) := by
  simp [basemulLane]

theorem basemulLane_odd (a b c : List Int) (p : Nat) :
    basemulLane a b c (2 * p + 1) =
      mred (a.getD (2 * p) 0 * b.getD (2 * p + 1) 0 + a.getD (2 * p + 1) 0 * b.getD (2 * p) 0) := by
  have h1 : (2 * p + 1) % 2 = 1 := by omega
  have h2 : (2 * p + 1) / 2 = p := by omega
  simp [basemulLane, h1, h2]

theorem gammaM_range (p : Nat) : -1659 ≤ gammaM p ∧ gammaM p ≤ 1659 := by
  unfold gammaM
  have := zeta_range (64 + p / 2)
  split <;> omega

/-- `gamma_m(p)` is the Montgomery form of the root of pair `p` (R220). -/
theorem gammaM_root {p : Nat} (hp : p < 128) : ((gammaM p : Int) : Zq) * 169 = 17 ^ (2 * brv7 p + 1) := by
  rw [← root_last hp]
  unfold gammaM root
  by_cases h : p % 2 = 0 <;> simp [h]

/-- The bound of a cache entry (R221). -/
theorem mulcacheFn_bound {b : List Int} (hb : ∀ j, -32768 ≤ b.getD j 0 ∧ b.getD j 0 ≤ 32768) (p : Nat) :
    -2494 ≤ (mulcacheFn b).getD p 0 ∧ (mulcacheFn b).getD p 0 ≤ 2494 := by
  by_cases hp : p < 128
  · rw [mulcacheFn_getD b hp]
    have := fqmul_bound (hb (2 * p + 1)) (gammaM_range p)
    constructor <;> omega
  · rw [List.getD_eq_default _ _ (by simp; omega)]; omega

/-- The pairwise product modulo 3329 (R222): the product of two pairs modulo `X^2 - g`, times 2^(-16). -/
theorem basemul_pair {a b : List Int} {p : Nat} (hp : p < 128) :
    (((basemulFn a b (mulcacheFn b)).getD (2 * p) 0 : Int) : Zq) =
        (((a.getD (2 * p) 0 : Int) : Zq) * ((b.getD (2 * p) 0 : Int) : Zq) +
          ((a.getD (2 * p + 1) 0 : Int) : Zq) * ((b.getD (2 * p + 1) 0 : Int) : Zq) * 17 ^ (2 * brv7 p + 1)) * 169 ∧
    (((basemulFn a b (mulcacheFn b)).getD (2 * p + 1) 0 : Int) : Zq) =
        (((a.getD (2 * p) 0 : Int) : Zq) * ((b.getD (2 * p + 1) 0 : Int) : Zq) +
          ((a.getD (2 * p + 1) 0 : Int) : Zq) * ((b.getD (2 * p) 0 : Int) : Zq)) * 169 := by
  rw [basemulFn_getD _ _ _ (by omega), basemulFn_getD _ _ _ (by omega), basemulLane_even, basemulLane_odd,
    mulcacheFn_getD b hp, zq_mred, zq_mred]
  push_cast
  rw [zq_fqmul, ← gammaM_root hp]
  constructor <;> ring

/-! The ring product. -/

/-- Coefficient `i` of `a(X) * b(X)` in `Z[X]/(X^256 + 1)`. -/
def negacyclic (a b : Nat → Int) (i : Nat) : Int :=
  ∑ j ∈ range 256, if j ≤ i then a j * b (i - j) else -(a j * b (256 + i - j))

/-- A polynomial at a ring element `y`. -/
theorem eval_negacyclic {A : Type} [CommRing A] (y : A) (hy : y ^ 256 = -1) (a b : Nat → A) :
    ∑ i ∈ range 256, (∑ j ∈ range 256, if j ≤ i then a j * b (i - j) else -(a j * b (256 + i - j))) * y ^ i =
      (∑ i ∈ range 256, a i * y ^ i) * ∑ i ∈ range 256, b i * y ^ i := by
  have hswap : ∑ i ∈ range 256, (∑ j ∈ range 256, if j ≤ i then a j * b (i - j) else -(a j * b (256 + i - j))) * y ^ i =
      ∑ j ∈ range 256, ∑ i ∈ range 256, (if j ≤ i then a j * b (i - j) else -(a j * b (256 + i - j))) * y ^ i := by
    rw [sum_comm]
    exact sum_congr rfl fun i _ => sum_mul _ _ _
  rw [hswap, sum_mul]
  apply sum_congr rfl
  intro j hj
  rw [mem_range] at hj
  rw [mul_sum]
  apply sum_nbij' (fun i => (i + 256 - j) % 256) (fun i => (i + j) % 256)
  · intro i _; rw [mem_range]; omega
  · intro i _; rw [mem_range]; omega
  · intro i hi; rw [mem_range] at hi; omega
  · intro i hi; rw [mem_range] at hi; omega
  · intro i hi
    rw [mem_range] at hi
    by_cases h : j ≤ i
    · rw [if_pos h, show (i + 256 - j) % 256 = i - j by omega]
      conv_lhs => rw [show i = (i - j) + j by omega, pow_add, Nat.add_sub_cancel]
      ring
    · rw [if_neg h, show (i + 256 - j) % 256 = 256 + i - j by omega]
      have : y ^ j * y ^ (256 + i - j) = -y ^ i := by
        rw [← pow_add, show j + (256 + i - j) = 256 + i by omega, pow_add, hy]; ring
      linear_combination (-(a j * b (256 + i - j))) * this

/-- A polynomial at the root `ω` of `X^2 - g`: its even and its odd part at `g`. -/
theorem eval_quadratic (g : Zq) (a : Nat → Zq) (n : Nat) :
    ∑ i ∈ range (2 * n), (⟨a i, 0⟩ : QuadraticAlgebra Zq g 0) * ⟨0, 1⟩ ^ i =
      ⟨∑ t ∈ range n, a (2 * t) * g ^ t, ∑ t ∈ range n, a (2 * t + 1) * g ^ t⟩ := by
  have hsq : ∀ t : Nat, (⟨0, 1⟩ : QuadraticAlgebra Zq g 0) ^ (2 * t) = ⟨g ^ t, 0⟩ := by
    intro t
    induction t with
    | zero => simp; rfl
    | succ t ih =>
      rw [show 2 * (t + 1) = 2 * t + 1 + 1 by ring, pow_succ, pow_succ, ih]
      ext <;> simp [pow_succ]; ring
  induction n with
  | zero => simp; rfl
  | succ n ih =>
    rw [show 2 * (n + 1) = 2 * n + 1 + 1 by ring, sum_range_succ, sum_range_succ, ih, pow_succ, hsq]
    ext <;> simp [sum_range_succ]

theorem root_pow (m : Nat) : ((17 : Zq) ^ (2 * m + 1)) ^ 128 = -1 := by
  have h1 : ((17 : Zq) ^ 128) = -1 := by decide +kernel
  rw [← pow_mul, Nat.mul_comm, pow_mul, h1, pow_succ, pow_mul]
  simp

/-- Evaluation of the negacyclic product at a pair's root is the product of the evaluations. -/
theorem eval_product (a b : Nat → Int) (m : Nat) :
    let g : Zq := 17 ^ (2 * m + 1)
    let E := fun (f : Nat → Int) (j : Nat) => ∑ t ∈ range 128, ((f (2 * t + j) : Int) : Zq) * g ^ t
    E (negacyclic a b) 0 = E a 0 * E b 0 + E a 1 * E b 1 * g ∧
    E (negacyclic a b) 1 = E a 0 * E b 1 + E a 1 * E b 0 := by
  intro g E
  have hg : g ^ 128 = -1 := root_pow m
  have key : ∀ f : Nat → Int,
      ∑ i ∈ range 256, (⟨((f i : Int) : Zq), 0⟩ : QuadraticAlgebra Zq g 0) * ⟨0, 1⟩ ^ i = ⟨E f 0, E f 1⟩ :=
    fun f => eval_quadratic g (fun i => ((f i : Int) : Zq)) 128
  have hy : (⟨0, 1⟩ : QuadraticAlgebra Zq g 0) ^ 256 = -1 := by
    have h2 : (⟨0, 1⟩ : QuadraticAlgebra Zq g 0) ^ 2 = ⟨g, 0⟩ := by
      rw [pow_two]; ext <;> simp
    have hC : ∀ n : Nat, (⟨g, 0⟩ : QuadraticAlgebra Zq g 0) ^ n = ⟨g ^ n, 0⟩ := by
      intro n
      induction n with
      | zero => simp; rfl
      | succ n ih => rw [pow_succ, ih]; ext <;> simp [pow_succ]
    rw [show 256 = 2 * 128 by norm_num, pow_mul, h2, hC, hg]
    ext <;> simp
    · rfl
    · rfl
  have hprod := eval_negacyclic (⟨0, 1⟩ : QuadraticAlgebra Zq g 0) hy
    (fun i => ⟨((a i : Int) : Zq), 0⟩) (fun i => ⟨((b i : Int) : Zq), 0⟩)
  have hcast : ∀ i, (∑ j ∈ range 256, if j ≤ i then
        (⟨((a j : Int) : Zq), 0⟩ : QuadraticAlgebra Zq g 0) * ⟨((b (i - j) : Int) : Zq), 0⟩
        else -(⟨((a j : Int) : Zq), 0⟩ * ⟨((b (256 + i - j) : Int) : Zq), 0⟩)) =
      ⟨((negacyclic a b i : Int) : Zq), 0⟩ := by
    intro i
    have hC : ∀ x : Int, (⟨(x : Zq), 0⟩ : QuadraticAlgebra Zq g 0) = ((x : Int) : QuadraticAlgebra Zq g 0) :=
      fun x => by ext <;> simp
    simp only [hC]
    rw [negacyclic]
    push_cast
    rfl
  simp only [hcast] at hprod
  rw [key, key, key] at hprod
  have hre := congrArg QuadraticAlgebra.re hprod
  have him := congrArg QuadraticAlgebra.im hprod
  simp at hre him
  constructor
  · rw [hre]; ring
  · rw [him]

/-- The whole sequence of R227 on sequences of integers: transform both operands, multiply pairwise with
the cache, transform back. -/
theorem product_ring {a b : List Int} (ha : a.length = 256) (hb : b.length = 256) {i : Nat} (hi : i < 256) :
    (inttFn (basemulFn (nttFn a) (nttFn b) (mulcacheFn (nttFn b)))).getD i 0 ≡
      negacyclic (fun j => a.getD j 0) (fun j => b.getD j 0) i [ZMOD 3329] := by
  set c : List Int := (List.range 256).map (negacyclic (fun j => a.getD j 0) (fun j => b.getD j 0)) with hc
  have hcl : c.length = 256 := by simp [hc]
  have hcg : ∀ j < 256, c.getD j 0 = negacyclic (fun j => a.getD j 0) (fun j => b.getD j 0) j := by
    intro j hj; simp [hc, List.getD_eq_getElem?_getD, hj]
  set s : List Int := basemulFn (nttFn a) (nttFn b) (mulcacheFn (nttFn b)) with hs
  -- the product is the transform of `c`, scaled by 2^(-16)
  have hpair : ∀ m < 128, ∀ j < 2, ((s.getD (2 * m + j) 0 : Int) : Zq) =
      (((nttFn c).getD (2 * m + j) 0 : Int) : Zq) * 169 := by
    intro m hm j hj
    have hE : ∀ j, ∑ t ∈ range 128, ((c.getD (2 * t + j) 0 : Int) : Zq) * ((17 : Zq) ^ (2 * brv7 m + 1)) ^ t =
        ∑ t ∈ range 128, ((negacyclic (fun j => a.getD j 0) (fun j => b.getD j 0) (2 * t + j) : Int) : Zq) *
          ((17 : Zq) ^ (2 * brv7 m + 1)) ^ t ∨ 2 ≤ j := by
      intro j
      by_cases hj : j < 2
      · left
        apply sum_congr rfl
        intro t ht
        rw [mem_range] at ht
        rw [hcg _ (by omega)]
      · right; omega
    obtain ⟨h0, h1⟩ := eval_product (fun j => a.getD j 0) (fun j => b.getD j 0) (brv7 m)
    obtain ⟨e0, e1⟩ := basemul_pair (a := nttFn a) (b := nttFn b) hm
    have na0 := nttFn_eval ha hm (j := 0) (by omega)
    have na1 := nttFn_eval ha hm (j := 1) (by omega)
    have nb0 := nttFn_eval hb hm (j := 0) (by omega)
    have nb1 := nttFn_eval hb hm (j := 1) (by omega)
    have nc0 := nttFn_eval hcl hm (j := 0) (by omega)
    have nc1 := nttFn_eval hcl hm (j := 1) (by omega)
    beta_reduce at h0 h1
    rw [(hE 0).resolve_right (by omega), h0] at nc0
    rw [(hE 1).resolve_right (by omega), h1] at nc1
    simp only [Nat.add_zero] at na0 nb0 nc0 nc1 ⊢
    interval_cases j
    · simp only [Nat.add_zero]
      rw [hs, e0, nc0, na0, na1, nb0, nb1]
    · rw [hs, e1, nc1, na0, na1, nb0, nb1]
  have hall : ∀ j < 256, ((s.getD j 0 : Int) : Zq) = (((nttFn c).getD j 0 : Int) : Zq) * 169 := by
    intro j hj
    have := hpair (j / 2) (by omega) (j % 2) (by omega)
    rwa [show 2 * (j / 2) + j % 2 = j by omega] at this
  -- so 2^16 times it is congruent to the transform of `c`, and the inverse is linear in that sense
  rw [← zq_eq_iff]
  have hsl : s.length = 256 := by simp [hs]
  have hlin := inttFn_scaled hcl hsl hall hi
  rw [hlin, hcg i hi]

end Sys2Proof.Machine
end

