-- ==== Sys2Proof/Laws/Bounds.lean ====
section
/-! SUPPORT. The bounds of the commands' results (spec/44_ntt.md R197, R201, R203,
spec/45_mulcache_basemul.md R221, R222, R228), and the registers that hold them. -/

namespace Sys2Proof.Machine

theorem lane_getD_bound (f : Poly) (i : Nat) : -32768 ≤ (lanes f).getD i 0 ∧ (lanes f).getD i 0 ≤ 32768 := by
  rw [lanes_getD]; have := lane_bound f i; omega

/-- The integers of a register within a bound, at every index. -/
theorem getD_lanes_bound {f : Poly} {B : Int} (hB : 0 ≤ B) (h : ∀ i, i < 256 → -B ≤ lane f i ∧ lane f i ≤ B)
    (i : Nat) : -B ≤ (lanes f).getD i 0 ∧ (lanes f).getD i 0 ≤ B := by
  rw [lanes_getD]
  by_cases hi : i < 256
  · exact h i hi
  · simp [lane, hi, hB]

/-- `fqmul` of two int16 values is an int16 (R192). -/
theorem fqmul_int16 {a b : Int} (ha : -32768 ≤ a ∧ a ≤ 32767) (hb : -32768 ≤ b ∧ b ≤ 32767) :
    -32768 ≤ fqmul a b ∧ fqmul a b ≤ 32767 := by
  have := fqmul_bound (A := 32768) (B := 32768) (a := a) (b := b) (by omega) (by omega)
  constructor <;> omega

theorem lanes_mulcache (f : Poly) : lanes (ofLanes 128 (mulcacheFn (lanes f))) = mulcacheFn (lanes f) := by
  apply lanes_ofLanes (by simp)
  intro x hx
  obtain ⟨p, hp, rfl⟩ := List.mem_iff_getElem.mp hx
  have := mulcacheFn_bound (lane_getD_bound f) p
  rw [List.getD_eq_getElem _ _ hp] at this
  omega

theorem lanes_ofLanes_getD {l : List Int} (hl : l.length = 256)
    (h : ∀ i, i < 256 → -32768 ≤ l.getD i 0 ∧ l.getD i 0 ≤ 32767) : lanes (ofLanes 256 l) = l := by
  apply lanes_ofLanes hl
  intro x hx
  obtain ⟨i, hi, rfl⟩ := List.mem_iff_getElem.mp hx
  have := h i (by omega)
  rwa [List.getD_eq_getElem _ _ hi] at this

/-- The bound of a product lane (R222). -/
theorem basemulFn_bound {a b c : List Int} {A B C : Int}
    (ha : ∀ j, -A ≤ a.getD j 0 ∧ a.getD j 0 ≤ A) (hb : ∀ j, -B ≤ b.getD j 0 ∧ b.getD j 0 ≤ B)
    (hc : ∀ j, -C ≤ c.getD j 0 ∧ c.getD j 0 ≤ C) {M : Int} (h1 : A * C + A * B ≤ M) (h2 : 2 * (A * B) ≤ M)
    {i : Nat} (hi : i < 256) :
    -(M + 32768 * 3329) ≤ (basemulFn a b c).getD i 0 * 65536 ∧
      (basemulFn a b c).getD i 0 * 65536 ≤ M + 32768 * 3329 := by
  rw [basemulFn_getD _ _ _ hi]
  unfold basemulLane
  dsimp only
  split
  · apply mred_bound
    have e1 := mul_bound (ha (2 * (i / 2) + 1)) (hc (i / 2))
    have e2 := mul_bound (ha (2 * (i / 2))) (hb (2 * (i / 2)))
    constructor <;> linarith [e1.1, e1.2, e2.1, e2.2]
  · apply mred_bound
    have e1 := mul_bound (ha (2 * (i / 2))) (hb (2 * (i / 2) + 1))
    have e2 := mul_bound (ha (2 * (i / 2) + 1)) (hb (2 * (i / 2)))
    constructor <;> linarith [e1.1, e1.2, e2.1, e2.2]

/-- The cache of an operand within a bound (R221). -/
theorem mulcacheFn_bound_of {b : List Int} {B C : Int} (hB : 0 ≤ B)
    (hb : ∀ j, -B ≤ b.getD j 0 ∧ b.getD j 0 ≤ B) (hC : B * 1659 + 32768 * 3329 < (C + 1) * 65536) (p : Nat) :
    -C ≤ (mulcacheFn b).getD p 0 ∧ (mulcacheFn b).getD p 0 ≤ C := by
  by_cases hp : p < 128
  · rw [mulcacheFn_getD b hp]
    have := fqmul_bound (hb (2 * p + 1)) (gammaM_range p)
    constructor <;> omega
  · rw [List.getD_eq_default _ _ (by simp; omega)]
    constructor <;> omega

/-- The product of two `NTT` outputs (R228 (a)). -/
theorem basemul_ntt_bound {a b : List Int} (ha : ∀ j, -16534 ≤ a.getD j 0 ∧ a.getD j 0 ≤ 16534)
    (hb : ∀ j, -16534 ≤ b.getD j 0 ∧ b.getD j 0 ≤ 16534) {i : Nat} (hi : i < 256) :
    -10007 ≤ (basemulFn a b (mulcacheFn b)).getD i 0 ∧ (basemulFn a b (mulcacheFn b)).getD i 0 ≤ 10007 := by
  have hc := mulcacheFn_bound_of (C := 2083) (by omega) hb (by omega)
  have := basemulFn_bound (A := 16534) (B := 16534) (C := 2083) (M := 2 * (16534 * 16534))
    ha hb hc (by omega) (by omega) hi
  constructor <;> omega

/-! Reading a register after it was written. -/

/-- What a completed register write leaves in the register. -/
theorem completePoly_lanes (r : PReg) {f : List Int} (hl : f.length = 256)
    (h : ∀ i, i < 256 → -32768 ≤ f.getD i 0 ∧ f.getD i 0 ≤ 32767) (s : State) :
    ∃ t, completePoly r f s = .next t ∧ t = (s.writePoly r (ofLanes 256 f)).finish ∧ lanes (t.poly r) = f :=
  ⟨_, rfl, rfl, by simpa using lanes_ofLanes_getD hl h⟩

end Sys2Proof.Machine
end

