-- ==== Sys2Proof/Laws/Bus.lean ====
section
/-! SUPPORT. Host accesses (spec/20_memory.md R54 to R59): an access completes with data or a write exactly
when it is legal, and what a completed access can change. -/

namespace Sys2Proof.Machine

theorem readControl_isSome (s : State) (off : Nat) : (readControl s off).isSome = isControl off := by
  unfold readControl
  split <;> first | rfl | skip
  rename_i h0 h1 h2 h3 h4
  have : ∀ n : Nat, off ≠ n → (off == n) = false := fun n h => by simpa using h
  simp [isControl, this 0 h0, this 4 h1, this 8 h2, this 12 h3, this 16 h4]

/-- A read has data exactly when it is legal. -/
theorem busRead_isSome (s : State) (w : Width) (off : Nat) :
    (busRead s w off).isSome = (BusAccess.read w off).isLegal := by
  cases w with
  | w8 => simp [busRead, BusAccess.isLegal]
  | w16 =>
    simp only [busRead, BusAccess.isLegal]
    cases h1 : polyWindow off <;> cases h2 : cacheWindow off <;> cases h3 : bufWindow 2 off <;> simp
  | w32 =>
    simp only [busRead, BusAccess.isLegal, ← readControl_isSome s off]
    cases h1 : readControl s off <;> cases h2 : bufWindow 4 off <;> simp

/-- A write takes effect exactly when it is legal. -/
theorem busWrite_isSome (s : State) (off : Nat) (d : BusData) :
    (busWrite s off d).isSome = (BusAccess.write off d).isLegal := by
  cases d with
  | b8 v => simp [busWrite, BusAccess.isLegal]
  | b16 v =>
    simp only [busWrite, BusAccess.isLegal]
    cases h1 : polyWindow off <;> cases h2 : bufWindow 2 off <;> simp
  | b32 v =>
    simp only [busWrite, BusAccess.isLegal]
    by_cases h4 : off = 4
    · subst h4; rfl
    by_cases h8 : off = 8
    · subst h8; rfl
    split
    · exact absurd rfl h4
    · exact absurd rfl h8
    · next hb => simp [hb]
    · next hb => simp [h4, h8, hb]

/-- What a legal host write can do: issue a command or drop it, clear a fault or not, write a lane with its
invalidation, write bytes of `BUF`. -/
inductive HostEffect (s : State) : State → Prop where
  | issue (v : Word) (h : s.fault = false) : HostEffect s { s with cmd := v, busy := true }
  | same : HostEffect s s
  | clear (h : s.fault = true) : HostEffect s { s with fault := false, fcause := 0 }
  | lane (r : PReg) (i : Nat) (v : Lane) : HostEffect s (s.writeLane r i v)
  | bytes (a : Nat) (l : List Byte) (h : a + l.length ≤ 2048) : HostEffect s (s.writeBuf a l)

theorem bufWindow_bound {n off a : Nat} (hn : 2048 % n = 0) (h : bufWindow n off = some a) :
    a + n ≤ 2048 ∧ off = 0x2800 + a := by
  unfold bufWindow at h
  split at h
  · next hc =>
    obtain ⟨h1, h2, h3⟩ := hc
    obtain rfl := Option.some.inj h
    refine ⟨?_, by omega⟩
    rcases Nat.eq_zero_or_pos n with rfl | hpos
    · omega
    obtain ⟨k, hk⟩ := Nat.dvd_of_mod_eq_zero h3
    obtain ⟨m, hm⟩ := Nat.dvd_of_mod_eq_zero hn
    have hM : 0x3000 = n * (6 * m) := by
      have : n * (6 * m) = 6 * (n * m) := by ring
      omega
    have hlt : k < 6 * m := by
      by_contra hge
      have : n * (6 * m) ≤ n * k := Nat.mul_le_mul_left n (by omega)
      omega
    have : n * (k + 1) ≤ n * (6 * m) := Nat.mul_le_mul_left n hlt
    rw [Nat.mul_add] at this
    omega
  · exact absurd h (by simp)

theorem busWrite_effect {s t : State} {off : Nat} {d : BusData} (h : busWrite s off d = some t) :
    HostEffect s t := by
  cases d with
  | b8 v =>
    simp only [busWrite, Option.map_eq_some_iff] at h
    obtain ⟨a, ha, rfl⟩ := h
    exact .bytes a _ (by have := bufWindow_bound (by norm_num) ha; simpa using this.1)
  | b16 v =>
    simp only [busWrite] at h
    split at h
    · obtain rfl := Option.some.inj h; exact .lane _ _ _
    · next a _ ha =>
      obtain rfl := Option.some.inj h
      exact .bytes a _ (by have := bufWindow_bound (by norm_num) ha; simpa using this.1)
    · exact absurd h (by simp)
  | b32 v =>
    simp only [busWrite] at h
    split at h
    · obtain rfl := Option.some.inj h
      unfold writeCmd
      split
      · exact .same
      · next hf => exact .issue v (by simpa using hf)
    · obtain rfl := Option.some.inj h
      unfold writeStatus State.clearFault
      split
      · split
        · exact .clear ‹_›
        · exact .same
      · exact .same
    · next a _ _ ha =>
      obtain rfl := Option.some.inj h
      exact .bytes a _ (by have := bufWindow_bound (by norm_num) ha; simpa using this.1)
    · exact absurd h (by simp)

/-- What one host access does: an effect of a write or nothing, and the answer. -/
theorem busAccess_effect (s : State) (a : BusAccess) :
    ∃ t ans, HostEffect s t ∧ busAccess s a = { t with answer := some ans } := by
  cases a with
  | read w off =>
    simp only [busAccess]
    split
    · exact ⟨s, _, .same, rfl⟩
    · exact ⟨s, _, .same, rfl⟩
  | write off d =>
    simp only [busAccess]
    split
    · next t h => exact ⟨t, _, busWrite_effect h, rfl⟩
    · exact ⟨s, _, .same, rfl⟩

/-- An illegal access changes nothing but the answer (R55). -/
theorem busAccess_of_illegal {s : State} {a : BusAccess} (h : a.isLegal = false) :
    busAccess s a = { s with answer := some .error } := by
  cases a with
  | read w off =>
    have h' := busRead_isSome s w off
    rw [h] at h'
    simp [busAccess, Option.isSome_eq_false_iff.mp h' |> Option.isNone_iff_eq_none.mp]
  | write off d =>
    have h' := busWrite_isSome s off d
    rw [h] at h'
    simp [busAccess, Option.isSome_eq_false_iff.mp h' |> Option.isNone_iff_eq_none.mp]

/-! The windows, offset by offset. -/

theorem polyWindow_lane (r : PReg) {i : Nat} (hi : i < 256) :
    polyWindow (0x1000 + 0x200 * r.val + 2 * i) = some (r, i) := by
  have := r.isLt
  unfold polyWindow
  rw [if_pos (by omega)]
  refine congrArg some (Prod.ext ?_ ?_)
  · exact Fin.ext (by simp [Fin.ofNat]; omega)
  · show _ % 0x200 / 2 = i
    omega

theorem polyWindow_high {off : Nat} (h : 0x2000 ≤ off) : polyWindow off = none := by
  unfold polyWindow; rw [if_neg (by omega)]

theorem cacheWindow_lane (k : CReg) {p : Nat} (hp : p < 128) :
    cacheWindow (0x2000 + 0x100 * k.val + 2 * p) = some (k, p) := by
  have := k.isLt
  unfold cacheWindow
  rw [if_pos (by omega)]
  refine congrArg some (Prod.ext ?_ ?_)
  · exact Fin.ext (by simp [Fin.ofNat]; omega)
  · show _ % 0x100 / 2 = p
    omega

theorem cacheWindow_high {off : Nat} (h : 0x2800 ≤ off) : cacheWindow off = none := by
  unfold cacheWindow; rw [if_neg (by omega)]

theorem readControl_high (s : State) {off : Nat} (h : 0x11 ≤ off) : readControl s off = none := by
  unfold readControl; split <;> first | omega | rfl

theorem bufWindow_at {n a : Nat} (ha : a < 2048) (hn : 0x2800 % n = 0) (h : a % n = 0) :
    bufWindow n (0x2800 + a) = some a := by
  unfold bufWindow
  rw [if_pos ⟨by omega, by omega, by rw [Nat.add_mod, hn, h]; simp⟩, Nat.add_sub_cancel_left]

theorem lanePattern_toInt {n : Nat} (v : Vector Lane n) (i : Nat) : (lanePattern v i).toInt = lane v i := by
  unfold lanePattern lane; split <;> simp

/-! Byte order (R52). -/

theorem byteOf_toNat {n : Nat} (v : BitVec n) (j : Nat) : (byteOf v j).toNat = v.toNat / 2 ^ (8 * j) % 256 := by
  simp [byteOf]

theorem ofBytesLE_lt (l : List Byte) : ofBytesLE l < 2 ^ (8 * l.length) := by
  induction l with
  | nil => simp [ofBytesLE]
  | cons b l ih =>
    have := b.isLt
    have e : 2 ^ (8 * (l.length + 1)) = 2 ^ (8 * l.length) * 256 := by rw [Nat.mul_add, Nat.pow_add]
    simp only [ofBytesLE, List.length_cons, e]
    omega

theorem ofBytesLE_byte (l : List Byte) (j : Nat) (h : j < l.length) :
    ofBytesLE l / 2 ^ (8 * j) % 256 = (l.getD j 0#8).toNat := by
  induction l generalizing j with
  | nil => simp at h
  | cons b l ih =>
    have := b.isLt
    cases j with
    | zero => simp [ofBytesLE]; omega
    | succ j =>
      have e : (2 : Nat) ^ (8 * (j + 1)) = 256 * 2 ^ (8 * j) := by
        rw [Nat.mul_add, Nat.pow_add]; omega
      have d : (b.toNat + 256 * ofBytesLE l) / 256 = ofBytesLE l := by omega
      rw [ofBytesLE, e, ← Nat.div_div_eq_div_mul, d, List.getD_cons_succ]
      exact ih j (by simpa using h)

end Sys2Proof.Machine
end

