-- ==== Sys2Proof/Laws/Decode.lean ====
section
/-! SUPPORT. The fields of an encoded word read back (spec/30_encoding.md R81), and a word put together
from its fields. -/

namespace Sys2Proof

theorem bits_ofNat (x lo n : Nat) (hx : x < 2 ^ 32) : bits (BitVec.ofNat 32 x) lo n = x / 2 ^ lo % 2 ^ n := by
  rw [bits, BitVec.toNat_ofNat, Nat.mod_eq_of_lt hx]

/-- The fields of a word of the register formats. -/
theorem encodeRegs_bits {op d a b c : Nat} (hop : op < 256) (hd : d < 8) (ha : a < 8) (hb : b < 8) (hc : c < 8) :
    bits (encodeRegs op d a b c) 0 8 = op ∧ bits (encodeRegs op d a b c) 8 3 = d ∧
    bits (encodeRegs op d a b c) 11 3 = a ∧ bits (encodeRegs op d a b c) 14 3 = b ∧
    bits (encodeRegs op d a b c) 17 3 = c ∧ bits (encodeRegs op d a b c) 20 12 = 0 ∧
    bits (encodeRegs op d a b c) 17 15 = c ∧ bits (encodeRegs op d a b c) 14 18 = b + 8 * c ∧
    bits (encodeRegs op d a b c) 11 21 = a + 8 * b + 64 * c := by
  unfold encodeRegs
  simp only [bits_ofNat _ _ _ (show op + d * 2 ^ 8 + a * 2 ^ 11 + b * 2 ^ 14 + c * 2 ^ 17 < 2 ^ 32 by omega)]
  refine ⟨?_, ?_, ?_, ?_, ?_, ?_, ?_, ?_, ?_⟩ <;> omega

/-- The fields of a word of format M. -/
theorem encodeM_bits {op : Nat} (hop : op < 256) (r : PReg) (off : Offset) :
    bits (encodeM op r off) 0 8 = op ∧ bits (encodeM op r off) 8 3 = r.val ∧
    bits (encodeM op r off) 8 2 = r.val % 4 ∧ bits (encodeM op r off) 11 9 = 0 ∧
    bits (encodeM op r off) 20 12 = off.toNat := by
  have := r.isLt
  have := off.isLt
  unfold encodeM
  simp only [bits_ofNat _ _ _ (show op + r.val * 2 ^ 8 + off.toNat * 2 ^ 20 < 2 ^ 32 by omega)]
  refine ⟨?_, ?_, ?_, ?_, ?_⟩ <;> omega

theorem fin_ofNat_val (r : Fin 8) : Fin.ofNat 8 r.val = r := by
  ext; simp [Fin.ofNat]

theorem offset_ofNat_toNat (off : Offset) : BitVec.ofNat 12 off.toNat = off := by simp

theorem regField_eq {w : Word} {lo : Nat} {r : Fin 8} (h : bits w lo 3 = r.val) : regField w lo = r := by
  rw [regField, h, fin_ofNat_val]

theorem offField_eq {w : Word} {off : Offset} (h : bits w 20 12 = off.toNat) : offField w = off := by
  rw [offField, h, offset_ofNat_toNat]

theorem regField_val (w : Word) (lo : Nat) : (regField w lo).val = bits w lo 3 := by
  have : bits w lo 3 < 8 := Nat.mod_lt _ (by norm_num)
  simp [regField, Fin.ofNat, Nat.mod_eq_of_lt this]

theorem offField_toNat (w : Word) : (offField w).toNat = bits w 20 12 := by
  have : bits w 20 12 < 2 ^ 12 := Nat.mod_lt _ (by norm_num)
  simp only [offField, BitVec.toNat_ofNat]; exact Nat.mod_eq_of_lt this

/-- A word of the register formats is put together again from its fields. -/
theorem encodeRegs_eq {w : Word} {op d a b c : Nat} (h0 : bits w 0 8 = op) (hd : bits w 8 3 = d)
    (ha : bits w 11 3 = a) (hb : bits w 14 3 = b) (hc : bits w 17 3 = c) (ht : bits w 20 12 = 0) :
    encodeRegs op d a b c = w := by
  have hw := w.isLt
  apply BitVec.eq_of_toNat_eq
  unfold bits at h0 hd ha hb hc ht
  simp only [encodeRegs, BitVec.toNat_ofNat]
  omega

/-- A word of format M is put together again from its fields. -/
theorem encodeM_eq {w : Word} {op : Nat} {r : PReg} {off : Offset} (h0 : bits w 0 8 = op)
    (hr : bits w 8 3 = r.val) (hz : bits w 11 9 = 0) (ho : bits w 20 12 = off.toNat) : encodeM op r off = w := by
  have hw := w.isLt
  apply BitVec.eq_of_toNat_eq
  unfold bits at h0 hr hz ho
  simp only [encodeM, BitVec.toNat_ofNat]
  omega

/-- The nine must-be-zero bits split into the fields they cover. -/
theorem bits_regs_zero {w : Word} :
    (bits w 11 21 = 0 ↔ bits w 11 3 = 0 ∧ bits w 14 3 = 0 ∧ bits w 17 3 = 0 ∧ bits w 20 12 = 0) ∧
    (bits w 14 18 = 0 ↔ bits w 14 3 = 0 ∧ bits w 17 3 = 0 ∧ bits w 20 12 = 0) ∧
    (bits w 17 15 = 0 ↔ bits w 17 3 = 0 ∧ bits w 20 12 = 0) := by
  have hw := w.isLt
  unfold bits
  refine ⟨?_, ?_, ?_⟩ <;> omega

/-! Each format's decoder: what it accepts, and on the encoded word. -/

theorem decodeR1_ok {w : Word} {mk : PReg → Instr} {i : Instr} :
    decodeR1 w mk = .ok i ↔ bits w 11 21 = 0 ∧ mk (regField w 8) = i := by
  unfold decodeR1; split <;> simp_all

theorem decodeR3_ok {w : Word} {mk : PReg → PReg → PReg → Instr} {i : Instr} :
    decodeR3 w mk = .ok i ↔ bits w 17 15 = 0 ∧ mk (regField w 8) (regField w 11) (regField w 14) = i := by
  unfold decodeR3; split <;> simp_all

theorem decodeRC_ok {w : Word} {mk : CReg → PReg → Instr} {i : Instr} :
    decodeRC w mk = .ok i ↔ bits w 14 18 = 0 ∧ mk (regField w 8) (regField w 11) = i := by
  unfold decodeRC; split <;> simp_all

theorem decodeR4_ok {w : Word} {mk : PReg → PReg → PReg → CReg → Instr} {i : Instr} :
    decodeR4 w mk = .ok i ↔
      bits w 20 12 = 0 ∧ mk (regField w 8) (regField w 11) (regField w 14) (regField w 17) = i := by
  unfold decodeR4; split <;> simp_all

theorem decodeM_ok {w : Word} {mk : PReg → Offset → Instr} {i : Instr} :
    decodeM w mk = .ok i ↔ bits w 11 9 = 0 ∧ mk (regField w 8) (offField w) = i := by
  unfold decodeM; split <;> simp_all

theorem decodeQuad_ok {w : Word} {mk : PReg → Offset → Instr} {i : Instr} :
    decodeQuad w mk = .ok i ↔ bits w 8 2 = 0 ∧ bits w 11 9 = 0 ∧ mk (regField w 8) (offField w) = i := by
  unfold decodeQuad
  split
  · simp_all [decodeM_ok]
  · simp_all

theorem decodeR1_error {w : Word} {mk : PReg → Instr} {e : DecodeError} :
    decodeR1 w mk = .error e ↔ bits w 11 21 ≠ 0 ∧ e = .illegalField := by
  unfold decodeR1; split <;> simp_all [eq_comm]

theorem decodeR3_error {w : Word} {mk : PReg → PReg → PReg → Instr} {e : DecodeError} :
    decodeR3 w mk = .error e ↔ bits w 17 15 ≠ 0 ∧ e = .illegalField := by
  unfold decodeR3; split <;> simp_all [eq_comm]

theorem decodeRC_error {w : Word} {mk : CReg → PReg → Instr} {e : DecodeError} :
    decodeRC w mk = .error e ↔ bits w 14 18 ≠ 0 ∧ e = .illegalField := by
  unfold decodeRC; split <;> simp_all [eq_comm]

theorem decodeR4_error {w : Word} {mk : PReg → PReg → PReg → CReg → Instr} {e : DecodeError} :
    decodeR4 w mk = .error e ↔ bits w 20 12 ≠ 0 ∧ e = .illegalField := by
  unfold decodeR4; split <;> simp_all [eq_comm]

theorem decodeM_error {w : Word} {mk : PReg → Offset → Instr} {e : DecodeError} :
    decodeM w mk = .error e ↔ bits w 11 9 ≠ 0 ∧ e = .illegalField := by
  unfold decodeM; split <;> simp_all [eq_comm]

theorem decodeQuad_error {w : Word} {mk : PReg → Offset → Instr} {e : DecodeError} :
    decodeQuad w mk = .error e ↔ (bits w 8 2 ≠ 0 ∨ bits w 11 9 ≠ 0) ∧ e = .illegalField := by
  unfold decodeQuad
  split
  · next h => simp [decodeM_error, h]
  · next h => simp [h, eq_comm]

theorem isQuad_regField {w : Word} (h : bits w 8 2 = 0) : isQuad (regField w 8) = true := by
  have h1 := regField_val w 8
  have h2 : bits w 8 3 = 0 ∨ bits w 8 3 = 4 := by unfold bits at h ⊢; omega
  rw [← h1] at h2
  rcases h2 with h2 | h2
  · rw [show regField w 8 = 0 from Fin.ext h2]; rfl
  · rw [show regField w 8 = 4 from Fin.ext h2]; rfl

theorem decodeR1_encode {op : Nat} (hop : op < 256) (d : PReg) (mk : PReg → Instr) :
    decodeR1 (encodeRegs op d.val 0 0 0) mk = .ok (mk d) := by
  obtain ⟨-, h1, -, -, -, -, -, -, h4⟩ :=
    encodeRegs_bits hop d.isLt (show 0 < 8 by omega) (show 0 < 8 by omega) (show 0 < 8 by omega)
  exact decodeR1_ok.mpr ⟨by omega, by rw [regField_eq h1]⟩

theorem decodeR3_encode {op : Nat} (hop : op < 256) (d a b : PReg) (mk : PReg → PReg → PReg → Instr) :
    decodeR3 (encodeRegs op d.val a.val b.val 0) mk = .ok (mk d a b) := by
  obtain ⟨-, h1, h2, h3, -, -, h4, -⟩ := encodeRegs_bits hop d.isLt a.isLt b.isLt (show 0 < 8 by omega)
  exact decodeR3_ok.mpr ⟨by omega, by rw [regField_eq h1, regField_eq h2, regField_eq h3]⟩

theorem decodeRC_encode {op : Nat} (hop : op < 256) (d : CReg) (a : PReg) (mk : CReg → PReg → Instr) :
    decodeRC (encodeRegs op d.val a.val 0 0) mk = .ok (mk d a) := by
  obtain ⟨-, h1, h2, -, -, -, -, h4, -⟩ :=
    encodeRegs_bits hop d.isLt a.isLt (show 0 < 8 by omega) (show 0 < 8 by omega)
  exact decodeRC_ok.mpr ⟨by omega, by rw [regField_eq h1, regField_eq h2]⟩

theorem decodeR4_encode {op : Nat} (hop : op < 256) (d a b : PReg) (c : CReg)
    (mk : PReg → PReg → PReg → CReg → Instr) :
    decodeR4 (encodeRegs op d.val a.val b.val c.val) mk = .ok (mk d a b c) := by
  obtain ⟨-, h1, h2, h3, h5, h4, -⟩ := encodeRegs_bits hop d.isLt a.isLt b.isLt c.isLt
  exact decodeR4_ok.mpr ⟨by omega, by rw [regField_eq h1, regField_eq h2, regField_eq h3, regField_eq h5]⟩

theorem decodeM_encode {op : Nat} (hop : op < 256) (r : PReg) (off : Offset) (mk : PReg → Offset → Instr) :
    decodeM (encodeM op r off) mk = .ok (mk r off) := by
  obtain ⟨-, h1, -, h3, h4⟩ := encodeM_bits hop r off
  exact decodeM_ok.mpr ⟨h3, by rw [regField_eq h1, offField_eq h4]⟩

theorem decodeQuad_encode {op : Nat} (hop : op < 256) (r : PReg) (off : Offset) (mk : PReg → Offset → Instr) :
    decodeQuad (encodeM op r off) mk = if isQuad r then .ok (mk r off) else .error .illegalField := by
  obtain ⟨-, -, h2, -, -⟩ := encodeM_bits hop r off
  unfold decodeQuad
  have hq : ∀ q : PReg, (q.val % 4 = 0) ↔ isQuad q = true := by decide
  rw [h2, decodeM_encode hop]
  simp only [hq]

end Sys2Proof
end

