-- ==== Sys2Proof/Laws/Inverse.lean ====
section
/-! SUPPORT. The transforms modulo 3329 as one linear bijection (spec/44_ntt.md R196, R200, R202, R204): the
forward transform after the inverse multiplies by 2^16 as well, and both are additive. -/

namespace Sys2Proof.Machine

open Finset

/-- The forward transform on residues (R196). -/
def transform (v : Fin 256 → Zq) (i : Fin 256) : Zq :=
  ∑ t : Fin 128, v ⟨2 * t.val + i.val % 2, by omega⟩ * ((17 : Zq) ^ (2 * brv7 (i.val / 2) + 1)) ^ t.val

/-- The residues of a list of 256 integers. -/
def residues (r : List Int) (i : Fin 256) : Zq := ((r.getD i.val 0 : Int) : Zq)

theorem residues_nttFn {r : List Int} (hr : r.length = 256) : residues (nttFn r) = transform (residues r) := by
  funext i
  have h := nttFn_eval hr (m := i.val / 2) (j := i.val % 2) (by omega) (by omega)
  rw [show 2 * (i.val / 2) + i.val % 2 = i.val by omega] at h
  rw [residues, h, sum_range]
  rfl

/-- A list of integers with the given residues. -/
def lift (v : Fin 256 → Zq) : List Int := List.ofFn fun i => ((v i).val : Int)

@[simp] theorem lift_length (v : Fin 256 → Zq) : (lift v).length = 256 := List.length_ofFn

@[simp] theorem residues_lift (v : Fin 256 → Zq) : residues (lift v) = v := by
  funext i
  have h : i.val < (lift v).length := by rw [lift_length]; exact i.isLt
  rw [residues, List.getD_eq_getElem _ _ h]
  have h2 : (lift v)[i.val] = ((v i).val : Int) := List.getElem_ofFn h
  rw [h2]
  exact_mod_cast ZMod.natCast_zmod_val (v i)

/-- The inverse undoes the transform, on residues (R200). -/
theorem residues_inttFn {s : List Int} (hs : s.length = 256) {v : Fin 256 → Zq}
    (h : residues s = transform v) : residues (inttFn s) = fun i => 2285 * v i := by
  funext i
  have hv : residues s = residues (nttFn (lift v)) := by rw [h, residues_nttFn (lift_length v), residues_lift]
  have := inttFn_undoes (r := lift v) (by simp) hs (fun j hj => congrFun hv ⟨j, hj⟩) i.isLt
  rw [residues, this]
  exact congrArg (2285 * ·) (congrFun (residues_lift v) i)

theorem transform_mul (c : Zq) (v : Fin 256 → Zq) : transform (fun i => c * v i) = fun i => c * transform v i := by
  funext i
  rw [transform, transform, mul_sum]
  exact sum_congr rfl fun t _ => by ring

theorem transform_add (u v : Fin 256 → Zq) : transform (fun i => u i + v i) = fun i => transform u i + transform v i := by
  funext i
  rw [transform, transform, transform, ← sum_add_distrib]
  exact sum_congr rfl fun t _ => by ring

theorem transform_injective : Function.Injective transform := by
  intro u v h
  have e : residues (nttFn (lift u)) = transform u := by rw [residues_nttFn (lift_length u), residues_lift]
  have hu := residues_inttFn (nttFn_length (lift_length u)) e
  have hv := residues_inttFn (nttFn_length (lift_length u)) (e.trans h)
  have hinv : (2285 : Zq) * 169 = 1 := by decide +kernel
  funext i
  have := congrFun (hu.symm.trans hv) i
  linear_combination 169 * this - (u i - v i) * hinv

theorem transform_surjective : Function.Surjective transform := Finite.surjective_of_injective transform_injective

/-- The transform of the inverse (R202). -/
theorem nttFn_inttFn {s : List Int} (hs : s.length = 256) {i : Nat} (hi : i < 256) :
    (((nttFn (inttFn s)).getD i 0 : Int) : Zq) = 2285 * ((s.getD i 0 : Int) : Zq) := by
  obtain ⟨v, hv⟩ := transform_surjective (residues s)
  have h1 := residues_inttFn hs hv.symm
  have h2 := residues_nttFn (inttFn_length hs)
  rw [h1, transform_mul, hv] at h2
  exact congrFun h2 ⟨i, hi⟩

end Sys2Proof.Machine
end

