-- ==== Sys2Proof/Laws/PerInstr.lean ====
section
/-! SUPPORT. One family of statements per constructor of `Instr`: the opcode byte of its encoded word is
the one of its row in spec/30_encoding.md R83. -/

namespace Sys2Proof.Laws.EncodeOpcode

/-- The row of R83. -/
def opcode : Instr → Nat
  | .add _ _ _ => 0x01
  | .sub _ _ _ => 0x02
  | .reduce _ => 0x03
  | .touns _ => 0x04
  | .tomont _ => 0x05
  | .ntt _ => 0x08
  | .intt _ => 0x09
  | .mulcache _ _ => 0x0C
  | .basemul _ _ _ _ => 0x0D
  | .basemulacc _ _ _ _ => 0x0E
  | .tobytes _ _ => 0x10
  | .frombytes _ _ => 0x11
  | .tomsg _ _ => 0x12
  | .frommsg _ _ => 0x13
  | .compress4 _ _ => 0x14
  | .compress5 _ _ => 0x15
  | .compress10 _ _ => 0x16
  | .compress11 _ _ => 0x17
  | .decompress4 _ _ => 0x18
  | .decompress5 _ _ => 0x19
  | .decompress10 _ _ => 0x1A
  | .decompress11 _ _ => 0x1B
  | .cbd2 _ _ => 0x20
  | .cbd3 _ _ => 0x21
  | .getnoise2 _ _ => 0x22
  | .getnoise3 _ _ => 0x23
  | .getnoise4x2 _ _ => 0x24
  | .getnoise4x3 _ _ => 0x25
  | .getnoise4xmix _ _ => 0x26

/-- The low byte of the encoded word is the opcode of the row. -/
def Statement (i : Instr) : Prop := bits (encode i) 0 8 = opcode i

theorem add (rd ra rb : PReg) : Statement (.add rd ra rb) :=
  (encodeRegs_bits (by norm_num) rd.isLt ra.isLt rb.isLt (by norm_num)).1
theorem sub (rd ra rb : PReg) : Statement (.sub rd ra rb) :=
  (encodeRegs_bits (by norm_num) rd.isLt ra.isLt rb.isLt (by norm_num)).1
theorem reduce (rd : PReg) : Statement (.reduce rd) :=
  (encodeRegs_bits (by norm_num) rd.isLt (by norm_num) (by norm_num) (by norm_num)).1
theorem touns (rd : PReg) : Statement (.touns rd) :=
  (encodeRegs_bits (by norm_num) rd.isLt (by norm_num) (by norm_num) (by norm_num)).1
theorem tomont (rd : PReg) : Statement (.tomont rd) :=
  (encodeRegs_bits (by norm_num) rd.isLt (by norm_num) (by norm_num) (by norm_num)).1
theorem ntt (rd : PReg) : Statement (.ntt rd) :=
  (encodeRegs_bits (by norm_num) rd.isLt (by norm_num) (by norm_num) (by norm_num)).1
theorem intt (rd : PReg) : Statement (.intt rd) :=
  (encodeRegs_bits (by norm_num) rd.isLt (by norm_num) (by norm_num) (by norm_num)).1
theorem mulcache (cd : CReg) (ra : PReg) : Statement (.mulcache cd ra) :=
  (encodeRegs_bits (by norm_num) cd.isLt ra.isLt (by norm_num) (by norm_num)).1
theorem basemul (rd ra rb : PReg) (cc : CReg) : Statement (.basemul rd ra rb cc) :=
  (encodeRegs_bits (by norm_num) rd.isLt ra.isLt rb.isLt cc.isLt).1
theorem basemulacc (rd ra rb : PReg) (cc : CReg) : Statement (.basemulacc rd ra rb cc) :=
  (encodeRegs_bits (by norm_num) rd.isLt ra.isLt rb.isLt cc.isLt).1
theorem tobytes (r : PReg) (off : Offset) : Statement (.tobytes r off) := (encodeM_bits (by norm_num) r off).1
theorem frombytes (r : PReg) (off : Offset) : Statement (.frombytes r off) := (encodeM_bits (by norm_num) r off).1
theorem tomsg (r : PReg) (off : Offset) : Statement (.tomsg r off) := (encodeM_bits (by norm_num) r off).1
theorem frommsg (r : PReg) (off : Offset) : Statement (.frommsg r off) := (encodeM_bits (by norm_num) r off).1
theorem compress4 (r : PReg) (off : Offset) : Statement (.compress4 r off) := (encodeM_bits (by norm_num) r off).1
theorem compress5 (r : PReg) (off : Offset) : Statement (.compress5 r off) := (encodeM_bits (by norm_num) r off).1
theorem compress10 (r : PReg) (off : Offset) : Statement (.compress10 r off) := (encodeM_bits (by norm_num) r off).1
theorem compress11 (r : PReg) (off : Offset) : Statement (.compress11 r off) := (encodeM_bits (by norm_num) r off).1
theorem decompress4 (r : PReg) (off : Offset) : Statement (.decompress4 r off) := (encodeM_bits (by norm_num) r off).1
theorem decompress5 (r : PReg) (off : Offset) : Statement (.decompress5 r off) := (encodeM_bits (by norm_num) r off).1
theorem decompress10 (r : PReg) (off : Offset) : Statement (.decompress10 r off) := (encodeM_bits (by norm_num) r off).1
theorem decompress11 (r : PReg) (off : Offset) : Statement (.decompress11 r off) := (encodeM_bits (by norm_num) r off).1
theorem cbd2 (r : PReg) (off : Offset) : Statement (.cbd2 r off) := (encodeM_bits (by norm_num) r off).1
theorem cbd3 (r : PReg) (off : Offset) : Statement (.cbd3 r off) := (encodeM_bits (by norm_num) r off).1
theorem getnoise2 (r : PReg) (off : Offset) : Statement (.getnoise2 r off) := (encodeM_bits (by norm_num) r off).1
theorem getnoise3 (r : PReg) (off : Offset) : Statement (.getnoise3 r off) := (encodeM_bits (by norm_num) r off).1
theorem getnoise4x2 (r : PReg) (off : Offset) : Statement (.getnoise4x2 r off) := (encodeM_bits (by norm_num) r off).1
theorem getnoise4x3 (r : PReg) (off : Offset) : Statement (.getnoise4x3 r off) := (encodeM_bits (by norm_num) r off).1
theorem getnoise4xmix (r : PReg) (off : Offset) : Statement (.getnoise4xmix r off) := (encodeM_bits (by norm_num) r off).1

end Sys2Proof.Laws.EncodeOpcode
end

