-- ==== Sys2Proof/Laws/Sampling.lean ====
section
/-! SUPPORT. The sampler function (spec/43_noise_sampler.md R171, R181), lane by lane, and the contract of
the sponge (R170). -/

namespace Sys2Proof.Machine

open Finset

theorem ones_eq_sum (l : List Bool) : ones l = ∑ j ∈ range l.length, ((l.getD j false).toNat : Int) := by
  induction l with
  | nil => rfl
  | cons b l ih =>
    rw [List.length_cons, sum_range_succ']
    simp only [List.getD_cons_succ, List.getD_cons_zero]
    rw [← ih]
    simp [ones, add_comm]

@[simp] theorem cbd_length (eta : Nat) (bytes : List Byte) : (cbd eta bytes).length = 256 := by simp [cbd]

/-- `cbd_eta(B)[i]` as R171 writes it. -/
theorem cbd_getD {eta : Nat} {bytes : List Byte} (hb : bytes.length = 64 * eta) {i : Nat} (hi : i < 256) :
    (cbd eta bytes).getD i 0 =
      ∑ j ∈ range eta, ((streamBit bytes (2 * eta * i + j)).toNat : Int) -
      ∑ j ∈ range eta, ((streamBit bytes (2 * eta * i + eta + j)).toNat : Int) := by
  have hg : ∀ j < 2 * eta, ((groups (2 * eta) 256 (byteBits bytes))[i]'(by simpa using hi)).getD j false =
      streamBit bytes (2 * eta * i + j) :=
    fun j hj => byteGroup_getD (2 * eta) 256 i j bytes (by omega) hi hj
  have hlen : ((groups (2 * eta) 256 (byteBits bytes))[i]'(by simpa using hi)).length = 2 * eta :=
    groups_mem_length (n := 256) (by rw [byteBits_length]; omega) (List.getElem_mem _)
  rw [List.getD_eq_getElem _ _ (by simpa using hi)]
  simp only [cbd, List.getElem_map, cbdLane]
  generalize (groups (2 * eta) 256 (byteBits bytes))[i]'(by simpa using hi) = g at hg hlen
  rw [ones_eq_sum, ones_eq_sum]
  have h1 : (g.take eta).length = eta := by rw [List.length_take, hlen]; omega
  have h2 : (g.drop eta).length = eta := by rw [List.length_drop, hlen]; omega
  rw [h1, h2]
  congr 1
  · apply sum_congr rfl
    intro j hj
    rw [mem_range] at hj
    rw [← hg j (by omega), List.getD_eq_getElem?_getD, List.getElem?_take_of_lt hj, List.getD_eq_getElem?_getD]
  · apply sum_congr rfl
    intro j hj
    rw [mem_range] at hj
    rw [Nat.add_assoc, ← hg (eta + j) (by omega), List.getD_eq_getElem?_getD, List.getElem?_drop,
      List.getD_eq_getElem?_getD]

/-- Every sampled lane is within `eta` (R181). -/
theorem cbd_bound {eta : Nat} {bytes : List Byte} (hb : bytes.length = 64 * eta) {i : Nat} (hi : i < 256) :
    -(eta : Int) ≤ (cbd eta bytes).getD i 0 ∧ (cbd eta bytes).getD i 0 ≤ eta := by
  have h : ∀ f : Nat → Bool, 0 ≤ ∑ j ∈ range eta, ((f j).toNat : Int) ∧ ∑ j ∈ range eta, ((f j).toNat : Int) ≤ eta := by
    intro f
    constructor
    · exact sum_nonneg fun j _ => by positivity
    · calc ∑ j ∈ range eta, ((f j).toNat : Int) ≤ ∑ j ∈ range eta, (1 : Int) :=
            sum_le_sum fun j _ => by have := Bool.toNat_le (f j); omega
        _ = eta := by simp
  rw [cbd_getD hb hi]
  have h1 := h fun j => streamBit bytes (2 * eta * i + j)
  have h2 := h fun j => streamBit bytes (2 * eta * i + eta + j)
  constructor <;> omega

/-! The contract of `XOF` (R170). -/

@[simp] theorem xof_length (inp : List Byte) (n : Nat) : (Config.xof inp n).length = n := by
  simp [Config.xof, Config.squeeze]

theorem xof_take (inp : List Byte) {n m : Nat} (h : n ≤ m) : (Config.xof inp m).take n = Config.xof inp n := by
  simp [Config.xof, Config.squeeze, ← List.map_take, List.take_range, h]

end Sys2Proof.Machine
end

