-- ==== Sys2Proof/Laws/Step.lean ====
section
/-! SUPPORT. What one step can do (spec/20_memory.md R58 to R62): run the latched command, make the next
move of the environment, or wait. -/

namespace Sys2Proof.Machine

/-- The next pending move, if there is one, does not go before a pending engine step. -/
def State.engineTurn (s : State) : Prop := ∀ m rest, s.host = m :: rest → m.isEarly = false

theorem step_engine {s : State} (hb : s.busy = true) (ht : s.engineTurn) : step s = engineStep s := by
  unfold step
  split
  · simp [hb]
  · next m rest h => simp [hb, ht m rest h]

theorem step_host {s : State} {m : HostMove} {rest : List HostMove} (h : s.host = m :: rest)
    (hb : s.busy = false ∨ m.isEarly = true) :
    step s = .next (hostEvent { s with host := rest } m.event) := by
  unfold step
  rw [h]
  rcases hb with hb | hb <;> simp [hb]

theorem step_idle {s : State} (hb : s.busy = false) (h : s.host = []) : step s = .next s := by
  unfold step; rw [h]; simp [hb]

theorem engineStep_ok {s : State} {i : Instr} (h : decode s.cmd = .ok i) : engineStep s = exec i s := by
  simp [engineStep, h]

theorem engineStep_error {s : State} {e : DecodeError} (h : decode s.cmd = .error e) :
    engineStep s = raise (causeOfDecodeError e) s := by
  simp [engineStep, h]

/-- The engine step is a next state with an effect of some command; a word that is no command has the
effect of a fault. -/
theorem engineStep_lawful (s : State) : ∃ i t, engineStep s = .next t ∧ Effect i s t ∧
    (decode s.cmd = .ok i ∧ exec i s = .next t ∨ ∃ c, t = s.takeFault c) := by
  cases h : decode s.cmd with
  | ok i =>
    obtain ⟨t, h1, h2⟩ := exec_lawful i s
    exact ⟨i, t, by rw [engineStep_ok h, h1], h2, .inl ⟨rfl, h1⟩⟩
  | error e => exact ⟨.reduce 0, _, engineStep_error h, .fault _, .inr ⟨_, rfl⟩⟩

/-- A step is one of three things, each a next state. -/
theorem step_cases (s : State) :
    (s.busy = true ∧ s.engineTurn ∧ ∃ i t, step s = .next t ∧ engineStep s = .next t ∧ Effect i s t) ∨
    (∃ m rest, s.host = m :: rest ∧ (s.busy = false ∨ m.isEarly = true) ∧
      step s = .next (hostEvent { s with host := rest } m.event)) ∨
    (s.busy = false ∧ s.host = [] ∧ step s = .next s) := by
  by_cases hb : s.busy = true
  · by_cases ht : s.engineTurn
    · left
      obtain ⟨i, t, h1, h2, -⟩ := engineStep_lawful s
      exact ⟨hb, ht, i, t, by rw [step_engine hb ht, h1], h1, h2⟩
    · right; left
      unfold State.engineTurn at ht
      push Not at ht
      obtain ⟨m, rest, h, he⟩ := ht
      have he : m.isEarly = true := by simpa using he
      exact ⟨m, rest, h, .inr he, step_host h (.inr he)⟩
  · have hb : s.busy = false := by simpa using hb
    right
    cases h : s.host with
    | nil => exact .inr ⟨hb, rfl, step_idle hb h⟩
    | cons m rest => exact .inl ⟨m, rest, rfl, .inl hb, step_host h (.inl hb)⟩

end Sys2Proof.Machine
end

