-- ==== Sys2Proof/Tests/Slice0.lean ====
section
/-! SUPPORT. Tests of the model against the spec's own words and vectors (spec/30_encoding.md R83,
spec/95_test_vectors.md), and for every statement of the row a witness of its hypotheses. -/

namespace Sys2Proof.Tests

-- one theorem after the other: many of them are kernel computations, and each would take a thread
set_option Elab.async false

open Sys2Proof Sys2Proof.Machine Sys2Proof.Claim

/-! ## Words (spec/30_encoding.md R83, spec/95_test_vectors.md section 2.1) -/

theorem test_decode_elementwise :
    decode 0x0000D101#32 = .ok (.add 1 2 3) ∧ decode 0x0001FF02#32 = .ok (.sub 7 7 7) ∧
    decode 0x00000703#32 = .ok (.reduce 7) ∧ decode 0x00000004#32 = .ok (.touns 0) := by decide

theorem test_decode_transforms :
    decode 0x00000305#32 = .ok (.tomont 3) ∧ decode 0x00000508#32 = .ok (.ntt 5) ∧
    decode 0x00000209#32 = .ok (.intt 2) := by decide

theorem test_decode_products :
    decode 0x00003B0C#32 = .ok (.mulcache 3 7) ∧ decode 0x0000420D#32 = .ok (.basemul 2 0 1 0) ∧
    decode 0x000E000E#32 = .ok (.basemulacc 0 0 0 7) ∧ decode 0x0003E80E#32 = .ok (.basemulacc 0 5 7 1) := by
  decide

theorem test_decode_bytes :
    decode 0x68000210#32 = .ok (.tobytes 2 0x680#12) ∧ decode 0x01000211#32 = .ok (.frombytes 2 0x010#12) ∧
    decode 0x02000212#32 = .ok (.tomsg 2 0x020#12) ∧ decode 0x7E000013#32 = .ok (.frommsg 0 0x7E0#12) := by
  decide

theorem test_decode_compress :
    decode 0x10000214#32 = .ok (.compress4 2 0x100#12) ∧ decode 0x00000115#32 = .ok (.compress5 1 0#12) ∧
    decode 0x00000016#32 = .ok (.compress10 0 0#12) ∧ decode 0x00000117#32 = .ok (.compress11 1 0#12) := by
  decide

theorem test_decode_decompress :
    decode 0x10000318#32 = .ok (.decompress4 3 0x100#12) ∧ decode 0x00000219#32 = .ok (.decompress5 2 0#12) ∧
    decode 0x0000011A#32 = .ok (.decompress10 1 0#12) ∧ decode 0x0000021B#32 = .ok (.decompress11 2 0#12) := by
  decide

theorem test_decode_sampler :
    decode 0x04000120#32 = .ok (.cbd2 1 0x040#12) ∧ decode 0x00000021#32 = .ok (.cbd3 0 0#12) ∧
    decode 0x7DF00022#32 = .ok (.getnoise2 0 0x7DF#12) ∧ decode 0x10000123#32 = .ok (.getnoise3 1 0x100#12) ∧
    decode 0x10000424#32 = .ok (.getnoise4x2 4 0x100#12) ∧ decode 0x10000025#32 = .ok (.getnoise4x3 0 0x100#12) ∧
    decode 0x40000426#32 = .ok (.getnoise4xmix 4 0x400#12) := by decide

theorem test_decode_illegal_opcode : [0x00000000#32, 0xFFFFFFFF#32, 0x00000806#32, 0x0001C0FF#32].map decode =
    List.replicate 4 (.error .illegalOpcode) := by decide

theorem test_decode_illegal_field : [0x00010508#32, 0x00000803#32, 0x00020001#32, 0x0000400C#32,
    0x001E000E#32, 0x00000124#32, 0x00000224#32, 0x00000810#32, 0x7FF00810#32].map decode =
    List.replicate 9 (.error .illegalField) := by decide

theorem test_table_word :
    decodeTableWord 32 0x0000D101 = some (.add 1 2 3) ∧ decodeTableWord 32 0x00000224 = none := by decide

/-! ## WellFormed: one ill-formed command for each check (R91) -/

theorem test_wf_quad : ∀ r ∈ [1, 2, 3, 5, 6, 7], (Instr.getnoise4x2 r 0).wellFormed = false ∧
    (Instr.getnoise4x3 r 0).wellFormed = false ∧ (Instr.getnoise4xmix r 0).wellFormed = false := by decide

theorem test_wf_quad_ok : ∀ r ∈ [0, 4], (Instr.getnoise4x2 r 0).wellFormed = true ∧
    (Instr.getnoise4x3 r 0).wellFormed = true ∧ (Instr.getnoise4xmix r 0).wellFormed = true := by decide

/-! ## Small states and what is read off a result -/

/-- The reset state with the first lanes of some registers given. -/
def withPolys (l : List (PReg × List Int)) : State :=
  l.foldl (fun s p => { s with polys := s.polys.set p.1.val (ofLanes 256 p.2) }) State.reset

/-- The reset state with some bytes of `BUF` given. -/
def withBytes (off : Nat) (l : List Nat) : State := State.reset.writeBuf off (l.map (BitVec.ofNat 8))

/-- The first `n` lanes of a register in a next state. -/
def lanesOf (r : Result) (p : PReg) (n : Nat) : List Int :=
  match r with
  | .next t => (List.range n).map fun i => lane (t.poly p) i
  | _ => []

/-- Some bytes of `BUF` in a next state. -/
def bytesOf (r : Result) (off n : Nat) : List Nat :=
  match r with
  | .next t => (memRead t.buf off n).map BitVec.toNat
  | _ => []

/-- `STATUS`, `FCAUSE`, `CTAGS` of a next state. -/
def controlOf (r : Result) : List Nat :=
  match r with
  | .next t => [(statusWord t).toNat, (causeWord t).toNat, (tagsWord t).toNat]
  | _ => []

/-- The state after commands that complete. -/
def after (l : List Instr) (s : State) : State :=
  match runAll l s with
  | .next t => t
  | _ => s

/-- The toy sponge of spec/95_test_vectors.md section 0. -/
def toy : Sponge := fun inp n => (List.range n).map fun k => BitVec.ofNat 8 ((inp.getD 32 0).toNat + k)

/-! ## Commands (spec/95_test_vectors.md section 2) -/

theorem test_add : lanesOf (exec (.add 2 0 1) (withPolys [(0, [1, -2, 3328, -3328, 32767, -32768, 16384]),
    (1, [2, -3, 3328, -3328, 0, 0, 16383])])) 2 7 = [3, -5, 6656, -6656, 32767, -32768, 32767] := by
  decide +kernel

theorem test_add_overflow : controlOf (exec (.add 2 0 1)
    (withPolys [(0, [1, -2, 3328, -3328, 32767]), (1, [0, 0, 0, 0, 1])])) = [2, 7, 0] := by decide +kernel

theorem test_sub : lanesOf (exec (.sub 2 0 1) (withPolys [(0, [1, -2, 3328, -3328, 32767, -32768, 16384]),
    (1, [2, -3, -3328, 3328, 0, 0, 16383])])) 2 7 = [-1, 1, 6656, -6656, 32767, -32768, 1] := by
  decide +kernel

theorem test_sub_overflow : controlOf (exec (.sub 2 0 1) (withPolys [(1, [-32768])])) = [2, 7, 0] := by
  decide +kernel

theorem test_reduce : lanesOf (exec (.reduce 0)
    (withPolys [(0, [3328, -3328, 6656, 16534, 1664, 1665, -1664, -1665, 3329, 32767, -32768])])) 0 12 =
    [-1, 1, -2, -111, 1664, -1664, -1664, 1664, 0, -523, 522, 0] := by decide +kernel

theorem test_touns : lanesOf (exec (.touns 0) (withPolys [(0, [0, 1, 3328, -1, -2, -3328])])) 0 7 =
    [0, 1, 3328, 3328, 3327, 1, 0] := by decide +kernel

theorem test_touns_range : controlOf (exec (.touns 0) (withPolys [(0, [-3329])])) = [2, 5, 0] := by
  decide +kernel

theorem test_tomont : lanesOf (exec (.tomont 0)
    (withPolys [(0, [0, 1, 169, -1, 3328, 32767, -32768, 2285])])) 0 8 =
    [0, -1044, 1, 1044, 1044, 56, 988, 1353] := by decide +kernel

/-- The last layer of the transform of X^2: the layers before it leave a 1 in every lane 4b + 2. -/
theorem test_ntt_last_layer :
    (nttLayer ((List.range 256).map fun i => if i % 4 = 2 then 1 else 0, 64) 2).1.take 12 =
    [17, 0, -17, 0, -568, 0, 568, 0, 583, 0, -583, 0] := by decide +kernel

theorem test_ntt_range : controlOf (exec (.ntt 0) (withPolys [(0, [0, 0, 0, 0, 0, 0, 0, 5000])])) = [2, 5, 0] := by
  decide +kernel

/-- The first layer of the inverse transform of the sequence (1, rest 0), scaled to (512, rest 0); the
layers after it leave lanes 0 to 3 as they are, up to `cmod`. -/
theorem test_intt_first_layer :
    ((inttLayer (padTo 0 256 [fqmul 1 1441], 127) 2).1.take 4).map cmod = [512, 0, -949, 0] := by decide +kernel

theorem test_intt_completes : controlOf (exec (.intt 0) (withPolys [(0, [32767])])) = [0, 0, 0] := by decide +kernel

/-- Section 2.7: `P0 = (1, 2, 1, 2)`, `P1 = (3, 4, 3, 4)`, `P2 = (100, -100)`. -/
def products : State := withPolys [(0, [1, 2, 1, 2]), (1, [3, 4, 3, 4]), (2, [100, -100])]

/-- The same, with `C0` the cache of `P1`. -/
def cached : State := after [.mulcache 0 1] products

theorem test_mulcache : ((List.range 3).map fun p => lane (cached.cache 0).data p) = [68, -68, 0] ∧
    tagsWord cached = 9#32 := by decide +kernel

theorem test_mulcache_tags : controlOf (exec (.mulcache 7 5) State.reset) = [0, 0, 0xD0000000] := by
  decide +kernel

theorem test_basemul : lanesOf (exec (.basemul 3 0 1 0) cached) 3 5 = [188, -1639, 826, -1639, 0] := by
  decide +kernel

/-- The second product of section 2.7: the square of `P1` clears the cache of `P1`. -/
theorem test_basemul_square : lanesOf (exec (.basemul 1 1 1 0) cached) 1 4 = [883, 727, -1170, 727] ∧
    controlOf (exec (.basemul 1 1 1 0) cached) = [0, 0, 1] := by decide +kernel

theorem test_basemulacc : lanesOf (exec (.basemulacc 2 0 1 0) cached) 2 5 = [288, -1739, 826, -1639, 0] := by
  decide +kernel

theorem test_basemulacc_stale : controlOf (exec (.basemulacc 2 0 0 0) cached) = [2, 4, 9] := by decide +kernel

/-- The eight lanes of section 2.3. -/
def eight : State := withPolys [(1, [-1664, -832, -1, 0, 1, 832, 1664, 3328])]

theorem test_tobytes : bytesOf (exec (.tobytes 1 0#12) eight) 0 12 =
    [0x81, 0x16, 0x9C, 0x00, 0x0D, 0x00, 0x01, 0x00, 0x34, 0x80, 0x06, 0xD0] := by decide +kernel

theorem test_tobytes_place : bytesOf (exec (.tobytes 1 0x10#12) (withPolys [(1, [-1, 3328, 1, 2])])) 0x0E 9 =
    [0, 0, 0x00, 0x0D, 0xD0, 0x01, 0x20, 0x00, 0] := by decide +kernel

theorem test_frombytes : lanesOf (exec (.frombytes 3 0#12) (withBytes 0 [0x00, 0x0D, 0xD0])) 3 3 =
    [3328, 3328, 0] := by decide +kernel

theorem test_frombytes_range : controlOf (exec (.frombytes 3 0#12) (withBytes 0 [0x00, 0x10, 0xD0])) =
    [2, 6, 0] := by decide +kernel

theorem test_tomsg : bytesOf (exec (.tomsg 1 0#12)
    (withPolys [(1, [832, 833, 2496, 2497, -833, -832, 0, 1665])])) 0 2 = [0x96, 0] := by decide +kernel

theorem test_frommsg : lanesOf (exec (.frommsg 1 0#12) (withBytes 0 [0xA5])) 1 9 =
    [1665, 0, 1665, 0, 0, 1665, 0, 1665, 0] := by decide +kernel

theorem test_compress4 : bytesOf (exec (.compress4 1 0#12) eight) 0 5 = [0xC8, 0x00, 0x40, 0x08, 0] := by
  decide +kernel

theorem test_compress5 : bytesOf (exec (.compress5 1 0#12) eight) 0 6 = [0x10, 0x03, 0x00, 0x10, 0x04, 0] := by
  decide +kernel

theorem test_compress10 : bytesOf (exec (.compress10 1 0#12) eight) 0 10 =
    [0x00, 0x02, 0x0C, 0x00, 0x00, 0x00, 0x00, 0x04, 0x20, 0x00] := by decide +kernel

theorem test_compress11 : bytesOf (exec (.compress11 1 0#12) eight) 0 11 =
    [0x00, 0x04, 0xF0, 0xFF, 0x01, 0x10, 0x00, 0x00, 0x01, 0xF0, 0xFF] := by decide +kernel

theorem test_decompress4 : lanesOf (exec (.decompress4 2 0#12) (withBytes 0 [0x80, 0xF1])) 2 5 =
    [0, 1665, 208, 3121, 0] := by decide +kernel

theorem test_decompress5 : lanesOf (exec (.decompress5 2 0#12) (withBytes 0 [0x10, 0x80])) 2 5 =
    [1665, 0, 0, 104, 0] := by decide +kernel

theorem test_decompress10 : lanesOf (exec (.decompress10 2 0#12) (withBytes 0 [0x00, 0x02, 0x00, 0x40])) 2 5 =
    [1665, 0, 0, 3, 0] := by decide +kernel

theorem test_decompress11 : lanesOf (exec (.decompress11 2 0#12) (withBytes 0 [0x00, 0xFC, 0x7F])) 2 4 =
    [1665, 3327, 2, 0] := by decide +kernel

theorem test_cbd2 : lanesOf (exec (.cbd2 0 0#12) (withBytes 0 [0xC3, 0x1B, 0x33, 0xCC])) 0 9 =
    [2, -2, 1, 1, 2, 2, -2, -2, 0] := by decide +kernel

theorem test_cbd3 : lanesOf (exec (.cbd3 0 0#12) (withBytes 0 [0x07, 0x9E, 0x01, 0x38])) 0 6 =
    [3, -3, -1, 0, -3, 0] := by decide +kernel

theorem test_getnoise2_toy : lanesOf (noiseFrom toy 2 1 0x100#12 (withBytes 0x120 [0xC3])) 1 8 =
    [2, -2, -1, -2, 0, -2, 0, -2] := by decide +kernel

theorem test_getnoise3_toy : lanesOf (noiseFrom toy 3 1 0x100#12 (withBytes 0x120 [0x07])) 1 8 =
    [3, -1, -1, 1, 0, -1, 0, 2] := by decide +kernel

/-- The four inputs of section 2.5 with their nonces, at 0x100. -/
def inputs (a b c d : Nat) : State :=
  (((withBytes 0x120 [a]).writeBuf 0x141 [BitVec.ofNat 8 b]).writeBuf 0x162 [BitVec.ofNat 8 c]).writeBuf 0x183
    [BitVec.ofNat 8 d]

theorem test_getnoise4x2_toy :
    let t := noiseQuad toy 2 2 2 2 4 0x100#12 (inputs 0xC3 0x33 0xCC 0x00)
    lanesOf t 4 4 = [2, -2, -1, -2] ∧ lanesOf t 5 4 = [2, 2, -1, 2] ∧ lanesOf t 6 4 = [-2, -2, -1, -2] ∧
      lanesOf t 7 4 = [0, 0, 1, 0] := by decide +kernel

theorem test_getnoise4x3_toy :
    let t := noiseQuad toy 3 3 3 3 0 0x100#12 (inputs 0x07 0x07 0xC3 0xC3)
    lanesOf t 1 4 = [3, -1, -1, 1] ∧ lanesOf t 2 4 = [2, 1, -1, -1] := by decide +kernel

theorem test_getnoise4xmix_toy :
    let t := noiseQuad toy 3 3 2 2 0 0x100#12 (inputs 0x07 0x07 0xC3 0xC3)
    lanesOf t 1 4 = [3, -1, -1, 1] ∧ lanesOf t 2 4 = [2, -2, -1, -2] := by decide +kernel

/-! ## Arithmetic (spec/95_test_vectors.md section 2.6) -/

theorem test_mred : [0, 1, -1, 2285, 3329, 65536, -196608, 2 ^ 30, 2 ^ 31, -2 ^ 31].map mred =
    [0, 169, -169, 1, 0, 1, -3, 16384, 32768, -32768] := by decide

theorem test_fqmul : fqmul 32767 (-32768) = -14719 ∧ fqmul (-1044) (-1044) = -1044 ∧ fqmul (-1175) (-1103) = -1 := by
  decide

theorem test_zetas : zetas.sum = -4863 ∧ zeta 63 = -1275 ∧ zeta 64 = -1103 ∧ zeta 127 = 1628 := by decide +kernel

theorem test_compress : [104, 105, 3224, 3225].map (compress 4) = [0, 1, 15, 0] ∧
    [52, 53, 3276, 3277].map (compress 5) = [0, 1, 31, 0] := by decide

/-! ## Checks, faults and the host (sections 2.9 to 2.11, program 4) -/

theorem test_check_order :
    let s := withPolys [(0, [32767])]
    ([0x0001C0FF, 0x7FF00810, 0x7FF00010, 0x00000010, 0x0000000D].map fun w =>
      controlOf (step (s.withFetchWord 32 w))) =
    [[2, 1, 0], [2, 2, 0], [2, 3, 0], [2, 5, 0], [2, 4, 0]] := by decide +kernel

/-- The answer and the control words after the host's moves. -/
def hostRun (n : Nat) (s : State) : List Nat :=
  match n with
  | 0 => (s.cmd.toNat :: controlOf (.next s))
  | n + 1 =>
    match step s with
    | .next t => hostRun n t
    | _ => []

/-- A host access that waits. -/
def late (a : BusAccess) : HostMove := ⟨.access a, false⟩

/-- A host access that goes first where it may. -/
def early (a : BusAccess) : HostMove := ⟨.access a, true⟩

/-- Program 4, steps 1 to 3: the fault, the discarded command, the clear. -/
theorem test_program4 :
    let s := { State.reset with host := [late (.write 4 (.b32 0x0000420D)), late (.write 4 (.b32 0x0000080C)),
      late (.write 8 (.b32 2))] }
    hostRun 2 s = [0x0000420D, 2, 4, 0] ∧ hostRun 3 s = [0x0000420D, 2, 4, 0] ∧
      hostRun 4 s = [0x0000420D, 0, 0, 0] := by decide +kernel

theorem test_bus_reads :
    busRead State.reset .w32 0 = some (.b32 0x01000D01#32) ∧ busRead State.reset .w32 8 = some (.b32 0#32) ∧
    busRead (State.reset.withFetchWord 32 3) .w32 8 = some (.b32 1#32) := by decide +kernel

theorem test_bus_byte_order :
    let s := busAccess State.reset (.write 0x2800 (.b32 0x44332211))
    (memRead s.buf 0 4).map BitVec.toNat = [0x11, 0x22, 0x33, 0x44] ∧ busRead s .w16 0x2802 = some (.b16 0x4433#16) ∧
      busRead s .w8 0x2803 = some (.b8 0x44#8) := by decide +kernel

theorem test_bus_lane :
    lane ((busAccess State.reset (.write 0x160A (.b16 0xF300))).poly 3) 5 = -3328 ∧
    tagsWord (busAccess cached (.write 0x1200 (.b16 3))) = 1#32 := by decide +kernel

theorem test_bus_illegal : ∀ a ∈ [BusAccess.read .w8 0x1000, .read .w32 0x1000, .read .w16 0x1001,
    .write 0x2000 (.b16 0), .read .w16 0x2801, .read .w32 0x2802, .read .w8 4, .write 4 (.b16 0), .read .w32 0x14,
    .read .w32 0x3000, .write 0 (.b32 0), .write 0xC (.b32 0), .write 0x10 (.b32 0)],
    (busAccess State.reset a).answer = some .error := by decide +kernel

theorem test_memory_canonical : Memory.write (Memory.write [] 5 7) 5 0 = [] ∧
    Memory.write (Memory.write [] 5 7) 3 9 = [(3, 9), (5, 7)] := by decide

/-! ## Witnesses: for every statement with hypotheses, a state and operands that meet them, clause by clause
and at the ends of their ranges -/

/-- A state with a command latched and pending, and host moves. -/
def pending (w : Word) (moves : List HostMove) (s : State) : State := { s with cmd := w, busy := true, host := moves }

/-- A range condition over lanes fails at one index. -/
theorem not_canonical_at {f : Poly} (i : Nat) (hi : i < 256) (h : ¬(-3328 ≤ lane f i ∧ lane f i ≤ 3328)) :
    ¬canonical f := fun hc => h (hc i hi)

/-- The registers of the reset state hold zeros, so they are canonical. -/
theorem canonical_reset (r : PReg) : canonical (State.reset.poly r) := by
  intro i hi
  simp [State.reset, State.poly, lane, hi]

/-- A register with lanes 3328 and -3328. -/
def edge : State := withPolys [(0, [3328, -3328])]

/-- A register with a lane just outside the canonical range. -/
def outside : State := withPolys [(0, [0, 3329])]

theorem canonical_edge : canonical (edge.poly 0) := (all_canonical_iff _).mp (by decide +kernel)

theorem not_canonical_outside : ¬canonical (outside.poly 0) := not_canonical_at 1 (by decide) (by decide +kernel)

theorem witness_DecodeUndoesEncode : (Instr.getnoise4xmix 4 0xFFF).wellFormed = true := by decide

theorem witness_LegalWordIsTheOneEncoding : decode 0xFFF00426#32 = .ok (.getnoise4xmix 4 0xFFF) := by decide

theorem witness_engineMoves (w : Word) (s : State) : engineMoves (pending w [late (.read .w32 8)] s) :=
  ⟨rfl, fun m rest h => by obtain ⟨rfl, -⟩ := List.cons.inj h; rfl⟩

theorem witness_StepRunsDecodedCommand : engineMoves (pending 0x0000D101 [late (.read .w32 8)] State.reset) ∧
    decode (pending 0x0000D101 [late (.read .w32 8)] State.reset).cmd = .ok (.add 1 2 3) :=
  ⟨witness_engineMoves _ _, by decide⟩

theorem witness_StepFaultsOnIllegalWord : engineMoves (pending 0 [late (.read .w32 8)] State.reset) ∧
    decode 0 = .error .illegalOpcode ∧ decode 0x00000224 = .error .illegalField :=
  ⟨witness_engineMoves _ _, by decide, by decide⟩

theorem witness_HostMovesInOrder :
    hostMoves (late (.read .w32 8)) [] { State.reset with host := [late (.read .w32 8)] } ∧
    hostMoves (early (.read .w32 8)) [] (pending 0 [early (.read .w32 8)] State.reset) ∧
    State.reset.busy = false ∧ State.reset.host = [] :=
  ⟨⟨rfl, .inl rfl⟩, ⟨rfl, .inr (by decide)⟩, rfl, rfl⟩

/-- Sums up to the largest int16, and one above it. -/
def atTop : State := withPolys [(0, [32766]), (1, [1])]
def aboveTop : State := withPolys [(0, [32767]), (1, [1])]

/-- Differences down to the smallest int16, and one below it. -/
def atBottom : State := withPolys [(0, [-32767]), (1, [1])]
def belowBottom : State := withPolys [(0, [-32768]), (1, [1])]

theorem witness_AddResult :
    (∀ i, i < 256 → fits (lane (atTop.poly 0) i + lane (atTop.poly 1) i)) ∧
    ∃ i, i < 256 ∧ ¬fits (lane (aboveTop.poly 0) i + lane (aboveTop.poly 1) i) := by
  refine ⟨fun i hi => ?_, 0, by decide, by unfold fits; decide +kernel⟩
  have h := (all_fits_iff (List.zipWith (· + ·) (lanes (atTop.poly 0)) (lanes (atTop.poly 1)))).mp (by decide +kernel)
    i (by simpa using hi)
  rwa [zipWith_lanes_getD _ _ _ hi] at h

theorem witness_SubResult :
    (∀ i, i < 256 → fits (lane (atBottom.poly 0) i - lane (atBottom.poly 1) i)) ∧
    ∃ i, i < 256 ∧ ¬fits (lane (belowBottom.poly 0) i - lane (belowBottom.poly 1) i) := by
  refine ⟨fun i hi => ?_, 0, by decide, by unfold fits; decide +kernel⟩
  have h := (all_fits_iff (List.zipWith (· - ·) (lanes (atBottom.poly 0)) (lanes (atBottom.poly 1)))).mp
    (by decide +kernel) i (by simpa using hi)
  rwa [zipWith_lanes_getD _ _ _ hi] at h

/-- The range clauses of `TOUNS`, `NTT` and the packing commands, and the premise of `NttMeaning`. -/
theorem witness_canonical : canonical (edge.poly 0) ∧ ¬canonical (outside.poly 0) :=
  ⟨canonical_edge, not_canonical_outside⟩

/-- The transform of the polynomial 1. -/
def unitTransform : State := withPolys [(0, (List.range 256).map fun i => if i % 2 = 0 then 1 else 0)]

theorem witness_InttMeaning : ∀ i, i < 256 →
    holdsTransform (fun t => if t = 0 then 1 else 0) (lane (unitTransform.poly 0) i) i := by
  have h : ∀ i, i < 256 → lane (unitTransform.poly 0) i = if i % 2 = 0 then 1 else 0 := by decide +kernel
  intro i hi
  rw [h i hi]
  unfold holdsTransform
  rcases Nat.mod_two_eq_zero_or_one i with h | h <;> simp [h, Int.ModEq.refl]

/-- The first operand and the polynomial 1. -/
def roundTrip : State := withPolys [(0, [3328, -3328]), (1, [1])]

theorem witness_TransformRoundTrips : (0 : PReg) ≠ 1 ∧ roundTrip.fault = false ∧ canonical (roundTrip.poly 0) ∧
    lane (roundTrip.poly 1) 0 = 1 ∧ ∀ i, 0 < i → i < 256 → lane (roundTrip.poly 1) i = 0 := by
  have h : ∀ i, i < 256 → 0 < i → lane (roundTrip.poly 1) i = 0 := by decide +kernel
  exact ⟨by decide, rfl, (all_canonical_iff _).mp (by decide +kernel), by decide +kernel, fun i h0 hi => h i hi h0⟩

theorem witness_RingProduct : (0 : PReg) ≠ 1 ∧ roundTrip.fault = false ∧ canonical (roundTrip.poly 0) ∧
    canonical (roundTrip.poly 1) :=
  ⟨by decide, rfl, witness_TransformRoundTrips.2.2.1, (all_canonical_iff _).mp (by decide +kernel)⟩

/-- Section 2.7: every lane -32768, with its cache; lane 1 of the square is 32768. -/
def extreme : State := after [.mulcache 0 0] (withPolys [(0, List.replicate 256 (-32768))])

/-- The reset state with the cache of `P1` in `C0`: every product is 0. -/
def zeros : State := { State.reset with caches := State.reset.caches.set 0 { Cache.reset with valid := true, src := 1 } }

theorem product_zeros (i : Nat) : product 0 1 0 zeros i = 0 := by
  have hp : ∀ (r : PReg) (j : Nat), lane (zeros.poly r) j = 0 := by
    intro r j; unfold lane; split <;> simp [zeros, State.reset, State.poly]
  have hc : ∀ j : Nat, lane (zeros.cache 0).data j = 0 := by
    intro j; unfold lane; split <;> simp [zeros, State.reset, State.cache, Cache.reset]
  simp only [product, productLane, hp, hc]
  split <;> decide

/-- A small product next to a full accumulator. -/
def full : State := { cached with polys := cached.polys.set 2 (ofLanes 256 [32767]) }

theorem witness_BasemulResult :
    ((zeros.cache 0).valid = true ∧ (zeros.cache 0).src = 1 ∧ ∀ i, i < 256 → fits (product 0 1 0 zeros i)) ∧
    ((extreme.cache 0).valid = true ∧ (extreme.cache 0).src = 0 ∧ ∃ i, i < 256 ∧ ¬fits (product 0 0 0 extreme i)) ∧
    ¬((cached.cache 0).valid = true ∧ (cached.cache 0).src = 2) ∧
    ¬((cached.cache 1).valid = true ∧ (cached.cache 1).src = 0) := by
  unfold fits
  exact ⟨⟨rfl, rfl, fun i hi => by rw [product_zeros]; decide⟩,
    ⟨by decide +kernel, by decide +kernel, 1, by decide, by decide +kernel⟩, by decide +kernel, by decide +kernel⟩

theorem witness_BasemulaccResult :
    (∀ i, i < 256 → fits (lane (zeros.poly 2) i + product 0 1 0 zeros i)) ∧
    ((full.cache 0).valid = true ∧ (full.cache 0).src = 1 ∧
      ∃ i, i < 256 ∧ (¬fits (product 0 1 0 full i) ∨ ¬fits (lane (full.poly 2) i + product 0 1 0 full i))) ∧
    ∃ i, i < 256 ∧ (¬fits (product 0 0 0 extreme i) ∨ ¬fits (lane (extreme.poly 2) i + product 0 0 0 extreme i)) := by
  unfold fits
  have hp : ∀ j : Nat, lane (zeros.poly 2) j = 0 := by
    intro j; unfold lane; split <;> simp [zeros, State.reset, State.poly]
  exact ⟨fun i hi => by rw [product_zeros, hp]; decide,
    ⟨by decide +kernel, by decide +kernel, 0, by decide, .inr (by decide +kernel)⟩,
    1, by decide, .inl (by decide +kernel)⟩

/-- A result with `STATUS` 0 is a next state without a fault. -/
theorem completes_of_control (r : Result) {l : List Nat} (h : controlOf r = 0 :: l) :
    ∃ t, r = .next t ∧ t.fault = false := by
  match r with
  | .next t =>
    refine ⟨t, rfl, ?_⟩
    have hs : (statusWord t).toNat = 0 := (List.cons.inj h).1
    unfold statusWord at hs
    cases hf : t.fault with
    | false => rfl
    | true => rw [hf] at hs; cases hb : t.busy <;> rw [hb] at hs <;> exact absurd hs (by decide)

theorem witness_CachedEqualsNaive : cached.tagsTrue ∧
    ∃ t, exec (.basemul 3 0 1 0) cached = .next t ∧ t.fault = false := by
  constructor
  · have h : ∀ k : CReg, k ≠ 0 → (cached.cache k).valid = false := by decide +kernel
    intro k hk
    by_cases h0 : k = 0
    · subst h0
      decide +kernel
    · rw [h k h0] at hk
      exact absurd hk (by decide)
  · exact completes_of_control _ (by decide +kernel : controlOf (exec (.basemul 3 0 1 0) cached) = [0, 0, 9])

theorem witness_StaleCacheFaults : (cached.cache 0).src = 1 ∧
    (∃ t, exec (.reduce 1) cached = .next t ∧ t.fault = false ∧ destination (.reduce 1) 1) ∧
    (∃ t, exec (.reduce 2) cached = .next t ∧ ¬destination (.reduce 2) 1 ∧ ∀ ra, Instr.reduce 2 ≠ .mulcache 0 ra) :=
  ⟨by decide +kernel, ⟨_, rfl, rfl, rfl⟩, _, rfl, by unfold destination; decide, fun _ h => nomatch h⟩

theorem witness_OnlyMulcacheValidates :
    (∃ t, exec (.mulcache 0 1) State.reset = .next t ∧ (t.cache 0).valid = true) ∧
    ∃ t, exec (.reduce 2) cached = .next t ∧ (t.cache 0).valid = true :=
  ⟨⟨_, rfl, rfl⟩, _, rfl, by decide +kernel⟩

/-- The last legal offset and the first illegal one, for each region length (R90, R254). -/
theorem witness_regions : ∀ len ∈ [384, 320, 352, 192, 160, 132, 128, 33, 32],
    (BitVec.ofNat 12 (2048 - len)).toNat + len ≤ 2048 ∧ 2048 < (BitVec.ofNat 12 (2049 - len)).toNat + len := by decide

theorem witness_FrombytesResult :
    (∀ i, i < 256 → field 12 (memRead (withBytes 0 [0x00, 0x0D, 0xD0]).buf (0#12).toNat 384) i ≤ 3328) ∧
    ∃ i, i < 256 ∧ 3328 < field 12 (memRead (withBytes 0 [0x01, 0x0D]).buf (0#12).toNat 384) i := by
  have e : ∀ (s : State) (i : Nat), i < 256 →
      field 12 (memRead s.buf (0#12).toNat 384) i = (unpack 12 (memRead s.buf 0 384)).getD i 0 :=
    fun s i hi => (unpack_eq_sum (by simp) hi).symm
  constructor
  · have h : ∀ x ∈ unpack 12 (memRead (withBytes 0 [0x00, 0x0D, 0xD0]).buf 0 384), x ≤ 3328 := by decide +kernel
    intro i hi
    rw [e _ i hi, List.getD_eq_getElem _ _ (by simpa using hi)]
    exact h _ (List.getElem_mem _)
  · refine ⟨0, by decide, ?_⟩
    rw [e _ 0 (by decide)]
    decide +kernel

theorem witness_BatchedNoiseResult : ((0 : PReg) = 0 ∨ (0 : PReg) = 4) ∧ ((4 : PReg) = 0 ∨ (4 : PReg) = 4) ∧
    ∀ r ∈ [(1 : PReg), 2, 3, 5, 6, 7], ¬(r = 0 ∨ r = 4) := by decide

theorem witness_CodecRoundTrips : State.reset.fault = false ∧ canonical (State.reset.poly 0) ∧
    ∃ u, exec (.frombytes 3 0x680#12) State.reset = .next u ∧ u.fault = false :=
  ⟨rfl, canonical_reset 0, completes_of_control _
    (by decide +kernel : controlOf (exec (.frombytes 3 0x680#12) State.reset) = [0, 0, 0])⟩

theorem witness_MessageRoundTrip : State.reset.fault = false ∧ (0x7E0#12).toNat + 32 ≤ 2048 ∧
    (-832 : Int) ≤ -832 ∧ (832 : Int) ≤ 832 := by decide

theorem witness_BatchEqualsSingles : ((4 : PReg) = 0 ∨ (4 : PReg) = 4) ∧ (0x77C#12).toNat + 132 ≤ 2048 ∧
    List.Perm [(3 : Fin 4), 1, 0, 2] [0, 1, 2, 3] := by decide

theorem witness_OutputBounds : ∃ t, exec (.reduce 7) State.reset = .next t ∧ t.fault = false ∧
    destination (.reduce 7) 7 ∧ laneBound 7 255 (.reduce 7) = some (-1664, 1664) := ⟨_, rfl, rfl, rfl, rfl⟩

/-- R178: a bound for each register of the quad. -/
theorem witness_OutputBounds_getnoise4xmix :
    (∃ t, exec (.getnoise4xmix 4 0x77C#12) State.reset = .next t ∧ t.fault = false) ∧
    (∀ q ∈ [(4 : PReg), 5, 6, 7], destination (.getnoise4xmix 4 0x77C#12) q) ∧
    ([4, 5, 6, 7].map fun q => laneBound q 255 (.getnoise4xmix 4 0x77C#12)) =
      [some (-3, 3), some (-3, 3), some (-2, 2), some (-2, 2)] :=
  ⟨⟨_, rfl, rfl⟩, by unfold destination; decide, rfl⟩

/-- R201: a bound for each half. -/
theorem witness_OutputBounds_intt : (∃ t, exec (.intt 0) State.reset = .next t ∧ t.fault = false) ∧
    destination (.intt 0) 0 ∧ laneBound 0 127 (.intt 0) = some (-1664, 1664) ∧
    laneBound 0 128 (.intt 0) = some (-1785, 1785) := ⟨⟨_, rfl, rfl⟩, rfl, rfl, rfl⟩

/-- A word for each clause of the check order, in the state where the check decides. -/
theorem witness_FirstFailingCheckDecides :
    decode 0x0001C0FF#32 = .error .illegalOpcode ∧ decode 0x7FF00810#32 = .error .illegalField ∧
    (decode 0x7FF00010#32 = .ok (.tobytes 0 0x7FF) ∧ region (.tobytes 0 0x7FF) = some (2047, 384)) ∧
    (decode 0x0000000D#32 = .ok (.basemul 0 0 0 0) ∧ region (.basemul 0 0 0 0) = none ∧
      checkedCache (.basemul 0 0 0 0) = some (0, 0) ∧ (State.reset.cache 0).valid = false) ∧
    (decode 0x00000010#32 = .ok (.tobytes 0 0) ∧ checkedSource (.tobytes 0 0) = some 0 ∧ ¬canonical (outside.poly 0)) ∧
    (decode 0x00000311#32 = .ok (.frombytes 3 0) ∧ region (.frombytes 3 0) = some (0, 384)) ∧
    (decode 0x00004101#32 = .ok (.add 1 0 1) ∧
      overflows aboveTop (.add 1 0 1)) ∧
    (decode 0x00000003#32 = .ok (.reduce 0) ∧ region (.reduce 0) = none ∧ checkedCache (.reduce 0) = none ∧
      checkedSource (.reduce 0) = none ∧ ¬overflows State.reset (.reduce 0)) :=
  ⟨by decide, by decide, ⟨by decide, rfl⟩, ⟨by decide, rfl, rfl, rfl⟩, ⟨by decide, rfl, not_canonical_outside⟩,
    ⟨by decide, rfl⟩, ⟨by decide, witness_AddResult.2⟩, by decide, rfl, rfl, rfl, fun h => h⟩

theorem witness_RegionMustFit : State.reset.fault = false ∧ (Instr.getnoise4x2 4 0x77C).wellFormed = true ∧
    region (.getnoise4x2 4 0x77C) = some (2048 - 132, 132) ∧ region (.getnoise4x2 4 0x77D) = some (2048 - 132 + 1, 132) :=
  ⟨rfl, rfl, rfl, rfl⟩

theorem witness_FaultEntryIsPrecise : State.reset.fault = false ∧
    ∃ t, engineStep State.reset = .next t ∧ t.fault = true := ⟨rfl, _, rfl, rfl⟩

theorem witness_FaultClear : (faulted 4 State.reset).fault = true ∧ (2#32).getLsbD 1 = true ∧
    (0xFFFFFFFD#32).getLsbD 1 = false ∧ State.reset.fault = false := by decide

theorem witness_CommandWrite :
    let moves := [late (.write 4 (.b32 0x00000508))]
    (∃ s : State, s.busy = false ∧ s.host = moves ∧ s.fault = false) ∧
    ∃ s : State, s.busy = false ∧ s.host = moves ∧ s.fault = true :=
  ⟨⟨{ State.reset with host := [late (.write 4 (.b32 0x00000508))] }, rfl, rfl, rfl⟩,
    { faulted 4 State.reset with host := [late (.write 4 (.b32 0x00000508))] }, rfl, rfl, rfl⟩

theorem witness_HeldAccesses : legal (.write 0x1FFE (.b16 0)) ∧ ¬isControlRead (.write 0x1FFE (.b16 0)) ∧
    legal (.read .w32 0x2FFC) ∧ ¬isControlRead (.read .w32 0x2FFC) ∧
    legal (.read .w32 0x0010) ∧ isControlRead (.read .w32 0x0010) := by
  refine ⟨.inl ⟨by decide, by decide, by decide⟩, ?_, .inr ⟨by decide, by decide, by decide⟩, ?_, .inl (by decide),
    _, by decide, rfl⟩
  · rintro ⟨_, -, h⟩; exact nomatch h
  · rintro ⟨off, h, he⟩
    have : off = 0x2FFC := by injection he with _ h'; exact h'.symm
    subst this
    exact absurd h (by decide)

theorem witness_LaneWindows : 0x1000 + 0x200 * (7 : PReg).val + 2 * 255 = 0x1FFE ∧
    0x2000 + 0x100 * (7 : CReg).val + 2 * 127 = 0x27FE := by decide

theorem witness_BufWindow : 2047 < 2048 ∧ (2046 < 2048 ∧ 2046 % 2 = 0) ∧ 2044 < 2048 ∧ 2044 % 4 = 0 := by decide

theorem witness_IllegalAccess : ¬legal (.read .w16 0x1001) ∧ ¬legal (.write 0x27FE (.b16 0)) ∧ ¬legal (.read .w8 0x3000) ∧
    legal (.read .w8 0x2FFF) := by
  unfold legal inPolys inCaches inBuf; decide

theorem witness_HostPowers :
    (busAccess State.reset (.write 4 (.b32 3))).busy ≠ State.reset.busy ∧
    (busAccess State.reset (.write 4 (.b32 3))).cmd ≠ State.reset.cmd ∧
    (busAccess (faulted 4 State.reset) (.read .w32 8)).fault = true ∧
    (busAccess (faulted 4 State.reset) (.write 8 (.b32 2))).fcause ≠ (faulted 4 State.reset).fcause := by
  decide +kernel

theorem witness_ReadFootprint :
    let s := withBytes 384 [5]
    let s' := { State.reset with cmd := 9 }
    (∀ r, s'.poly r = s.poly r) ∧ (∀ k, s'.cache k = s.cache k) ∧
    (∀ off len, region (.frombytes 3 0) = some (off, len) →
      ∀ a, off ≤ a → a < off + len → Memory.read s'.buf a = Memory.read s.buf a) ∧
    s.fault = false ∧ s'.fault = false ∧ (∃ t, exec (.frombytes 3 0) s = .next t) ∧
    ∃ t', exec (.frombytes 3 0) s' = .next t' := by
  refine ⟨fun _ => rfl, fun _ => rfl, fun off len h a h1 h2 => ?_, rfl, rfl,
    let ⟨t, h, _⟩ := exec_lawful (.frombytes 3 0) _; ⟨t, h⟩, let ⟨t, h, _⟩ := exec_lawful (.frombytes 3 0) _; ⟨t, h⟩⟩
  obtain ⟨rfl, rfl⟩ : 0 = off ∧ 384 = len := by simpa [region] using h
  exact (read_memWrite [] 384 [5] a).symm ▸ by rw [if_neg (by simp; omega)]; rfl

/-- A reset while a command is pending. -/
theorem witness_ResetEvent (l : Launch) :
    (pending 3 [⟨.reset l, true⟩] State.reset).host = ⟨.reset l, true⟩ :: [] ∧
    ((pending 3 [⟨.reset l, true⟩] State.reset).busy = false ∨ true = true) := ⟨rfl, .inr rfl⟩

/-- A state with a command pending and nothing else changed since reset. -/
theorem witness_InvariantKept : (pending 3 [] State.reset).Inv ∧ ∃ t, step (pending 3 [] State.reset) = .next t := by
  refine ⟨⟨rfl, ⟨by decide, fun _ => rfl, fun h => absurd h (by decide)⟩, fun k hk => absurd hk ?_⟩, _, rfl⟩
  simp [pending, State.reset, State.cache, Cache.reset]

end Sys2Proof.Tests
end

section
/-! Proofs of the state family (spec/10_state.md): the invariant at reset and along every step, the tags,
the control registers as the host reads them. -/

namespace Sys2Proof.Machine

/-! The fault record (R30, R31, R250). -/

theorem faultRecordTrue_of_no_fault {s : State} (hf : s.fault = false) (hc : s.fcause = 0) :
    s.faultRecordTrue :=
  ⟨by simp [hf], fun _ => hc, by simp [hf]⟩

theorem takeFault_faultRecordTrue (c : Cause) (s : State) : (s.takeFault c).faultRecordTrue :=
  ⟨by simp, by simp, fun _ => ⟨c, rfl⟩⟩

theorem finish_faultRecordTrue {s : State} (h : s.faultRecordTrue) : s.finish.faultRecordTrue := by
  obtain ⟨-, hcause, hcode⟩ := h
  exact ⟨by simp, hcause, hcode⟩

/-! The tags (R24, R25, R26). -/

theorem tagsTrue_of_none_valid {s : State} (h : ∀ k, (s.cache k).valid = false) : s.tagsTrue :=
  fun k hk => absurd hk (by simp [h k])

/-- A write to `P[r]` leaves valid exactly the valid caches of other registers. -/
theorem drop_valid_iff {r : PReg} {c : Cache} :
    (Cache.drop r c).valid = true ↔ c.valid = true ∧ c.src ≠ r := by simp

theorem drop_eq_self {r : PReg} {c : Cache} (h : c.src ≠ r) : Cache.drop r c = c := by
  have hbit : (c.valid && c.src != r) = c.valid := by simp [h]
  exact congrArg (fun b => { c with valid := b }) hbit

theorem writePoly_tagsTrue {s : State} (h : s.tagsTrue) (r : PReg) (f : Poly) : (s.writePoly r f).tagsTrue := by
  intro k hk
  rw [writePoly_cache] at hk ⊢
  obtain ⟨hvalid, hsrc⟩ := drop_valid_iff.mp hk
  rw [drop_eq_self hsrc, writePoly_poly_ne s f hsrc]
  exact h k hvalid

theorem writeQuad_tagsTrue {s : State} (h : s.tagsTrue) (r : PReg) (f0 f1 f2 f3 : Poly) :
    (s.writeQuad r f0 f1 f2 f3).tagsTrue := by
  unfold State.writeQuad
  exact writePoly_tagsTrue (writePoly_tagsTrue (writePoly_tagsTrue (writePoly_tagsTrue h _ _) _ _) _ _) _ _

/-- The write of `MULCACHE` (R223): the new cache holds `mulcache_fn` of the register it is tagged with. -/
theorem writeCache_mulcache_tagsTrue {s : State} (h : s.tagsTrue) (k : CReg) (r : PReg) :
    (s.writeCache k (ofLanes 128 (mulcacheFn (lanes (s.poly r)))) r).tagsTrue := by
  intro k' hk'
  by_cases hk : k' = k
  · subst hk
    simp [lanes_mulcache]
  · rw [writeCache_cache_ne s _ _ hk] at hk' ⊢
    exact h k' hk'

/-! Every effect of a command, of a host access and of the reset event keeps the invariant. -/

theorem Effect.faultRecordTrue {i : Instr} {s t : State} (h : Effect i s t) (hs : s.faultRecordTrue) :
    t.faultRecordTrue := by
  cases h with
  | fault c => exact takeFault_faultRecordTrue c s
  | poly r f _ => exact finish_faultRecordTrue (s := s.writePoly r f) hs
  | quad r f0 f1 f2 f3 _ _ => exact finish_faultRecordTrue (s := s.writeQuad r f0 f1 f2 f3) hs
  | cache k r _ => exact finish_faultRecordTrue (s := s.writeCache k _ r) hs
  | buf off bytes _ _ => exact finish_faultRecordTrue (s := s.writeBuf off bytes) hs

theorem Effect.tagsTrue {i : Instr} {s t : State} (h : Effect i s t) (hs : s.tagsTrue) : t.tagsTrue := by
  cases h with
  | fault c => exact hs
  | poly r f _ => exact writePoly_tagsTrue hs r f
  | quad r f0 f1 f2 f3 _ _ => exact writeQuad_tagsTrue hs r f0 f1 f2 f3
  | cache k r _ => exact writeCache_mulcache_tagsTrue hs k r
  | buf off bytes _ _ => exact hs

theorem Effect.inv {i : Instr} {s t : State} (h : Effect i s t) (hs : s.Inv) : t.Inv := by
  obtain ⟨hwf, hfault, htags⟩ := hs
  exact ⟨h.wf hwf, h.faultRecordTrue hfault, h.tagsTrue htags⟩

theorem HostEffect.inv {s t : State} (h : HostEffect s t) (hs : s.Inv) : t.Inv := by
  obtain ⟨hwf, hfault, htags⟩ := hs
  cases h with
  | issue v h =>
    obtain ⟨-, hcause, -⟩ := hfault
    exact ⟨hwf, faultRecordTrue_of_no_fault h (hcause h), htags⟩
  | same => exact ⟨hwf, hfault, htags⟩
  | clear h => exact ⟨hwf, faultRecordTrue_of_no_fault rfl rfl, htags⟩
  | lane r i v => exact ⟨hwf, hfault, writePoly_tagsTrue htags r _⟩
  | bytes a l h => exact ⟨wf_memWrite hwf h, hfault, htags⟩

theorem busAccess_inv {s : State} (hs : s.Inv) (a : BusAccess) : (busAccess s a).Inv := by
  obtain ⟨t, ans, ht, he⟩ := busAccess_effect s a
  have hinv : t.Inv := ht.inv hs
  rw [he]
  exact hinv

theorem powerOn_inv (s : State) (l : Launch) : (s.powerOn l).Inv :=
  ⟨wf_ofBytes _, faultRecordTrue_of_no_fault rfl rfl, tagsTrue_of_none_valid fun k => by simp⟩

theorem hostEvent_inv {s : State} (hs : s.Inv) (e : HostEvent) : (hostEvent s e).Inv := by
  cases e with
  | access a => exact busAccess_inv hs a
  | reset l => exact powerOn_inv s l

/-- A step answers a next state with the invariant, whichever of the three things it is: an effect of the
engine, a move of the environment (the moves still to be made are no part of the invariant), or nothing. -/
theorem step_inv {s : State} (hs : s.Inv) : ∃ t, step s = .next t ∧ t.Inv := by
  obtain ⟨-, -, i, t, hstep, -, heff⟩ | ⟨m, rest, -, -, hstep⟩ | ⟨-, -, hstep⟩ := step_cases s
  · exact ⟨t, hstep, heff.inv hs⟩
  · exact ⟨_, hstep, hostEvent_inv (s := { s with host := rest }) hs m.event⟩
  · exact ⟨s, hstep, hs⟩

/-- Settles O59: a step has one answer, and `step_inv` gives it the invariant. -/
theorem invariantKept : Obligations.InvariantKept := by
  intro s t hs hst
  obtain ⟨t', hstep, hinv⟩ := step_inv hs
  obtain rfl := Host.Outcome.next.inj (hstep.symm.trans hst)
  exact hinv

/-! The state after reset (R34). -/

@[simp] theorem reset_cache (k : CReg) : State.reset.cache k = Cache.reset := by
  simp [State.cache, State.reset]

/-- Settles O58: `BUF` lists nothing, no fault is recorded and no tag is valid. -/
theorem invariantAtReset : Obligations.InvariantAtReset :=
  ⟨rfl, faultRecordTrue_of_no_fault rfl rfl, tagsTrue_of_none_valid fun k => by simp [Cache.reset]⟩

/-- Settles O56, field by field. -/
theorem resetValues : Obligations.ResetValues :=
  ⟨rfl, rfl, rfl, rfl, fun k => by simp [Cache.reset], rfl, by decide⟩

/-! Which caches a command or a host access can make valid (R25, R26). -/

theorem writePoly_cache_of_valid {s : State} {r : PReg} {f : Poly} {k : CReg}
    (h : ((s.writePoly r f).cache k).valid = true) : (s.writePoly r f).cache k = s.cache k := by
  rw [writePoly_cache] at h ⊢
  obtain ⟨-, hsrc⟩ := drop_valid_iff.mp h
  exact drop_eq_self hsrc

theorem writeQuad_cache_of_valid {s : State} {r : PReg} {f0 f1 f2 f3 : Poly} {k : CReg}
    (h : ((s.writeQuad r f0 f1 f2 f3).cache k).valid = true) :
    (s.writeQuad r f0 f1 f2 f3).cache k = s.cache k := by
  unfold State.writeQuad at h ⊢
  have e3 := writePoly_cache_of_valid h
  have e2 := writePoly_cache_of_valid (e3 ▸ h)
  have e1 := writePoly_cache_of_valid (e2 ▸ e3 ▸ h)
  have e0 := writePoly_cache_of_valid (e1 ▸ e2 ▸ e3 ▸ h)
  rw [e3, e2, e1, e0]

theorem Effect.cache_of_valid {i : Instr} {s t : State} {k : CReg} (h : Effect i s t)
    (hv : (t.cache k).valid = true) : (∃ ra, i = .mulcache k ra) ∨ t.cache k = s.cache k := by
  cases h with
  | fault c => exact .inr rfl
  | poly r f _ => exact .inr (writePoly_cache_of_valid (f := f) hv)
  | quad r f0 f1 f2 f3 _ _ => exact .inr (writeQuad_cache_of_valid (f3 := f3) hv)
  | cache k' r hi =>
    by_cases hk : k = k'
    · exact .inl ⟨r, hk ▸ hi⟩
    · exact .inr (writeCache_cache_ne s _ r hk)
  | buf off bytes _ _ => exact .inr rfl

theorem HostEffect.cache_frame {s t : State} (h : HostEffect s t) (k : CReg) :
    (t.cache k).data = (s.cache k).data ∧ (t.cache k).src = (s.cache k).src ∧
      ((t.cache k).valid = true → (s.cache k).valid = true) := by
  cases h with
  | issue v h => exact ⟨rfl, rfl, id⟩
  | same => exact ⟨rfl, rfl, id⟩
  | clear h => exact ⟨rfl, rfl, id⟩
  | lane r i v =>
    unfold State.writeLane
    rw [writePoly_cache]
    exact ⟨rfl, rfl, fun hv => (drop_valid_iff.mp hv).1⟩
  | bytes a l h => exact ⟨rfl, rfl, id⟩

/-- Settles O26: from what a command (`Effect`) and a host access (`HostEffect`) can do to a cache. -/
theorem onlyMulcacheValidates : Obligations.OnlyMulcacheValidates := by
  refine fun s k => ⟨fun i t hexec => (exec_effect hexec).cache_of_valid, fun a => ?_⟩
  obtain ⟨t, ans, ht, he⟩ := busAccess_effect s a
  rw [he]
  exact ht.cache_frame k

/-! The words of the control registers (R29 to R32). -/

theorem statusWord_lt (s : State) : (statusWord s).toNat < 4 := by
  have := Bool.toNat_lt s.busy
  have := Bool.toNat_lt s.fault
  simp only [statusWord, BitVec.toNat_ofNat]
  omega

theorem statusWord_busy (s : State) : (statusWord s).getLsbD 0 = s.busy := by
  cases hb : s.busy <;> cases hf : s.fault <;> simp [statusWord, hb, hf]

theorem statusWord_fault (s : State) : (statusWord s).getLsbD 1 = s.fault := by
  cases hb : s.busy <;> cases hf : s.fault <;> simp [statusWord, hb, hf]

theorem causeWord_toNat (s : State) : (causeWord s).toNat = s.fcause.toNat := by
  have := s.fcause.isLt
  simp only [causeWord, BitVec.toNat_ofNat]
  omega

theorem tagNibble_lt (c : Cache) : tagNibble c < 16 := by
  have := c.src.isLt
  have := Bool.toNat_lt c.valid
  unfold tagNibble
  omega

theorem tagNibble_valid (c : Cache) : (tagNibble c).testBit 3 = c.valid := by
  have hsrc : c.src.val / 8 = 0 := Nat.div_eq_of_lt c.src.isLt
  cases hv : c.valid <;> simp [tagNibble, Nat.testBit_eq_decide_div_mod_eq, hv] <;> omega

theorem tagNibble_src (c : Cache) : tagNibble c % 8 = c.src.val := by
  have := c.src.isLt
  unfold tagNibble
  omega

theorem tagNibbles_lt (s : State) : ∀ d ∈ s.caches.toList.map tagNibble, d < 16 := by
  intro d hd
  obtain ⟨c, -, rfl⟩ := List.mem_map.mp hd
  exact tagNibble_lt c

/-- `CTAGS` has the tag nibbles as its hexadecimal digits, lowest first; eight of them fill the 32 bits. -/
theorem tagsWord_toNat (s : State) :
    (tagsWord s).toNat = Nat.ofDigits 16 (s.caches.toList.map tagNibble) := by
  have hlt := Nat.ofDigits_lt_base_pow_length (by norm_num) (tagNibbles_lt s)
  simp only [List.length_map, Vector.length_toList] at hlt
  rw [tagsWord, BitVec.toNat_ofNat, ← Nat.mod_eq_of_lt hlt, Nat.ofDigits_eq_foldr, List.foldr_map]
  rfl

theorem ofDigits_digit {b : Nat} {l : List Nat} (hl : ∀ d ∈ l, d < b) (k : Nat) (hk : k < l.length) :
    Nat.ofDigits b l / b ^ k % b = l[k] := by
  have hb : 0 < b := Nat.zero_lt_of_lt (hl _ (List.getElem_mem hk))
  rw [Nat.ofDigits_div_pow_eq_ofDigits_drop k hb l hl, Nat.ofDigits_mod_eq_head!, List.drop_eq_getElem_cons hk]
  exact Nat.mod_eq_of_lt (hl _ (List.getElem_mem hk))

theorem tagsWord_nibble (s : State) (k : CReg) :
    (tagsWord s).toNat / 2 ^ (4 * k.val) % 16 = tagNibble (s.cache k) := by
  have hpow : 2 ^ (4 * k.val) = 16 ^ k.val := by rw [Nat.pow_mul]
  rw [tagsWord_toNat, hpow, ofDigits_digit (tagNibbles_lt s) k.val (by simp)]
  simp [State.cache]

theorem tagsWord_valid (s : State) (k : CReg) : (tagsWord s).getLsbD (4 * k.val + 3) = (s.cache k).valid := by
  rw [← tagNibble_valid, ← tagsWord_nibble, Nat.testBit_mod_two_pow _ 4 3, Nat.testBit_div_two_pow]
  simp [BitVec.getLsbD, Nat.add_comm]

theorem tagsWord_src (s : State) (k : CReg) :
    (tagsWord s).toNat / 2 ^ (4 * k.val) % 8 = (s.cache k).src.val := by
  rw [← tagNibble_src, ← tagsWord_nibble, Nat.mod_mod_of_dvd _ (by norm_num)]

/-- Settles O49, register by register. -/
theorem controlRegisterReads : Obligations.ControlRegisterReads := by
  intro s
  exact ⟨rfl, rfl, ⟨statusWord s, rfl, statusWord_busy s, statusWord_fault s, statusWord_lt s⟩,
    ⟨causeWord s, rfl, causeWord_toNat s⟩, ⟨tagsWord s, rfl, fun k => ⟨tagsWord_valid s k, tagsWord_src s k⟩⟩⟩

end Sys2Proof.Machine
end

section
/-! Proofs of the memory family (spec/20_memory.md): the order of the two agents, the legal accesses, the
windows, and what a command depends on. -/

namespace Sys2Proof.Machine

open Sys2Proof.Claim

/-! The engine step and the host's moves (R58 to R62). -/

/-- The engine step ends the command, whatever it does (R60). -/
theorem engineStep_ends (s : State) : ∃ t, engineStep s = .next t ∧
    t.busy = false ∧ t.cmd = s.cmd ∧ t.host = s.host ∧ t.answer = s.answer := by
  obtain ⟨i, t, hstep, heff, -⟩ := engineStep_lawful s
  obtain ⟨hcmd, hbusy, hhost, hanswer⟩ := heff.keeps
  exact ⟨t, hstep, hbusy, hcmd, hhost, hanswer⟩

theorem step_of_engineMoves {s : State} (h : engineMoves s) : step s = engineStep s :=
  let ⟨hbusy, hturn⟩ := h
  step_engine hbusy hturn

/-- Settles O5: the engine's turn, and the word that decodes. -/
theorem stepRunsDecodedCommand : Obligations.StepRunsDecodedCommand :=
  fun _ _ hmoves hdecode => (step_of_engineMoves hmoves).trans (engineStep_ok hdecode)

/-- Settles O7: the engine step ends the command; a move of the host and the idle step are next states. -/
theorem everyStepAnswersNext : Obligations.EveryStepAnswersNext := by
  intro s
  by_cases hmoves : engineMoves s
  · obtain ⟨t, hstep, hends⟩ := engineStep_ends s
    exact ⟨t, (step_of_engineMoves hmoves).trans hstep, fun _ => hends⟩
  · obtain ⟨hbusy, hturn, -⟩ | ⟨m, rest, -, -, hstep⟩ | ⟨-, -, hstep⟩ := step_cases s
    · exact absurd ⟨hbusy, hturn⟩ hmoves
    · exact ⟨_, hstep, fun h => absurd h hmoves⟩
    · exact ⟨_, hstep, fun h => absurd h hmoves⟩

/-- Settles O8, by the two laws of a step in which the engine does not move. -/
theorem hostMovesInOrder : Obligations.HostMovesInOrder :=
  fun _ => ⟨fun _ _ ⟨hhost, hturn⟩ => step_host hhost hturn, step_idle⟩

theorem writeCmd_of_no_fault {s : State} (h : s.fault = false) (w : Word) :
    writeCmd s w = { s with cmd := w, busy := true } := by
  simp [writeCmd, h]

theorem writeCmd_of_fault {s : State} (h : s.fault = true) (w : Word) : writeCmd s w = s := by
  simp [writeCmd, h]

theorem busAccess_write_cmd (s : State) (w : Word) :
    busAccess s (.write 0x0004 (.b32 w)) = { writeCmd s w with answer := some .done } := rfl

/-- Settles O47: the write is the next host move, and `FAULT` decides what it does. -/
theorem commandWrite : Obligations.CommandWrite := by
  intro s w early rest hbusy hhost
  have hstep := step_host hhost (.inl hbusy)
  simp only [hostEvent, busAccess_write_cmd] at hstep
  refine ⟨fun hf => ?_, fun hf => ?_⟩
  · rw [hstep, writeCmd_of_no_fault (s := { s with host := rest }) hf]
  · rw [hstep, writeCmd_of_fault (s := { s with host := rest }) hf]

/-! The legal accesses (R54). -/

theorem bufWindow_isSome_iff (n off : Nat) : (bufWindow n off).isSome = true ↔ inBuf n off := by
  simp [bufWindow, inBuf]

theorem polyWindow_isSome_iff (off : Nat) : (polyWindow off).isSome = true ↔ inPolys off := by
  simp [polyWindow, inPolys]

theorem cacheWindow_isSome_iff (off : Nat) : (cacheWindow off).isSome = true ↔ inCaches off := by
  simp [cacheWindow, inCaches]

theorem isControl_iff (off : Nat) :
    isControl off = true ↔ off ∈ [0x0000, 0x0004, 0x0008, 0x000C, 0x0010] := by
  simp [isControl, or_assoc]

/-- The model's check is the list of R54. -/
theorem isLegal_iff (a : BusAccess) : a.isLegal = true ↔ legal a := by
  cases a with
  | read w off =>
    cases w with
    | w8 => exact bufWindow_isSome_iff 1 off
    | w16 =>
      simp only [BusAccess.isLegal, legal, Bool.or_eq_true, polyWindow_isSome_iff, cacheWindow_isSome_iff,
        bufWindow_isSome_iff, or_assoc]
    | w32 => simp only [BusAccess.isLegal, legal, Bool.or_eq_true, isControl_iff, bufWindow_isSome_iff]
  | write off d =>
    cases d with
    | b8 v => exact bufWindow_isSome_iff 1 off
    | b16 v => simp only [BusAccess.isLegal, legal, Bool.or_eq_true, polyWindow_isSome_iff, bufWindow_isSome_iff]
    | b32 v =>
      simp only [BusAccess.isLegal, legal, Bool.or_eq_true, beq_iff_eq, bufWindow_isSome_iff, or_assoc]

/-- A legal access is answered with data or `done`. -/
theorem busAccess_answer_of_legal {s : State} {a : BusAccess} (h : a.isLegal = true) :
    (busAccess s a).answer ≠ some .error := by
  cases a with
  | read w off =>
    rw [← busRead_isSome s] at h
    obtain ⟨d, hd⟩ := Option.isSome_iff_exists.mp h
    simp [busAccess, hd]
  | write off d =>
    rw [← busWrite_isSome s] at h
    obtain ⟨t, ht⟩ := Option.isSome_iff_exists.mp h
    simp [busAccess, ht]

/-- Settles O52: the model's check is R54's list, and it decides the answer. -/
theorem illegalAccess : Obligations.IllegalAccess := by
  intro s a
  rw [← isLegal_iff, Bool.not_eq_true]
  exact ⟨busAccess_of_illegal, busAccess_answer_of_legal⟩

/-! The accesses that are not held (R59). -/

theorem isControlRead_read32_iff (off : Nat) : isControlRead (.read .w32 off) ↔ isControl off = true := by
  rw [isControl_iff]
  constructor
  · rintro ⟨off', hmem, heq⟩
    obtain ⟨-, rfl⟩ := BusAccess.read.inj heq
    exact hmem
  · exact fun hmem => ⟨off, hmem, rfl⟩

/-- A legal access that is not held is a read of a control register. -/
theorem completesWhileBusy_iff {a : BusAccess} (h : legal a) :
    a.completesWhileBusy = true ↔ isControlRead a := by
  have hlegal := (isLegal_iff a).mpr h
  cases a with
  | read w off =>
    cases w with
    | w32 => simp [BusAccess.completesWhileBusy, hlegal, isControlRead_read32_iff]
    | w16 => simp [BusAccess.completesWhileBusy, hlegal, isControlRead]
    | w8 => simp [BusAccess.completesWhileBusy, hlegal, isControlRead]
  | write off d => simp [BusAccess.completesWhileBusy, hlegal, isControlRead]

theorem isEarly_iff {a : BusAccess} (h : legal a) (early : Bool) :
    (HostMove.mk (.access a) early).isEarly = true ↔ early = true ∧ isControlRead a := by
  simp [HostMove.isEarly, HostEvent.mayBeEarly, completesWhileBusy_iff h]

/-- A legal access waits for the engine when it is held or its flag says so. -/
theorem engineMoves_of_waiting {s : State} {a : BusAccess} {early : Bool} {rest : List HostMove}
    (hbusy : s.busy = true) (hhost : s.host = ⟨.access a, early⟩ :: rest) (hlegal : legal a)
    (hwait : ¬(early = true ∧ isControlRead a)) : engineMoves s := by
  refine ⟨hbusy, fun m rest' h => ?_⟩
  obtain ⟨rfl, -⟩ := List.cons.inj (hhost.symm.trans h)
  rwa [← isEarly_iff hlegal, Bool.not_eq_true] at hwait

/-- Settles O48: a held access, and a control read whose flag says so, leave the turn to the engine. -/
theorem heldAccesses : Obligations.HeldAccesses := by
  intro s a early rest hbusy hhost hlegal
  have waits := engineMoves_of_waiting hbusy hhost hlegal
  refine ⟨fun hheld => ?_, fun hread hearly => ?_, fun _ hlate => ?_⟩
  · have hstep := step_of_engineMoves (waits fun h => hheld h.2)
    obtain ⟨t, hnext, hidle, -, hkept, -⟩ := engineStep_ends s
    exact ⟨hstep, t, hstep.trans hnext, hidle, hkept⟩
  · exact step_host hhost (.inr ((isEarly_iff hlegal early).mpr ⟨hearly, hread⟩))
  · exact step_of_engineMoves (waits fun h => by simp [hlate] at h)

/-! Reads (R56). -/

/-- What a read is answered with: its data if it is legal, the error response otherwise. -/
def readAnswer (s : State) (w : Width) (off : Nat) : BusAnswer :=
  match busRead s w off with
  | some d => .data d
  | none => .error

theorem busAccess_read (s : State) (w : Width) (off : Nat) :
    busAccess s (.read w off) = { s with answer := some (readAnswer s w off) } := by
  cases h : busRead s w off <;> simp [busAccess, readAnswer, h]

/-- The data of a read does not depend on the last answer. -/
theorem readAnswer_answer (s : State) (ans : Option BusAnswer) (w : Width) (off : Nat) :
    readAnswer { s with answer := ans } w off = readAnswer s w off := rfl

/-- Settles O53: a read changes the answer, which no read depends on. -/
theorem readsHaveNoSideEffect : Obligations.ReadsHaveNoSideEffect := by
  intro s w off
  refine ⟨readAnswer s w off, busAccess_read s w off, ?_⟩
  simp only [busAccess_read, readAnswer_answer]

/-! The `P` and `C` windows, lane by lane (R51, R52, R66). -/

theorem writePoly_tagsAfter (s : State) (r : PReg) (f : Poly) : tagsAfter (fun q => q = r) s (s.writePoly r f) := by
  intro k
  rw [writePoly_cache]
  exact ⟨rfl, rfl, drop_valid_iff⟩

theorem writeLane_tagsAfter (s : State) (r : PReg) (i : Nat) (v : Lane) :
    tagsAfter (fun q => q = r) s (s.writeLane r i v) := writePoly_tagsAfter s r _

theorem writeLane_poly_ne (s : State) {r q : PReg} (i : Nat) (v : Lane) (h : q ≠ r) :
    (s.writeLane r i v).poly q = s.poly q := writePoly_poly_ne s _ h

theorem lane_setIfInBounds {n : Nat} (v : Vector Lane n) (i j : Nat) (x : Lane) :
    lane (v.setIfInBounds i x) j = if i = j ∧ j < n then x.toInt else lane v j := by
  by_cases hj : j < n
  · by_cases hij : i = j <;> simp [lane, hj, hij]
  · simp [lane, hj]

theorem writeLane_lane_self (s : State) (r : PReg) {i : Nat} (hi : i < 256) (v : Lane) :
    lane ((s.writeLane r i v).poly r) i = v.toInt := by
  simp [State.writeLane, lane_setIfInBounds, hi]

theorem writeLane_lane_ne (s : State) (r : PReg) {i j : Nat} (hj : j ≠ i) (v : Lane) :
    lane ((s.writeLane r i v).poly r) j = lane (s.poly r) j := by
  simp [State.writeLane, lane_setIfInBounds, hj.symm]

theorem busRead_polyWindow (s : State) (r : PReg) {i : Nat} (hi : i < 256) :
    busRead s .w16 (0x1000 + 0x200 * r.val + 2 * i) = some (.b16 (lanePattern (s.poly r) i)) := by
  simp [busRead, polyWindow_lane r hi]

theorem busRead_cacheWindow (s : State) (k : CReg) {p : Nat} (hp : p < 128) :
    busRead s .w16 (0x2000 + 0x100 * k.val + 2 * p) = some (.b16 (lanePattern (s.cache k).data p)) := by
  simp [busRead, polyWindow_high (show 0x2000 ≤ 0x2000 + 0x100 * k.val + 2 * p by omega), cacheWindow_lane k hp]

theorem busAccess_write_polyWindow (s : State) (r : PReg) {i : Nat} (hi : i < 256) (v : BitVec 16) :
    busAccess s (.write (0x1000 + 0x200 * r.val + 2 * i) (.b16 v)) =
      { s.writeLane r i v with answer := some .done } := by
  simp [busAccess, busWrite, polyWindow_lane r hi]

/-- Settles O50: a write in the `P` window is `writeLane`, a write of its register as far as the tags go. -/
theorem laneWindows : Obligations.LaneWindows := by
  refine fun s => ⟨fun r i hi => ⟨?_, fun v => ?_⟩, fun k p hp => ?_⟩
  · exact ⟨_, busRead_polyWindow s r hi, lanePattern_toInt _ _⟩
  · refine ⟨_, busAccess_write_polyWindow s r hi v, ?_⟩
    exact ⟨writeLane_lane_self s r hi v, fun j hj => writeLane_lane_ne s r hj v,
      fun q => writeLane_poly_ne s i v, writeLane_tagsAfter s r i v, fun _ => rfl, rfl, rfl, rfl, rfl, rfl, rfl⟩
  · exact ⟨_, busRead_cacheWindow s k hp, lanePattern_toInt _ _⟩

/-! The `BUF` window at its three widths (R52, R54). -/

/-- The bytes of a little-endian value, lowest address first (R52). -/
def bytesLE {w : Nat} (n : Nat) (v : BitVec w) : List Byte := (List.range n).map (byteOf v)

@[simp] theorem bytesLE_length {w : Nat} (n : Nat) (v : BitVec w) : (bytesLE n v).length = n := by
  simp [bytesLE]

theorem bytesLE_getD {w n j : Nat} (v : BitVec w) (hj : j < n) : (bytesLE n v).getD j 0#8 = byteOf v j := by
  simp [bytesLE, hj]

/-- A byte of a value just written. -/
theorem read_memWrite_bytesLE {w n j : Nat} (m : Memory) (a : Nat) (v : BitVec w) (hj : j < n) :
    (Memory.read (memWrite m a (bytesLE n v)) (a + j)).toNat = v.toNat / 2 ^ (8 * j) % 256 := by
  rw [read_memWrite, if_pos (by simpa using hj), Nat.add_sub_cancel_left, bytesLE_getD v hj, byteOf_toNat]

theorem read_memWrite_bytesLE_outside {w n a x : Nat} (m : Memory) (v : BitVec w) (h : ¬(a ≤ x ∧ x < a + n)) :
    Memory.read (memWrite m a (bytesLE n v)) x = Memory.read m x := by
  rw [read_memWrite, bytesLE_length, if_neg h]

/-- A byte of the value of the `n` bytes read at `a`. -/
theorem ofBytesLE_memRead_byte (m : Memory) (a n : Nat) {j : Nat} (hj : j < n) :
    (BitVec.ofNat (8 * n) (ofBytesLE (memRead m a n))).toNat / 2 ^ (8 * j) % 256 =
      (Memory.read m (a + j)).toNat := by
  have hlt : ofBytesLE (memRead m a n) < 2 ^ (8 * n) := by simpa using ofBytesLE_lt (memRead m a n)
  rw [BitVec.toNat_ofNat, Nat.mod_eq_of_lt hlt, ofBytesLE_byte _ j (by simpa using hj), memRead_getD m a n j hj]

section
variable (s : State) {a : Nat} (ha : a < 2048)
include ha

theorem busRead_buf8 : busRead s .w8 (0x2800 + a) = some (.b8 (Memory.read s.buf a)) := by
  simp [busRead, bufWindow_at ha (n := 1) rfl (Nat.mod_one a)]

theorem busRead_buf16 (h : a % 2 = 0) :
    busRead s .w16 (0x2800 + a) = some (.b16 (BitVec.ofNat 16 (ofBytesLE (memRead s.buf a 2)))) := by
  simp [busRead, polyWindow_high (show 0x2000 ≤ 0x2800 + a by omega),
    cacheWindow_high (show 0x2800 ≤ 0x2800 + a by omega), bufWindow_at ha rfl h]

theorem busRead_buf32 (h : a % 4 = 0) :
    busRead s .w32 (0x2800 + a) = some (.b32 (BitVec.ofNat 32 (ofBytesLE (memRead s.buf a 4)))) := by
  simp [busRead, readControl_high s (show 0x11 ≤ 0x2800 + a by omega), bufWindow_at ha rfl h]

theorem busAccess_write_buf8 (v : BitVec 8) :
    busAccess s (.write (0x2800 + a) (.b8 v)) = { s.writeBuf a [v] with answer := some .done } := by
  simp [busAccess, busWrite, bufWindow_at ha (n := 1) rfl (Nat.mod_one a)]

theorem busAccess_write_buf16 (h : a % 2 = 0) (v : BitVec 16) :
    busAccess s (.write (0x2800 + a) (.b16 v)) = { s.writeBuf a (bytesLE 2 v) with answer := some .done } := by
  simp only [busAccess, busWrite, polyWindow_high (show 0x2000 ≤ 0x2800 + a by omega), bufWindow_at ha rfl h]
  rfl

theorem busWrite_buf32 (h : a % 4 = 0) (v : BitVec 32) :
    busWrite s (0x2800 + a) (.b32 v) = some (s.writeBuf a (bytesLE 4 v)) := by
  simp only [busWrite, bufWindow_at ha rfl h]
  split
  · omega
  · omega
  · next heq _ _ => obtain rfl := Option.some.inj heq; rfl
  · next heq _ _ => exact absurd heq (by simp)

theorem busAccess_write_buf32 (h : a % 4 = 0) (v : BitVec 32) :
    busAccess s (.write (0x2800 + a) (.b32 v)) = { s.writeBuf a (bytesLE 4 v) with answer := some .done } := by
  simp only [busAccess, busWrite_buf32 s ha h v]

end

theorem writeBuf_onlyBufWritten (s : State) (a : Nat) (l : List Byte) :
    onlyBufWritten s { s.writeBuf a l with answer := some .done } :=
  ⟨fun _ => rfl, fun _ => rfl, rfl, rfl, rfl, rfl, rfl, rfl⟩

/-- Settles O51: at each width an access reads or writes the bytes at its offset, and no other. -/
theorem bufWindow_littleEndian : Obligations.BufWindow := by
  refine fun s a => ⟨fun ha => ?_, fun ha h => ?_, fun ha h => ?_⟩
  · refine ⟨busRead_buf8 s ha, fun v => ⟨_, busAccess_write_buf8 s ha v, ?_⟩⟩
    exact ⟨by simp [memWrite, read_write], fun x hx => by simp [memWrite, read_write, hx],
      writeBuf_onlyBufWritten s a _⟩
  · refine ⟨⟨_, busRead_buf16 s ha h, fun j => ofBytesLE_memRead_byte s.buf a 2⟩,
      fun v => ⟨_, busAccess_write_buf16 s ha h v, ?_⟩⟩
    exact ⟨fun j => read_memWrite_bytesLE s.buf a v, fun x => read_memWrite_bytesLE_outside s.buf v,
      writeBuf_onlyBufWritten s a _⟩
  · refine ⟨⟨_, busRead_buf32 s ha h, fun j => ofBytesLE_memRead_byte s.buf a 4⟩,
      fun v => ⟨_, busAccess_write_buf32 s ha h v, ?_⟩⟩
    exact ⟨fun j => read_memWrite_bytesLE s.buf a v, fun x => read_memWrite_bytesLE_outside s.buf v,
      writeBuf_onlyBufWritten s a _⟩

/-! What a command depends on (R70, R33): two states that agree on the registers, the caches, the fault record
and the bytes of a region keep agreeing, whatever else they hold. -/

/-- The states agree on what a command with this region of `BUF` may look at. -/
structure Agree (reg : Option (Nat × Nat)) (s s' : State) : Prop where
  poly : ∀ r, s'.poly r = s.poly r
  cache : ∀ k, s'.cache k = s.cache k
  fault : s'.fault = s.fault
  fcause : s.fault = true → s'.fcause = s.fcause
  bytes : ∀ off len, reg = some (off, len) →
    ∀ a, off ≤ a → a < off + len → Memory.read s'.buf a = Memory.read s.buf a

/-- Both results are next states, and they agree. -/
def ResultsAgree (reg : Option (Nat × Nat)) (k k' : Result) : Prop :=
  ∃ t t', k = .next t ∧ k' = .next t' ∧ Agree reg t t'

section
variable {reg : Option (Nat × Nat)} {s s' : State}

theorem Agree.finish (h : Agree reg s s') : Agree reg s.finish s'.finish :=
  ⟨h.poly, h.cache, h.fault, h.fcause, h.bytes⟩

theorem Agree.takeFault (h : Agree reg s s') (c : Cause) : Agree reg (s.takeFault c) (s'.takeFault c) :=
  ⟨h.poly, h.cache, rfl, fun _ => rfl, h.bytes⟩

theorem Agree.writePoly (h : Agree reg s s') (r : PReg) (f : Poly) :
    Agree reg (s.writePoly r f) (s'.writePoly r f) :=
  ⟨fun q => by simp only [writePoly_poly, h.poly], fun k => by simp only [writePoly_cache, h.cache],
    h.fault, h.fcause, h.bytes⟩

theorem Agree.writeQuad (h : Agree reg s s') (r : PReg) (f0 f1 f2 f3 : Poly) :
    Agree reg (s.writeQuad r f0 f1 f2 f3) (s'.writeQuad r f0 f1 f2 f3) :=
  (((h.writePoly r f0).writePoly (r + 1) f1).writePoly (r + 2) f2).writePoly (r + 3) f3

theorem Agree.writeCache (h : Agree reg s s') (k : CReg) (d : Vector Lane 128) (src : PReg) :
    Agree reg (s.writeCache k d src) (s'.writeCache k d src) :=
  ⟨h.poly, fun k' => by simp only [writeCache_cache, h.cache], h.fault, h.fcause, h.bytes⟩

theorem Agree.writeBuf (h : Agree reg s s') (off : Nat) (l : List Byte) :
    Agree reg (s.writeBuf off l) (s'.writeBuf off l) := by
  refine ⟨h.poly, h.cache, h.fault, h.fcause, fun lo len hreg a hlo hhi => ?_⟩
  simp only [writeBuf_buf, read_memWrite, h.bytes lo len hreg a hlo hhi]

/-- The bytes of a part of the region. -/
theorem Agree.memRead {lo len : Nat} (h : Agree (some (lo, len)) s s') {off n : Nat} (hlo : lo ≤ off)
    (hhi : off + n ≤ lo + len) : memRead s'.buf off n = memRead s.buf off n :=
  memRead_congr fun a ha ha' => h.bytes lo len rfl a (by omega) (by omega)

theorem Agree.fieldsAt {d : Nat} {off : Offset} (h : Agree (some (off.toNat, 32 * d)) s s') :
    fieldsAt d off s' = fieldsAt d off s := by
  rw [Machine.fieldsAt, h.memRead le_rfl le_rfl, Machine.fieldsAt]

theorem Agree.noiseAt {lo len : Nat} (h : Agree (some (lo, len)) s s') {at_ : Nat} (hlo : lo ≤ at_)
    (hhi : at_ + 33 ≤ lo + len) (xof : Sponge) (eta : Nat) : noiseAt xof eta at_ s' = noiseAt xof eta at_ s := by
  rw [Machine.noiseAt, h.memRead hlo hhi, Machine.noiseAt]

theorem Agree.cachedProduct (h : Agree reg s s') (ra rb : PReg) (cc : CReg) :
    cachedProduct ra rb cc s' = cachedProduct ra rb cc s := by
  simp only [Machine.cachedProduct, h.poly, h.cache]

/-! Completing, and the checks: equal conditions take equal branches. -/

theorem agree_complete (h : Agree reg s s') : ResultsAgree reg (complete s) (complete s') :=
  ⟨_, _, rfl, rfl, h.finish⟩

theorem agree_completePoly (h : Agree reg s s') (r : PReg) (f : List Int) :
    ResultsAgree reg (completePoly r f s) (completePoly r f s') :=
  agree_complete (h.writePoly r (ofLanes 256 f))

theorem agree_check (h : Agree reg s s') {p : Prop} [Decidable p] {c : Cause} {k k' : Result}
    (hk : ResultsAgree reg k k') :
    ResultsAgree reg (if p then k else raise c s) (if p then k' else raise c s') := by
  split
  · exact hk
  · exact ⟨_, _, rfl, rfl, h.takeFault c⟩

variable {k k' : Result} (h : Agree reg s s') (hk : ResultsAgree reg k k')
include h hk

theorem agree_checkQuad (r : PReg) : ResultsAgree reg (checkQuad r s k) (checkQuad r s' k') :=
  agree_check h hk

theorem agree_checkRegion (off : Offset) (len : Nat) :
    ResultsAgree reg (checkRegion off len s k) (checkRegion off len s' k') :=
  agree_check h hk

theorem agree_checkFits (v : List Int) : ResultsAgree reg (checkFits v s k) (checkFits v s' k') :=
  agree_check h hk

theorem agree_checkResidues (v : List Nat) : ResultsAgree reg (checkResidues v s k) (checkResidues v s' k') :=
  agree_check h hk

theorem agree_checkTag (cc : CReg) (rb : PReg) :
    ResultsAgree reg (checkTag cc rb s k) (checkTag cc rb s' k') := by
  unfold checkTag
  rw [h.cache]
  exact agree_check h hk

theorem agree_checkCanonical (r : PReg) :
    ResultsAgree reg (checkCanonical r s k) (checkCanonical r s' k') := by
  unfold checkCanonical
  rw [h.poly]
  exact agree_check h hk

end

/-! The shared operations of the format M commands. -/

section
variable {off : Offset} {s s' : State}

theorem agree_encodeTo {d : Nat} (h : Agree (some (off.toNat, 32 * d)) s s') (field : Int → Int) (r : PReg) :
    ResultsAgree (some (off.toNat, 32 * d)) (encodeTo d field r off s) (encodeTo d field r off s') := by
  unfold encodeTo
  rw [h.poly]
  exact agree_checkRegion h (agree_checkCanonical h (agree_complete (h.writeBuf _ _)) r) off _

theorem agree_decompressFrom {d : Nat} (h : Agree (some (off.toNat, 32 * d)) s s') (r : PReg) :
    ResultsAgree (some (off.toNat, 32 * d)) (decompressFrom d r off s) (decompressFrom d r off s') := by
  unfold decompressFrom
  rw [h.fieldsAt]
  exact agree_checkRegion h (agree_completePoly h r _) off _

theorem agree_cbdFrom {eta : Nat} (h : Agree (some (off.toNat, 64 * eta)) s s') (r : PReg) :
    ResultsAgree (some (off.toNat, 64 * eta)) (cbdFrom eta r off s) (cbdFrom eta r off s') := by
  unfold cbdFrom
  rw [h.memRead le_rfl le_rfl]
  exact agree_checkRegion h (agree_completePoly h r _) off _

theorem agree_noiseFrom (h : Agree (some (off.toNat, 33)) s s') (xof : Sponge) (eta : Nat) (r : PReg) :
    ResultsAgree (some (off.toNat, 33)) (noiseFrom xof eta r off s) (noiseFrom xof eta r off s') := by
  unfold noiseFrom
  rw [h.noiseAt le_rfl le_rfl]
  exact agree_checkRegion h (agree_completePoly h r _) off _

theorem agree_noiseQuad (h : Agree (some (off.toNat, 132)) s s') (xof : Sponge) (e0 e1 e2 e3 : Nat) (r : PReg) :
    ResultsAgree (some (off.toNat, 132)) (noiseQuad xof e0 e1 e2 e3 r off s)
      (noiseQuad xof e0 e1 e2 e3 r off s') := by
  unfold noiseQuad
  rw [h.noiseAt (at_ := off.toNat) (by omega) (by omega), h.noiseAt (at_ := off.toNat + 33) (by omega) (by omega),
    h.noiseAt (at_ := off.toNat + 66) (by omega) (by omega), h.noiseAt (at_ := off.toNat + 99) (by omega) (by omega)]
  exact agree_checkQuad h (agree_checkRegion h (agree_complete (h.writeQuad r _ _ _ _)) off _) r

theorem agree_execFrombytes (h : Agree (some (off.toNat, 384)) s s') (r : PReg) :
    ResultsAgree (some (off.toNat, 384)) (execFrombytes r off s) (execFrombytes r off s') := by
  unfold execFrombytes
  rw [h.fieldsAt (d := 12)]
  exact agree_checkRegion h (agree_checkResidues h (agree_completePoly h r _) _) off _

theorem agree_execFrommsg (h : Agree (some (off.toNat, 32)) s s') (r : PReg) :
    ResultsAgree (some (off.toNat, 32)) (execFrommsg r off s) (execFrommsg r off s') := by
  unfold execFrommsg
  rw [h.memRead le_rfl le_rfl]
  exact agree_checkRegion h (agree_completePoly h r _) off _

end

/-- Every command keeps two states in agreement on the registers, the caches and its own region. -/
theorem exec_agree {i : Instr} {s s' : State} (h : Agree (region i) s s') :
    ResultsAgree (region i) (exec i s) (exec i s') := by
  cases i with
  | add rd ra rb =>
    simp only [exec, execAdd, h.poly]
    exact agree_checkFits h (agree_completePoly h rd _) _
  | sub rd ra rb =>
    simp only [exec, execSub, h.poly]
    exact agree_checkFits h (agree_completePoly h rd _) _
  | reduce rd =>
    simp only [exec, execReduce, h.poly]
    exact agree_completePoly h rd _
  | touns rd =>
    simp only [exec, execTouns, h.poly]
    exact agree_checkCanonical h (agree_completePoly h rd _) rd
  | tomont rd =>
    simp only [exec, execTomont, h.poly]
    exact agree_completePoly h rd _
  | ntt rd =>
    simp only [exec, execNtt, h.poly]
    exact agree_checkCanonical h (agree_completePoly h rd _) rd
  | intt rd =>
    simp only [exec, execIntt, h.poly]
    exact agree_completePoly h rd _
  | mulcache cd ra =>
    simp only [exec, execMulcache, h.poly]
    exact agree_complete (h.writeCache cd _ ra)
  | basemul rd ra rb cc =>
    simp only [exec, execBasemul, h.cachedProduct]
    exact agree_checkTag h (agree_checkFits h (agree_completePoly h rd _) _) cc rb
  | basemulacc rd ra rb cc =>
    simp only [exec, execBasemulacc, h.cachedProduct, h.poly]
    exact agree_checkTag h (agree_checkFits h (agree_checkFits h (agree_completePoly h rd _) _) _) cc rb
  | tobytes r off => unfold exec execTobytes; exact agree_encodeTo (d := 12) h _ r
  | frombytes r off => exact agree_execFrombytes h r
  | tomsg r off => unfold exec execTomsg; exact agree_encodeTo (d := 1) h _ r
  | frommsg r off => exact agree_execFrommsg h r
  | compress4 r off => unfold exec execCompress4; exact agree_encodeTo (d := 4) h _ r
  | compress5 r off => unfold exec execCompress5; exact agree_encodeTo (d := 5) h _ r
  | compress10 r off => unfold exec execCompress10; exact agree_encodeTo (d := 10) h _ r
  | compress11 r off => unfold exec execCompress11; exact agree_encodeTo (d := 11) h _ r
  | decompress4 r off => unfold exec execDecompress4; exact agree_decompressFrom (d := 4) h r
  | decompress5 r off => unfold exec execDecompress5; exact agree_decompressFrom (d := 5) h r
  | decompress10 r off => unfold exec execDecompress10; exact agree_decompressFrom (d := 10) h r
  | decompress11 r off => unfold exec execDecompress11; exact agree_decompressFrom (d := 11) h r
  | cbd2 r off => unfold exec execCbd2; exact agree_cbdFrom (eta := 2) h r
  | cbd3 r off => unfold exec execCbd3; exact agree_cbdFrom (eta := 3) h r
  | getnoise2 r off => unfold exec execGetnoise2; exact agree_noiseFrom h _ 2 r
  | getnoise3 r off => unfold exec execGetnoise3; exact agree_noiseFrom h _ 3 r
  | getnoise4x2 r off => unfold exec execGetnoise4x2; exact agree_noiseQuad h _ 2 2 2 2 r
  | getnoise4x3 r off => unfold exec execGetnoise4x3; exact agree_noiseQuad h _ 3 3 3 3 r
  | getnoise4xmix r off => unfold exec execGetnoise4xmix; exact agree_noiseQuad h _ 3 3 2 2 r

/-- Settles O55: two states with no fault that agree before the command agree after it. -/
theorem readFootprint : Obligations.ReadFootprint := by
  intro i s s' t t' hpoly hcache hbytes hfault hfault' hexec hexec'
  have hbefore : Agree (region i) s s' :=
    ⟨hpoly, hcache, hfault'.trans hfault.symm, fun hf => absurd (hfault.symm.trans hf) (by decide), hbytes⟩
  obtain ⟨u, u', hu, hu', hafter⟩ := exec_agree hbefore
  obtain rfl := Host.Outcome.next.inj (hexec.symm.trans hu)
  obtain rfl := Host.Outcome.next.inj (hexec'.symm.trans hu')
  exact ⟨hafter.poly, hafter.cache, hafter.fault, hafter.fcause, hafter.bytes⟩

end Sys2Proof.Machine
end


section
/-! Proofs of the encoding family (spec/30_encoding.md): the decoder opcode by opcode (R83), the round trip of
well-formed commands (R81), and which of the 2^32 words are no command (R84, R88, R91). -/

namespace Sys2Proof

open Sys2Proof.Machine Sys2Proof.Claim Sys2Proof.Laws

/-! The map R83: each opcode's format and command. -/

section
variable {w : Word}

theorem decode_add (h : bits w 0 8 = 0x01) : decode w = decodeR3 w .add := by simp only [decode, h]
theorem decode_sub (h : bits w 0 8 = 0x02) : decode w = decodeR3 w .sub := by simp only [decode, h]
theorem decode_reduce (h : bits w 0 8 = 0x03) : decode w = decodeR1 w .reduce := by simp only [decode, h]
theorem decode_touns (h : bits w 0 8 = 0x04) : decode w = decodeR1 w .touns := by simp only [decode, h]
theorem decode_tomont (h : bits w 0 8 = 0x05) : decode w = decodeR1 w .tomont := by simp only [decode, h]
theorem decode_ntt (h : bits w 0 8 = 0x08) : decode w = decodeR1 w .ntt := by simp only [decode, h]
theorem decode_intt (h : bits w 0 8 = 0x09) : decode w = decodeR1 w .intt := by simp only [decode, h]
theorem decode_mulcache (h : bits w 0 8 = 0x0C) : decode w = decodeRC w .mulcache := by simp only [decode, h]
theorem decode_basemul (h : bits w 0 8 = 0x0D) : decode w = decodeR4 w .basemul := by simp only [decode, h]
theorem decode_basemulacc (h : bits w 0 8 = 0x0E) : decode w = decodeR4 w .basemulacc := by simp only [decode, h]
theorem decode_tobytes (h : bits w 0 8 = 0x10) : decode w = decodeM w .tobytes := by simp only [decode, h]
theorem decode_frombytes (h : bits w 0 8 = 0x11) : decode w = decodeM w .frombytes := by simp only [decode, h]
theorem decode_tomsg (h : bits w 0 8 = 0x12) : decode w = decodeM w .tomsg := by simp only [decode, h]
theorem decode_frommsg (h : bits w 0 8 = 0x13) : decode w = decodeM w .frommsg := by simp only [decode, h]
theorem decode_compress4 (h : bits w 0 8 = 0x14) : decode w = decodeM w .compress4 := by simp only [decode, h]
theorem decode_compress5 (h : bits w 0 8 = 0x15) : decode w = decodeM w .compress5 := by simp only [decode, h]
theorem decode_compress10 (h : bits w 0 8 = 0x16) : decode w = decodeM w .compress10 := by simp only [decode, h]
theorem decode_compress11 (h : bits w 0 8 = 0x17) : decode w = decodeM w .compress11 := by simp only [decode, h]
theorem decode_decompress4 (h : bits w 0 8 = 0x18) : decode w = decodeM w .decompress4 := by simp only [decode, h]
theorem decode_decompress5 (h : bits w 0 8 = 0x19) : decode w = decodeM w .decompress5 := by simp only [decode, h]
theorem decode_decompress10 (h : bits w 0 8 = 0x1A) : decode w = decodeM w .decompress10 := by simp only [decode, h]
theorem decode_decompress11 (h : bits w 0 8 = 0x1B) : decode w = decodeM w .decompress11 := by simp only [decode, h]
theorem decode_cbd2 (h : bits w 0 8 = 0x20) : decode w = decodeM w .cbd2 := by simp only [decode, h]
theorem decode_cbd3 (h : bits w 0 8 = 0x21) : decode w = decodeM w .cbd3 := by simp only [decode, h]
theorem decode_getnoise2 (h : bits w 0 8 = 0x22) : decode w = decodeM w .getnoise2 := by simp only [decode, h]
theorem decode_getnoise3 (h : bits w 0 8 = 0x23) : decode w = decodeM w .getnoise3 := by simp only [decode, h]
theorem decode_getnoise4x2 (h : bits w 0 8 = 0x24) : decode w = decodeQuad w .getnoise4x2 :=
  by simp only [decode, h]
theorem decode_getnoise4x3 (h : bits w 0 8 = 0x25) : decode w = decodeQuad w .getnoise4x3 :=
  by simp only [decode, h]
theorem decode_getnoise4xmix (h : bits w 0 8 = 0x26) : decode w = decodeQuad w .getnoise4xmix :=
  by simp only [decode, h]

theorem decode_unlisted (h : ∀ row ∈ rows, bits w 0 8 ≠ row.1) : decode w = .error .illegalOpcode := by
  have hop : bits w 0 8 ∉ rows.map Prod.fst := by
    rw [List.mem_map]
    exact fun ⟨row, hmem, hrow⟩ => h row hmem hrow.symm
  unfold decode
  split
  case h_30 => rfl
  all_goals
    next hbyte =>
      rw [hbyte] at hop
      exact absurd (by decide) hop

end

/-! The round trip (R81, R83). -/

/-- Settles O2: the low byte of the word picks the command's row, and the row's format reads its fields back.
Only a 4-way command needs its well-formedness. -/
theorem decodeUndoesEncode : Obligations.DecodeUndoesEncode := by
  intro i hwf
  cases i with
  | add rd ra rb => rw [decode_add (EncodeOpcode.add rd ra rb)]; exact decodeR3_encode (by decide) rd ra rb _
  | sub rd ra rb => rw [decode_sub (EncodeOpcode.sub rd ra rb)]; exact decodeR3_encode (by decide) rd ra rb _
  | reduce rd => rw [decode_reduce (EncodeOpcode.reduce rd)]; exact decodeR1_encode (by decide) rd _
  | touns rd => rw [decode_touns (EncodeOpcode.touns rd)]; exact decodeR1_encode (by decide) rd _
  | tomont rd => rw [decode_tomont (EncodeOpcode.tomont rd)]; exact decodeR1_encode (by decide) rd _
  | ntt rd => rw [decode_ntt (EncodeOpcode.ntt rd)]; exact decodeR1_encode (by decide) rd _
  | intt rd => rw [decode_intt (EncodeOpcode.intt rd)]; exact decodeR1_encode (by decide) rd _
  | mulcache cd ra => rw [decode_mulcache (EncodeOpcode.mulcache cd ra)]; exact decodeRC_encode (by decide) cd ra _
  | basemul rd ra rb cc =>
    rw [decode_basemul (EncodeOpcode.basemul rd ra rb cc)]
    exact decodeR4_encode (by decide) rd ra rb cc _
  | basemulacc rd ra rb cc =>
    rw [decode_basemulacc (EncodeOpcode.basemulacc rd ra rb cc)]
    exact decodeR4_encode (by decide) rd ra rb cc _
  | tobytes r off => rw [decode_tobytes (EncodeOpcode.tobytes r off)]; exact decodeM_encode (by decide) r off _
  | frombytes r off =>
    rw [decode_frombytes (EncodeOpcode.frombytes r off)]
    exact decodeM_encode (by decide) r off _
  | tomsg r off => rw [decode_tomsg (EncodeOpcode.tomsg r off)]; exact decodeM_encode (by decide) r off _
  | frommsg r off => rw [decode_frommsg (EncodeOpcode.frommsg r off)]; exact decodeM_encode (by decide) r off _
  | compress4 r off =>
    rw [decode_compress4 (EncodeOpcode.compress4 r off)]
    exact decodeM_encode (by decide) r off _
  | compress5 r off =>
    rw [decode_compress5 (EncodeOpcode.compress5 r off)]
    exact decodeM_encode (by decide) r off _
  | compress10 r off =>
    rw [decode_compress10 (EncodeOpcode.compress10 r off)]
    exact decodeM_encode (by decide) r off _
  | compress11 r off =>
    rw [decode_compress11 (EncodeOpcode.compress11 r off)]
    exact decodeM_encode (by decide) r off _
  | decompress4 r off =>
    rw [decode_decompress4 (EncodeOpcode.decompress4 r off)]
    exact decodeM_encode (by decide) r off _
  | decompress5 r off =>
    rw [decode_decompress5 (EncodeOpcode.decompress5 r off)]
    exact decodeM_encode (by decide) r off _
  | decompress10 r off =>
    rw [decode_decompress10 (EncodeOpcode.decompress10 r off)]
    exact decodeM_encode (by decide) r off _
  | decompress11 r off =>
    rw [decode_decompress11 (EncodeOpcode.decompress11 r off)]
    exact decodeM_encode (by decide) r off _
  | cbd2 r off => rw [decode_cbd2 (EncodeOpcode.cbd2 r off)]; exact decodeM_encode (by decide) r off _
  | cbd3 r off => rw [decode_cbd3 (EncodeOpcode.cbd3 r off)]; exact decodeM_encode (by decide) r off _
  | getnoise2 r off =>
    rw [decode_getnoise2 (EncodeOpcode.getnoise2 r off)]
    exact decodeM_encode (by decide) r off _
  | getnoise3 r off =>
    rw [decode_getnoise3 (EncodeOpcode.getnoise3 r off)]
    exact decodeM_encode (by decide) r off _
  | getnoise4x2 r off =>
    rw [decode_getnoise4x2 (EncodeOpcode.getnoise4x2 r off)]
    exact (decodeQuad_encode (by decide) r off _).trans (if_pos hwf)
  | getnoise4x3 r off =>
    rw [decode_getnoise4x3 (EncodeOpcode.getnoise4x3 r off)]
    exact (decodeQuad_encode (by decide) r off _).trans (if_pos hwf)
  | getnoise4xmix r off =>
    rw [decode_getnoise4xmix (EncodeOpcode.getnoise4xmix r off)]
    exact (decodeQuad_encode (by decide) r off _).trans (if_pos hwf)

/-- Settles O1: each of the six words is the encoding of its command. -/
theorem workedEncodingsDecode : Obligations.WorkedEncodingsDecode :=
  ⟨decodeUndoesEncode (.add 1 2 3) rfl, decodeUndoesEncode (.ntt 5) rfl,
    decodeUndoesEncode (.mulcache 3 7) rfl, decodeUndoesEncode (.basemul 2 0 1 0) rfl,
    decodeUndoesEncode (.tobytes 2 0x180) rfl, decodeUndoesEncode (.getnoise4xmix 4 0x400) rfl⟩

/-! The words that are no command (R84, R88, R91). -/

/-- The answer of a decoder whose must-be-zero ranges are `zeros`: an illegal field when a reserved bit is 1,
a command otherwise. -/
def SortsByReserved (w : Word) (zeros : List (Nat × Nat)) (answer : Except DecodeError Instr) : Prop :=
  (reservedBitSet w zeros ∧ answer = .error .illegalField) ∨ (¬reservedBitSet w zeros ∧ ∃ i, answer = .ok i)

theorem reservedBitSet_one {w : Word} {lo n : Nat} : reservedBitSet w [(lo, n)] ↔ bits w lo n ≠ 0 := by
  simp [reservedBitSet, bits]

theorem reservedBitSet_two {w : Word} {lo n lo' n' : Nat} :
    reservedBitSet w [(lo, n), (lo', n')] ↔ bits w lo n ≠ 0 ∨ bits w lo' n' ≠ 0 := by
  simp [reservedBitSet, bits]

/-- A format with one must-be-zero range (all but the 4-way words'): its decoder is this test of the range. -/
theorem sortsByReserved_ite (w : Word) (lo n : Nat) (i : Instr) :
    SortsByReserved w [(lo, n)] (if bits w lo n = 0 then .ok i else .error .illegalField) := by
  unfold SortsByReserved
  rw [reservedBitSet_one]
  by_cases h : bits w lo n = 0 <;> simp [h]

theorem decodeQuad_sorts (w : Word) (mk : PReg → Offset → Instr) :
    SortsByReserved w [(11, 9), (8, 2)] (decodeQuad w mk) := by
  unfold SortsByReserved
  rw [reservedBitSet_two]
  by_cases h : bits w 8 2 = 0 ∧ bits w 11 9 = 0
  · obtain ⟨hquad, hzero⟩ := h
    exact .inr ⟨by simp [hquad, hzero], _, decodeQuad_ok.mpr ⟨hquad, hzero, rfl⟩⟩
  · have hbad : bits w 8 2 ≠ 0 ∨ bits w 11 9 ≠ 0 := not_and_or.mp h
    exact .inl ⟨hbad.symm, decodeQuad_error.mpr ⟨hbad, rfl⟩⟩

/-- The decoder follows its row of R83. -/
theorem decode_sorts (w : Word) : ∀ row ∈ rows, bits w 0 8 = row.1 → SortsByReserved w row.2 (decode w) := by
  simp only [rows, List.cons_append, List.nil_append, List.forall_mem_cons]
  exact ⟨
    fun h => decode_add h ▸ sortsByReserved_ite w _ _ _,
    fun h => decode_sub h ▸ sortsByReserved_ite w _ _ _,
    fun h => decode_reduce h ▸ sortsByReserved_ite w _ _ _,
    fun h => decode_touns h ▸ sortsByReserved_ite w _ _ _,
    fun h => decode_tomont h ▸ sortsByReserved_ite w _ _ _,
    fun h => decode_ntt h ▸ sortsByReserved_ite w _ _ _,
    fun h => decode_intt h ▸ sortsByReserved_ite w _ _ _,
    fun h => decode_mulcache h ▸ sortsByReserved_ite w _ _ _,
    fun h => decode_basemul h ▸ sortsByReserved_ite w _ _ _,
    fun h => decode_basemulacc h ▸ sortsByReserved_ite w _ _ _,
    fun h => decode_tobytes h ▸ sortsByReserved_ite w _ _ _,
    fun h => decode_frombytes h ▸ sortsByReserved_ite w _ _ _,
    fun h => decode_tomsg h ▸ sortsByReserved_ite w _ _ _,
    fun h => decode_frommsg h ▸ sortsByReserved_ite w _ _ _,
    fun h => decode_compress4 h ▸ sortsByReserved_ite w _ _ _,
    fun h => decode_compress5 h ▸ sortsByReserved_ite w _ _ _,
    fun h => decode_compress10 h ▸ sortsByReserved_ite w _ _ _,
    fun h => decode_compress11 h ▸ sortsByReserved_ite w _ _ _,
    fun h => decode_decompress4 h ▸ sortsByReserved_ite w _ _ _,
    fun h => decode_decompress5 h ▸ sortsByReserved_ite w _ _ _,
    fun h => decode_decompress10 h ▸ sortsByReserved_ite w _ _ _,
    fun h => decode_decompress11 h ▸ sortsByReserved_ite w _ _ _,
    fun h => decode_cbd2 h ▸ sortsByReserved_ite w _ _ _,
    fun h => decode_cbd3 h ▸ sortsByReserved_ite w _ _ _,
    fun h => decode_getnoise2 h ▸ sortsByReserved_ite w _ _ _,
    fun h => decode_getnoise3 h ▸ sortsByReserved_ite w _ _ _,
    fun h => decode_getnoise4x2 h ▸ decodeQuad_sorts w _,
    fun h => decode_getnoise4x3 h ▸ decodeQuad_sorts w _,
    fun h => decode_getnoise4xmix h ▸ decodeQuad_sorts w _,
    nofun⟩

theorem rows_opcodes_distinct : ∀ row ∈ rows, ∀ row' ∈ rows, row.1 = row'.1 → row = row' := by decide

/-- The row of a word's opcode is the only one that speaks of the word. -/
theorem exists_row_iff {op : Nat} {row : Nat × List (Nat × Nat)} (hmem : row ∈ rows) (hop : op = row.1)
    (P : List (Nat × Nat) → Prop) : (∃ row' ∈ rows, op = row'.1 ∧ P row'.2) ↔ P row.2 := by
  refine ⟨?_, fun h => ⟨row, hmem, hop, h⟩⟩
  rintro ⟨row', hmem', hop', h⟩
  rwa [rows_opcodes_distinct row hmem row' hmem' (hop.symm.trans hop')]

/-- Settles O4: a word without a row has no opcode; a word with one has only that row, and the row's reserved
bits decide. -/
theorem illegalWordsAreNamed : Obligations.IllegalWordsAreNamed := by
  intro w
  have hbyte : w.toNat % 256 = bits w 0 8 := by simp [bits]
  rw [hbyte]
  by_cases hrow : ∃ row ∈ rows, bits w 0 8 = row.1
  · obtain ⟨row, hmem, hop⟩ := hrow
    have hlisted : ¬∀ row ∈ rows, bits w 0 8 ≠ row.1 := fun h => h row hmem hop
    rw [exists_row_iff hmem hop (reservedBitSet w), exists_row_iff hmem hop (fun zeros => ¬reservedBitSet w zeros)]
    rcases decode_sorts w row hmem hop with ⟨hset, hdec⟩ | ⟨hclear, i, hdec⟩
    · rw [hdec]
      exact ⟨iff_of_false nofun hlisted, iff_of_true rfl hset, iff_of_false nofun (not_not_intro hset)⟩
    · rw [hdec]
      exact ⟨iff_of_false nofun hlisted, iff_of_false nofun hclear, iff_of_true ⟨i, rfl⟩ hclear⟩
  · have hnone : ∀ row ∈ rows, bits w 0 8 ≠ row.1 := fun row hmem hop => hrow ⟨row, hmem, hop⟩
    have hno (P : List (Nat × Nat) → Prop) : ¬∃ row ∈ rows, bits w 0 8 = row.1 ∧ P row.2 :=
      fun ⟨row, hmem, hop, _⟩ => hnone row hmem hop
    rw [decode_unlisted hnone]
    exact ⟨iff_of_true rfl hnone, iff_of_false nofun (hno (reservedBitSet w)),
      iff_of_false nofun (hno (fun zeros => ¬reservedBitSet w zeros))⟩

/-- Settles O6: the engine's turn, and the fault of a word that does not decode. -/
theorem stepFaultsOnIllegalWord : Obligations.StepFaultsOnIllegalWord := by
  rintro s ⟨hbusy, hturn⟩
  exact ⟨fun h => (step_engine hbusy hturn).trans (engineStep_error h),
    fun h => (step_engine hbusy hturn).trans (engineStep_error h)⟩

end Sys2Proof
end

section
/-! Proofs of the scalar codec family (spec/40_scalar_codec.md): the result of `TOUNS` (R118), and the output
bound of every register a command writes, where a rule gives one. -/

namespace Sys2Proof.Machine

open Sys2Proof.Claim

/-! A completed register write (R11, R25, R60): the lanes it leaves, and its frame. -/

theorem lane_writePoly_ofLanes (s : State) (r : PReg) {f : List Int} {i : Nat} (hi : i < 256)
    (h : -32768 ≤ f.getD i 0 ∧ f.getD i 0 ≤ 32767) :
    lane ((s.writePoly r (ofLanes 256 f)).finish.poly r) i = f.getD i 0 := by
  rw [finish_poly, writePoly_poly_self, lane_ofLanes f hi h]

theorem writePoly_writesPolys (s : State) (r : PReg) (f : Poly) :
    writesPolys (fun q => q = r) s (s.writePoly r f).finish :=
  ⟨⟨rfl, rfl, rfl, rfl, rfl, rfl⟩, fun _ => rfl, fun _ hq => writePoly_poly_ne s f hq, writePoly_tagsAfter s r f⟩

/-- The word of a register format is the encoder's (R81). -/
theorem word_regs (op d a b c : Nat) : word op d a b c 0 = encodeRegs op d a b c := by
  simp [word, encodeRegs]

/-! `TOUNS` (R118). -/

theorem toUnsigned_eq_residue (c : Int) : toUnsigned c = residue c := by
  simp [toUnsigned, cmov16, residue]

theorem exec_touns_of_canonical {rd : PReg} {s : State} (h : canonical (s.poly rd)) :
    exec (.touns rd) s = completePoly rd ((lanes (s.poly rd)).map toUnsigned) s :=
  checkCanonical_pos h _

theorem faults_touns {rd : PReg} {s : State} (h : ¬canonical (s.poly rd)) : faults 5 (.touns rd) s :=
  checkCanonical_neg h _

/-- Settles O12: the check decides between the register write and the fault; a canonical lane has an
unsigned representative that fits int16. -/
theorem tounsResult : Obligations.TounsResult := by
  refine fun rd s => ⟨?_, fun hcan => ⟨_, exec_touns_of_canonical hcan, fun i hi => ?_,
    writePoly_writesPolys s rd _⟩, faults_touns⟩
  · rw [word_regs]
    exact decodeUndoesEncode (.touns rd) rfl
  · have hlane : ((lanes (s.poly rd)).map toUnsigned).getD i 0 = toUnsigned (lane (s.poly rd) i) :=
      map_lanes_getD _ _ hi
    have hrange := toUnsigned_range (hcan i hi)
    rw [lane_writePoly_ofLanes s rd hi (by omega), hlane, toUnsigned_eq_residue]

/-! Bounds of a result. -/

/-- If the command completed without a fault, lane `j` of `P[q]` is within the bound. -/
def ResultWithin (q : PReg) (j : Nat) (bound : Int × Int) (k : Result) : Prop :=
  ∀ t, k = .next t → t.fault = false → bound.1 ≤ lane (t.poly q) j ∧ lane (t.poly q) j ≤ bound.2

theorem getD_of_forall_mem {p : Int → Prop} {l : List Int} {j : Nat} (hj : j < l.length) (h : ∀ x ∈ l, p x) :
    p (l.getD j 0) := by
  rw [List.getD_eq_getElem _ _ hj]
  exact h _ (List.getElem_mem hj)

/-- A sampled polynomial is within `eta` (R181), also as a register. -/
theorem lane_cbd_bound {eta : Nat} (heta : eta ≤ 3) {bytes : List Byte} (hb : bytes.length = 64 * eta) {j : Nat}
    (hj : j < 256) : -(eta : Int) ≤ lane (ofLanes 256 (cbd eta bytes)) j ∧
      lane (ofLanes 256 (cbd eta bytes)) j ≤ eta := by
  have hcbd := cbd_bound hb hj
  rwa [lane_ofLanes _ hj (by omega)]

theorem decompress_nonneg (d : Nat) {y : Int} (h : 0 ≤ y) : 0 ≤ decompress d y :=
  Int.ediv_nonneg (by positivity) (by positivity)

/-- A decompressed field is at most the decompressed highest field (R115). -/
theorem decompress_le (d : Nat) {y : Int} (h : y < 2 ^ d) : decompress d y ≤ decompress d (2 ^ d - 1) := by
  unfold decompress
  exact Int.ediv_le_ediv (by positivity) (by omega)

/-- A register of a quad after the write of the quad. -/
theorem writeQuad_poly_cases {s : State} {r q : PReg} (hq : q = r ∨ q = r + 1 ∨ q = r + 2 ∨ q = r + 3)
    {f0 f1 f2 f3 : Poly} {p : Poly → Prop} (h0 : q = r → p f0) (h1 : q = r + 1 → p f1) (h2 : q = r + 2 → p f2)
    (h3 : q = r + 3 → p f3) : p ((s.writeQuad r f0 f1 f2 f3).poly q) := by
  rw [writeQuad_poly]
  split_ifs with e3 e2 e1 e0
  · exact h3 e3
  · exact h2 e2
  · exact h1 e1
  · exact h0 e0
  · exact absurd hq (by simp [e0, e1, e2, e3])

section
variable {q r : PReg} {j : Nat} {bound : Int × Int} {s : State} {k : Result}

/-- A check of the engine: the command faults, or the check's condition holds. -/
theorem within_check {p : Prop} [Decidable p] {c : Cause} (h : p → ResultWithin q j bound k) :
    ResultWithin q j bound (if p then k else raise c s) := by
  split
  · exact h ‹_›
  · intro t ht hfault
    cases ht
    cases hfault

theorem within_checkQuad (h : ResultWithin q j bound k) : ResultWithin q j bound (checkQuad r s k) :=
  within_check fun _ => h

theorem within_checkRegion {off : Offset} {len : Nat} (h : ResultWithin q j bound k) :
    ResultWithin q j bound (checkRegion off len s k) :=
  within_check fun _ => h

theorem within_checkCanonical (h : Canonical (s.poly r) → ResultWithin q j bound k) :
    ResultWithin q j bound (checkCanonical r s k) :=
  within_check fun hall => h ((all_canonical_iff _).mp hall)

theorem within_checkResidues {v : List Nat} (h : (∀ x ∈ v, x ≤ 3328) → ResultWithin q j bound k) :
    ResultWithin q j bound (checkResidues v s k) :=
  within_check fun hall => h (by simpa using hall)

variable {lo hi : Int} (hlo : -32768 ≤ lo) (hhi : hi ≤ 32767) (hj : j < 256)
include hlo hhi hj

theorem within_completePoly {f : List Int} (h : lo ≤ f.getD j 0 ∧ f.getD j 0 ≤ hi) :
    ResultWithin r j (lo, hi) (completePoly r f s) := by
  intro t ht _
  cases ht
  rwa [lane_writePoly_ofLanes s r hj (by omega)]

/-- A command that maps every element of a sequence into the bound. -/
theorem within_completePoly_map {α : Type} {l : List α} {f : α → Int} (hl : l.length = 256)
    (h : ∀ x ∈ l, lo ≤ f x ∧ f x ≤ hi) : ResultWithin r j (lo, hi) (completePoly r (l.map f) s) :=
  within_completePoly hlo hhi hj
    (getD_of_forall_mem (p := fun x => lo ≤ x ∧ x ≤ hi) (by simpa [hl]) (List.forall_mem_map.mpr h))

end

/-! The bound of each command that has one. -/

section
variable {r : PReg} {j : Nat} {s : State} (hj : j < 256)
include hj

theorem execReduce_within : ResultWithin r j (-1664, 1664) (execReduce r s) :=
  within_completePoly_map (by decide) (by decide) hj (lanes_length _) fun x _ => cmod_range x

theorem execTouns_within : ResultWithin r j (0, 3328) (execTouns r s) :=
  within_checkCanonical fun hcan =>
    within_completePoly_map (by decide) (by decide) hj (lanes_length _) fun x hx => by
      obtain ⟨i, hi, rfl⟩ := (mem_lanes _ x).mp hx
      exact toUnsigned_range (hcan i hi)

/-- R203: a lane is an int16, so the product with 1353 is reduced to at most 2341. -/
theorem execTomont_within : ResultWithin r j (-2341, 2341) (execTomont r s) :=
  within_completePoly_map (by decide) (by decide) hj (lanes_length _) fun x hx => by
    obtain ⟨i, -, rfl⟩ := (mem_lanes _ x).mp hx
    have hlane := lane_bound (s.poly r) i
    have := fqmul_bound (a := lane (s.poly r) i) (b := 1353) (A := 32768) (B := 1353) (by omega) (by omega)
    omega

theorem execNtt_within : ResultWithin r j (-16534, 16534) (execNtt r s) :=
  within_checkCanonical fun hcan =>
    within_completePoly (by decide) (by decide) hj
      (nttFn_bound (lanes_length _) (fun i hi => by rw [lanes_getD]; exact hcan i hi) j)

/-- R201: the bound of lanes 0..127. -/
theorem execIntt_within_low (hlow : j < 128) : ResultWithin r j (-1664, 1664) (execIntt r s) :=
  have ⟨hhalf, _⟩ := inttFn_bound (lanes_length _) (fun i _ => lane_getD_bound (s.poly r) i) hj
  within_completePoly (by decide) (by decide) hj (hhalf hlow)

/-- R201: the bound of lanes 128..255, which lanes 0..127 keep as well. -/
theorem execIntt_within : ResultWithin r j (-1785, 1785) (execIntt r s) :=
  have ⟨_, hall⟩ := inttFn_bound (lanes_length _) (fun i _ => lane_getD_bound (s.poly r) i) hj
  within_completePoly (by decide) (by decide) hj hall

variable {off : Offset}

theorem execFrombytes_within : ResultWithin r j (0, 3328) (execFrombytes r off s) :=
  within_checkRegion <| within_checkResidues fun hres =>
    within_completePoly_map (by decide) (by decide) hj (unpack_length _ _) fun v hv => by
      have := hres v hv
      omega

theorem execFrommsg_within : ResultWithin r j (0, 1665) (execFrommsg r off s) :=
  within_checkRegion <|
    within_completePoly_map (by decide) (by decide) hj (by simp) fun b _ => by cases b <;> decide

/-- R115, R138 to R141: the highest lane is the one of the highest field. -/
theorem decompressFrom_within {d : Nat} {hi : Int} (hhi : decompress d (2 ^ d - 1) = hi) (hint : hi ≤ 32767) :
    ResultWithin r j (0, hi) (decompressFrom d r off s) :=
  within_checkRegion <|
    within_completePoly_map (by decide) hint hj (unpack_length _ _) fun y hy => by
      have hlt : (y : Int) < 2 ^ d := by exact_mod_cast unpack_lt (memRead_length _ _ _) hy
      exact ⟨decompress_nonneg d (by omega), hhi ▸ decompress_le d hlt⟩

/-- R172, R173, R181. -/
theorem cbdFrom_within {eta : Nat} (heta : eta ≤ 3) : ResultWithin r j (-eta, eta) (cbdFrom eta r off s) :=
  within_checkRegion <|
    within_completePoly (by omega) (by omega) hj (cbd_bound (memRead_length _ _ _) hj)

/-- R174, R175, R181. -/
theorem noiseFrom_within {eta : Nat} (heta : eta ≤ 3) :
    ResultWithin r j (-eta, eta) (noiseFrom Config.xof eta r off s) :=
  within_checkRegion <|
    within_completePoly (by omega) (by omega) hj (cbd_bound (xof_length _ _) hj)

/-- R176 to R178, R181: a register of the quad is within every bound that its own `eta` is within. -/
theorem noiseQuad_within {q : PReg} {e0 e1 e2 e3 eta : Nat} (heta : eta ≤ 3)
    (hq : q = r ∨ q = r + 1 ∨ q = r + 2 ∨ q = r + 3) (h0 : q = r → e0 ≤ eta) (h1 : q = r + 1 → e1 ≤ eta)
    (h2 : q = r + 2 → e2 ≤ eta) (h3 : q = r + 3 → e3 ≤ eta) :
    ResultWithin q j (-eta, eta) (noiseQuad Config.xof e0 e1 e2 e3 r off s) := by
  have hnoise (e at_ : Nat) (he : e ≤ eta) : -(eta : Int) ≤ lane (ofLanes 256 (noiseAt Config.xof e at_ s)) j ∧
      lane (ofLanes 256 (noiseAt Config.xof e at_ s)) j ≤ eta := by
    have := lane_cbd_bound (he.trans heta) (xof_length (memRead s.buf at_ 33) (64 * e)) hj
    unfold noiseAt
    omega
  refine within_checkQuad (within_checkRegion fun t ht _ => ?_)
  cases ht
  exact writeQuad_poly_cases hq (p := fun f => -(eta : Int) ≤ lane f j ∧ lane f j ≤ eta)
    (fun h => hnoise _ _ (h0 h)) (fun h => hnoise _ _ (h1 h)) (fun h => hnoise _ _ (h2 h))
    (fun h => hnoise _ _ (h3 h))

theorem noiseQuad_within_of_le {q : PReg} {e0 e1 e2 e3 eta : Nat} (heta : eta ≤ 3)
    (hq : q = r ∨ q = r + 1 ∨ q = r + 2 ∨ q = r + 3) (he : e0 ≤ eta ∧ e1 ≤ eta ∧ e2 ≤ eta ∧ e3 ≤ eta) :
    ResultWithin q j (-eta, eta) (noiseQuad Config.xof e0 e1 e2 e3 r off s) :=
  have ⟨h0, h1, h2, h3⟩ := he
  noiseQuad_within hj heta hq (fun _ => h0) (fun _ => h1) (fun _ => h2) (fun _ => h3)

end

/-- A command meets the bound its rule gives for a register it writes. -/
theorem exec_within {i : Instr} {s : State} {q : PReg} {j : Nat} {bound : Int × Int} (hj : j < 256)
    (hdest : destination i q) (hbound : laneBound q j i = some bound) : ResultWithin q j bound (exec i s) := by
  cases i with
  | add | sub | mulcache | basemul | basemulacc | tobytes | tomsg | compress4 | compress5 | compress10
  | compress11 => nomatch hbound
  | reduce rd => cases hdest; cases hbound; exact execReduce_within hj
  | touns rd => cases hdest; cases hbound; exact execTouns_within hj
  | tomont rd => cases hdest; cases hbound; exact execTomont_within hj
  | ntt rd => cases hdest; cases hbound; exact execNtt_within hj
  | intt rd =>
    cases hdest
    simp only [laneBound] at hbound
    split at hbound
    case isTrue hlow => cases hbound; exact execIntt_within_low hj hlow
    case isFalse => cases hbound; exact execIntt_within hj
  | frombytes r off => cases hdest; cases hbound; exact execFrombytes_within hj
  | frommsg r off => cases hdest; cases hbound; exact execFrommsg_within hj
  | decompress4 r off => cases hdest; cases hbound; exact decompressFrom_within hj (by decide) (by decide)
  | decompress5 r off => cases hdest; cases hbound; exact decompressFrom_within hj (by decide) (by decide)
  | decompress10 r off => cases hdest; cases hbound; exact decompressFrom_within hj (by decide) (by decide)
  | decompress11 r off => cases hdest; cases hbound; exact decompressFrom_within hj (by decide) (by decide)
  | cbd2 r off => cases hdest; cases hbound; exact cbdFrom_within hj (by decide)
  | cbd3 r off => cases hdest; cases hbound; exact cbdFrom_within hj (by decide)
  | getnoise2 r off => cases hdest; cases hbound; exact noiseFrom_within hj (by decide)
  | getnoise3 r off => cases hdest; cases hbound; exact noiseFrom_within hj (by decide)
  | getnoise4x2 r off => cases hbound; exact noiseQuad_within_of_le hj (by decide) hdest (by decide)
  | getnoise4x3 r off => cases hbound; exact noiseQuad_within_of_le hj (by decide) hdest (by decide)
  | getnoise4xmix r off =>
    simp only [laneBound] at hbound
    split at hbound
    case isTrue => cases hbound; exact noiseQuad_within_of_le hj (by decide) hdest (by decide)
    case isFalse hpair =>
      cases hbound
      exact noiseQuad_within hj (by decide) hdest (fun h => absurd (.inl h) hpair) (fun h => absurd (.inr h) hpair)
        (fun _ => le_rfl) (fun _ => le_rfl)

/-- Settles O42, command by command. -/
theorem outputBounds : Obligations.OutputBounds :=
  fun _ _ t _ _ _ _ hexec hfault hdest hj hbound => exec_within hj hdest hbound t hexec hfault

end Sys2Proof.Machine
end

section
/-! Proofs of the byte codec family (spec/41_byte_codec.md): the commands that pack a register into `BUF` and
those that unpack a region into a register (R132 to R141), and their four round trips (R142). -/

namespace Sys2Proof.Machine

open Sys2Proof.Claim

/-- A word of format M decodes to the command it encodes (R81, R83). -/
theorem decode_word_mem {op : Nat} {r : PReg} {off : Offset} {i : Instr} (hwf : i.wellFormed = true)
    (henc : encode i = encodeM op r off) : decode (word op r.val 0 0 0 off.toNat) = .ok i := by
  have hword : word op r.val 0 0 0 off.toNat = encode i := by simp [henc, word, encodeM]
  rw [hword]
  exact decodeUndoesEncode i hwf

/-! A completed region write (R11, R60): the bytes it leaves, and its frame. -/

theorem memRead_writeBuf (s : State) (off : Nat) {l : List Byte} {len : Nat} (hl : l.length = len) :
    memRead (s.writeBuf off l).finish.buf off len = l := by
  subst hl
  exact memRead_memWrite s.buf off l

theorem writeBuf_writesBytes (s : State) (off : Nat) {l : List Byte} {len : Nat} (hl : l.length = len) :
    writesBytes off len s (s.writeBuf off l).finish := by
  refine ⟨⟨rfl, rfl, rfl, rfl, rfl, rfl⟩, fun _ => rfl, fun _ => rfl, fun a ha => ?_⟩
  rw [finish_buf, writeBuf_buf, read_memWrite, hl, if_neg ha]

/-! Packing a register into a region (R132, R134 to R137). -/

/-- The fields that an encoder makes of a register. -/
def packedFields (fieldOf : Int → Int) (f : Poly) : List Nat :=
  (lanes f).map fun c => (fieldOf (toUnsigned c)).toNat

/-- The state in which an encoder completes. -/
def packTo (d : Nat) (fieldOf : Int → Int) (r : PReg) (off : Offset) (s : State) : State :=
  (s.writeBuf off.toNat (pack d (packedFields fieldOf (s.poly r)))).finish

@[simp] theorem packedFields_length (fieldOf : Int → Int) (f : Poly) : (packedFields fieldOf f).length = 256 := by
  simp [packedFields]

theorem packedFields_getD (fieldOf : Int → Int) (f : Poly) {i : Nat} (hi : i < 256) :
    (packedFields fieldOf f).getD i 0 = (fieldOf (toUnsigned (lane f i))).toNat :=
  map_lanes_nat_getD f _ hi

theorem forall_mem_packedFields {fieldOf : Int → Int} {f : Poly} {p : Nat → Prop}
    (h : ∀ i, i < 256 → p (fieldOf (toUnsigned (lane f i))).toNat) : ∀ x ∈ packedFields fieldOf f, p x := by
  refine List.forall_mem_map.mpr fun c hc => ?_
  obtain ⟨i, hi, rfl⟩ := (mem_lanes f c).mp hc
  exact h i hi

@[simp] theorem packTo_fault (d : Nat) (fieldOf : Int → Int) (r : PReg) (off : Offset) (s : State) :
    (packTo d fieldOf r off s).fault = s.fault := rfl

theorem packTo_writesBytes (d : Nat) (fieldOf : Int → Int) (r : PReg) (off : Offset) (s : State) :
    writesBytes off.toNat (32 * d) s (packTo d fieldOf r off s) :=
  writeBuf_writesBytes s _ (pack_length d _)

theorem memRead_packTo (d : Nat) (fieldOf : Int → Int) (r : PReg) (off : Offset) (s : State) :
    memRead (packTo d fieldOf r off s).buf off.toNat (32 * d) = pack d (packedFields fieldOf (s.poly r)) :=
  memRead_writeBuf s _ (pack_length d _)

section
variable {d : Nat} {fieldOf : Int → Int} {r : PReg} {off : Offset} {s : State}

theorem encodeTo_completes (hfit : off.toNat + 32 * d ≤ 2048) (hcan : canonical (s.poly r)) :
    encodeTo d fieldOf r off s = .next (packTo d fieldOf r off s) :=
  (checkRegion_pos hfit s _).trans (checkCanonical_pos hcan _)

theorem encodeTo_coeffRange (hfit : off.toNat + 32 * d ≤ 2048) (hcan : ¬canonical (s.poly r)) :
    encodeTo d fieldOf r off s = raise .coeffRange s :=
  (checkRegion_pos hfit s _).trans (checkCanonical_neg hcan _)

theorem encodeTo_bufRange (hfit : 2048 < off.toNat + 32 * d) : encodeTo d fieldOf r off s = raise .bufRange s :=
  checkRegion_neg hfit s _

end

/-- A command whose arm is `encodeTo` packs its register. -/
theorem packs_of_encodeTo {op d : Nat} {fieldOf : Int → Int} {mk : PReg → Offset → Instr}
    (hdecode : ∀ r off, decode (word op r.val 0 0 0 off.toNat) = .ok (mk r off))
    (hexec : ∀ r off s, exec (mk r off) s = encodeTo d fieldOf r off s) : packs op d fieldOf mk := by
  refine fun r off s => ⟨hdecode r off, fun hfit hcan => ?_, fun hfit hcan => ?_, fun hfit => ?_⟩
  · refine ⟨_, (hexec r off s).trans (encodeTo_completes hfit hcan), fun i j hi hj => ?_,
      packTo_writesBytes d fieldOf r off s⟩
    rw [memRead_packTo, pack_bit d _ (packedFields_length _ _) i j hi hj, packedFields_getD _ _ hi,
      toUnsigned_eq_residue]
  · exact (hexec r off s).trans (encodeTo_coeffRange hfit hcan)
  · exact (hexec r off s).trans (encodeTo_bufRange hfit)

theorem exec_tobytes (r : PReg) (off : Offset) (s : State) :
    exec (.tobytes r off) s = encodeTo 12 (fun u => u) r off s := rfl

/-- Settles O27: `TOBYTES` is the encoder whose fields are the unsigned lanes themselves. -/
theorem tobytesResult : Obligations.TobytesResult :=
  packs_of_encodeTo (fun _ _ => decode_word_mem rfl rfl) exec_tobytes

/-- Settles O29: the four compressing encoders are one encoder at four widths. -/
theorem compressResult : Obligations.CompressResult :=
  ⟨packs_of_encodeTo (fun _ _ => decode_word_mem rfl rfl) fun _ _ _ => rfl,
    packs_of_encodeTo (fun _ _ => decode_word_mem rfl rfl) fun _ _ _ => rfl,
    packs_of_encodeTo (fun _ _ => decode_word_mem rfl rfl) fun _ _ _ => rfl,
    packs_of_encodeTo (fun _ _ => decode_word_mem rfl rfl) fun _ _ _ => rfl⟩

/-! Unpacking a region into a register (R133, R138 to R141). -/

/-- The state in which a decoder completes that makes lane `i` of field `i` by `value`. -/
def unpackTo (d : Nat) (value : Nat → Int) (r : PReg) (off : Offset) (s : State) : State :=
  (s.writePoly r (ofLanes 256 ((fieldsAt d off s).map value))).finish

section
variable (d : Nat) (off : Offset) (s : State)

@[simp] theorem fieldsAt_length : (fieldsAt d off s).length = 256 := unpack_length d _

theorem fieldsAt_getD {i : Nat} (hi : i < 256) :
    (fieldsAt d off s).getD i 0 = field d (memRead s.buf off.toNat (32 * d)) i :=
  unpack_eq_sum (memRead_length _ _ _) hi

theorem mem_fieldsAt (x : Nat) :
    x ∈ fieldsAt d off s ↔ ∃ i, i < 256 ∧ field d (memRead s.buf off.toNat (32 * d)) i = x := by
  rw [List.mem_iff_getElem]
  constructor
  · rintro ⟨i, hi, rfl⟩
    have hi' : i < 256 := by simpa using hi
    exact ⟨i, hi', by rw [← fieldsAt_getD d off s hi', List.getD_eq_getElem _ _ hi]⟩
  · rintro ⟨i, hi, rfl⟩
    exact ⟨i, by simpa using hi, by rw [← fieldsAt_getD d off s hi, List.getD_eq_getElem]⟩

variable {d off s}

theorem fieldsAt_lt {x : Nat} (hx : x ∈ fieldsAt d off s) : x < 2 ^ d := unpack_lt (memRead_length _ _ _) hx

theorem pack_fieldsAt : pack d (fieldsAt d off s) = memRead s.buf off.toNat (32 * d) :=
  pack_unpack d _ (memRead_length _ _ _)

variable {value : Nat → Int} {r : PReg}

@[simp] theorem unpackTo_fault : (unpackTo d value r off s).fault = s.fault := rfl

theorem unpackTo_writesPolys : writesPolys (fun q => q = r) s (unpackTo d value r off s) :=
  writePoly_writesPolys s r _

variable (hvalue : ∀ y ∈ fieldsAt d off s, 0 ≤ value y ∧ value y ≤ 3328)
include hvalue

theorem lanes_unpackTo : lanes ((unpackTo d value r off s).poly r) = (fieldsAt d off s).map value := by
  rw [unpackTo, finish_poly, writePoly_poly_self]
  refine lanes_ofLanes (by simp) (List.forall_mem_map.mpr fun y hy => ?_)
  have := hvalue y hy
  omega

theorem lane_unpackTo {i : Nat} (hi : i < 256) :
    lane ((unpackTo d value r off s).poly r) i = value ((fieldsAt d off s).getD i 0) := by
  rw [← lanes_getD, lanes_unpackTo hvalue, map_nat_getD _ _ (by simpa using hi)]

theorem canonical_unpackTo : canonical ((unpackTo d value r off s).poly r) := by
  refine fun i hi => ?_
  rw [lane_unpackTo hvalue hi]
  have := hvalue _ ((mem_fieldsAt d off s _).mpr ⟨i, hi, (fieldsAt_getD d off s hi).symm⟩)
  omega

end

section
variable {d : Nat} {r : PReg} {off : Offset} {s : State}

theorem decompressFrom_completes (hfit : off.toNat + 32 * d ≤ 2048) :
    decompressFrom d r off s = .next (unpackTo d (fun y => decompress d y) r off s) :=
  checkRegion_pos hfit s _

theorem decompressFrom_bufRange (hfit : 2048 < off.toNat + 32 * d) :
    decompressFrom d r off s = raise .bufRange s :=
  checkRegion_neg hfit s _

/-- The lanes of a decompressed region are residues (R116 (a)). -/
theorem decompress_fieldsAt_range (hd : 1 ≤ d) (hd' : d ≤ 11) :
    ∀ y ∈ fieldsAt d off s, 0 ≤ decompress d y ∧ decompress d y ≤ 3328 := fun y hy =>
  decompress_range hd hd' (Int.natCast_nonneg y) (by exact_mod_cast fieldsAt_lt hy)

theorem tobytes_completes (hfit : off.toNat + 384 ≤ 2048) (hcan : canonical (s.poly r)) :
    exec (.tobytes r off) s = .next (packTo 12 (fun u => u) r off s) :=
  (exec_tobytes r off s).trans (encodeTo_completes hfit hcan)

theorem frombytes_completes (hfit : off.toNat + 384 ≤ 2048) (hres : ∀ y ∈ fieldsAt 12 off s, y ≤ 3328) :
    exec (.frombytes r off) s = .next (unpackTo 12 (fun y => y) r off s) :=
  (checkRegion_pos hfit s _).trans (checkResidues_pos hres s _)

theorem faults_frombytes_decodeRange (hfit : off.toNat + 384 ≤ 2048) (hres : ¬∀ y ∈ fieldsAt 12 off s, y ≤ 3328) :
    faults 6 (.frombytes r off) s :=
  (checkRegion_pos hfit s _).trans (checkResidues_neg hres s _)

theorem faults_frombytes_bufRange (hfit : 2048 < off.toNat + 384) : faults 3 (.frombytes r off) s :=
  checkRegion_neg hfit s _

theorem natCast_fieldsAt_range (hres : ∀ y ∈ fieldsAt d off s, y ≤ 3328) :
    ∀ y ∈ fieldsAt d off s, 0 ≤ (y : Int) ∧ (y : Int) ≤ 3328 := fun y hy => by
  have := hres y hy
  omega

/-- A `FROMBYTES` that does not fault passed both its checks. -/
theorem frombytes_checks {u : State} (hexec : exec (.frombytes r off) s = .next u) (hfault : u.fault = false) :
    off.toNat + 384 ≤ 2048 ∧ ∀ y ∈ fieldsAt 12 off s, y ≤ 3328 := by
  have hnot {code : BitVec 8} (hf : faults code (.frombytes r off) s) : False := by
    cases hexec.symm.trans hf
    cases hfault
  have hfit : off.toNat + 384 ≤ 2048 :=
    Nat.le_of_not_lt fun hlt => hnot (faults_frombytes_bufRange hlt)
  exact ⟨hfit, by_contra fun hres => hnot (faults_frombytes_decodeRange hfit hres)⟩

end

/-- Settles O28: the two checks decide between the register write and the faults. -/
theorem frombytesResult : Obligations.FrombytesResult := by
  refine fun r off s => ⟨decode_word_mem rfl rfl, fun hfit hfields => ?_, fun hfit hbad => ?_,
    faults_frombytes_bufRange⟩
  · have hres : ∀ y ∈ fieldsAt 12 off s, y ≤ 3328 := fun y hy => by
      obtain ⟨i, hi, rfl⟩ := (mem_fieldsAt 12 off s y).mp hy
      exact hfields i hi
    refine ⟨_, frombytes_completes hfit hres, fun i hi => ?_, unpackTo_writesPolys⟩
    rw [lane_unpackTo (natCast_fieldsAt_range hres) hi, fieldsAt_getD 12 off s hi]
  · obtain ⟨i, hi, hbig⟩ := hbad
    exact faults_frombytes_decodeRange hfit fun hres =>
      absurd (hres _ ((mem_fieldsAt 12 off s _).mpr ⟨i, hi, rfl⟩)) (Nat.not_le_of_lt hbig)

/-- A command whose arm is `decompressFrom` fills its register. -/
theorem fills_of_decompressFrom {op d len : Nat} {mk : PReg → Offset → Instr} (hlen : len = 32 * d) (hd : 1 ≤ d)
    (hd' : d ≤ 11) (hdecode : ∀ r off, decode (word op r.val 0 0 0 off.toNat) = .ok (mk r off))
    (hexec : ∀ r off s, exec (mk r off) s = decompressFrom d r off s) :
    fills op len (fun b i => decompressed d (field d b i)) mk := by
  subst hlen
  refine fun r off s => ⟨hdecode r off, fun hfit => ?_, fun hfit => ?_⟩
  · refine ⟨_, (hexec r off s).trans (decompressFrom_completes hfit), fun i hi => ?_, unpackTo_writesPolys⟩
    rw [lane_unpackTo (decompress_fieldsAt_range hd hd') hi, fieldsAt_getD d off s hi]
    rfl
  · exact (hexec r off s).trans (decompressFrom_bufRange hfit)

/-- Settles O30: the four decompressing decoders are one decoder at four widths. -/
theorem decompressResult : Obligations.DecompressResult :=
  ⟨fills_of_decompressFrom rfl (by decide) (by decide) (fun _ _ => decode_word_mem rfl rfl) fun _ _ _ => rfl,
    fills_of_decompressFrom rfl (by decide) (by decide) (fun _ _ => decode_word_mem rfl rfl) fun _ _ _ => rfl,
    fills_of_decompressFrom rfl (by decide) (by decide) (fun _ _ => decode_word_mem rfl rfl) fun _ _ _ => rfl,
    fills_of_decompressFrom rfl (by decide) (by decide) (fun _ _ => decode_word_mem rfl rfl) fun _ _ _ => rfl⟩

/-! Packing and unpacking one after the other (R130). -/

/-- The fields of a region just packed are the fields that went in, if each has at most `d` bits. -/
theorem fieldsAt_packTo {d : Nat} {fieldOf : Int → Int} {r : PReg} {off : Offset} {s : State}
    (hlt : ∀ i, i < 256 → (fieldOf (toUnsigned (lane (s.poly r) i))).toNat < 2 ^ d) :
    fieldsAt d off (packTo d fieldOf r off s) = packedFields fieldOf (s.poly r) := by
  rw [fieldsAt, memRead_packTo]
  exact unpack_pack d _ (packedFields_length _ _) (forall_mem_packedFields hlt)

/-- Unpacking a region and packing the register writes the bytes read, if `fieldOf` undoes `value` on the
fields of the region. -/
theorem memRead_packTo_unpackTo {d : Nat} {fieldOf : Int → Int} {value : Nat → Int} {r : PReg} {off off' : Offset}
    {s : State} (hvalue : ∀ y ∈ fieldsAt d off s, 0 ≤ value y ∧ value y ≤ 3328)
    (hundo : ∀ y ∈ fieldsAt d off s, fieldOf (value y) = y) :
    memRead (packTo d fieldOf r off' (unpackTo d value r off s)).buf off'.toNat (32 * d) =
      memRead s.buf off.toNat (32 * d) := by
  have hfields : packedFields fieldOf ((unpackTo d value r off s).poly r) = fieldsAt d off s := by
    rw [packedFields, lanes_unpackTo hvalue, List.map_map]
    refine (List.map_congr_left fun y hy => ?_).trans (List.map_id _)
    obtain ⟨hnonneg, -⟩ := hvalue y hy
    simp only [Function.comp_apply, toUnsigned_of_nonneg hnonneg, hundo y hy, Int.toNat_natCast, id_eq]
  rw [memRead_packTo, hfields, pack_fieldsAt]

/-- Unpacking leaves a canonical register, so that an encoder of the same width then writes the bytes read. -/
theorem encodeTo_unpackTo {d : Nat} {fieldOf : Int → Int} {value : Nat → Int} {r : PReg} {off off' : Offset}
    {s : State} (hfit : off'.toNat + 32 * d ≤ 2048) (hfault : s.fault = false)
    (hvalue : ∀ y ∈ fieldsAt d off s, 0 ≤ value y ∧ value y ≤ 3328)
    (hundo : ∀ y ∈ fieldsAt d off s, fieldOf (value y) = y) :
    ∃ t, encodeTo d fieldOf r off' (unpackTo d value r off s) = .next t ∧ t.fault = false ∧
      memRead t.buf off'.toNat (32 * d) = memRead s.buf off.toNat (32 * d) :=
  ⟨_, encodeTo_completes hfit (canonical_unpackTo hvalue), by rw [packTo_fault, unpackTo_fault, hfault],
    memRead_packTo_unpackTo hvalue hundo⟩

theorem runAll_pair {i j : Instr} {s t u : State} (hi : exec i s = .next t) (hj : exec j t = .next u) :
    runAll [i, j] s = .next u := by
  simp only [runAll, hi, hj]

/-! `TOBYTES` and `FROMBYTES` (R142 (a), (b)). -/

theorem tobytes_frombytes {a r : PReg} {off : Offset} {s : State} (hfault : s.fault = false)
    (hfit : off.toNat + 384 ≤ 2048) (hcan : canonical (s.poly a)) :
    ∃ t, runAll [.tobytes a off, .frombytes r off] s = .next t ∧ t.fault = false ∧
      ∀ i, i < 256 → lane (t.poly r) i = residue (lane (s.poly a) i) := by
  have hrange (i : Nat) (hi : i < 256) := toUnsigned_range (hcan i hi)
  have hfields : fieldsAt 12 off (packTo 12 (fun u => u) a off s) = packedFields (fun u => u) (s.poly a) :=
    fieldsAt_packTo fun i hi => by
      have := hrange i hi
      omega
  have hres : ∀ y ∈ fieldsAt 12 off (packTo 12 (fun u => u) a off s), y ≤ 3328 := by
    rw [hfields]
    refine forall_mem_packedFields fun i hi => ?_
    have := hrange i hi
    omega
  refine ⟨_, runAll_pair (tobytes_completes hfit hcan) (frombytes_completes hfit hres),
    by rw [unpackTo_fault, packTo_fault, hfault], fun i hi => ?_⟩
  rw [lane_unpackTo (natCast_fieldsAt_range hres) hi, hfields, packedFields_getD _ _ hi,
    Int.toNat_of_nonneg (hrange i hi).1, toUnsigned_eq_residue]

theorem frombytes_tobytes {r : PReg} {off off' : Offset} {s u : State} (hfault : s.fault = false)
    (hfit : off'.toNat + 384 ≤ 2048) (hexec : exec (.frombytes r off) s = .next u) (hfault' : u.fault = false) :
    ∃ t, exec (.tobytes r off') u = .next t ∧ t.fault = false ∧
      memRead t.buf off'.toNat 384 = memRead s.buf off.toNat 384 := by
  obtain ⟨hfrom, hres⟩ := frombytes_checks hexec hfault'
  cases hexec.symm.trans (frombytes_completes hfrom hres)
  rw [exec_tobytes]
  exact encodeTo_unpackTo hfit hfault (natCast_fieldsAt_range hres) fun _ _ => rfl

/-! The error of compression (R142 (d)). -/

/-- A field that wraps to 0 decompresses to the same residue. -/
theorem decompress_emod_congr (d : Nat) (q : Int) : decompress d (q % 2 ^ d) ≡ decompress d q [ZMOD 3329] := by
  have hsplit : q * 3329 + 2 ^ (d - 1) = q % 2 ^ d * 3329 + 2 ^ (d - 1) + q / 2 ^ d * 3329 * 2 ^ d := by
    linear_combination (-3329) * Int.emod_add_mul_ediv q (2 ^ d)
  unfold decompress
  rw [hsplit, Int.add_mul_ediv_right _ _ (by positivity), Int.modEq_iff_add_fac]
  exact ⟨q / 2 ^ d, by ring⟩

/-- Rounding to a field and back moves a residue by at most the two rounding errors. -/
theorem decompress_rounding_error {d : Nat} (hd : 1 ≤ d) (u : Int) :
    |decompress d ((u * 2 ^ d + 1664) / 3329) - u| ≤ (1664 + 2 ^ (d - 1)) / 2 ^ d := by
  have hhalf : (2 : Int) ^ d = 2 * 2 ^ (d - 1) := by rw [← pow_succ', Nat.sub_add_cancel hd]
  have hpos : (0 : Int) < 2 ^ (d - 1) := by positivity
  unfold decompress
  rw [hhalf]
  generalize (2 : Int) ^ (d - 1) = h at hpos ⊢
  have hq : (u * (2 * h) + 1664) / 3329 * 3329 ≤ u * (2 * h) + 1664 ∧
      u * (2 * h) + 1664 < (u * (2 * h) + 1664) / 3329 * 3329 + 3329 := by omega
  generalize (u * (2 * h) + 1664) / 3329 = q at hq ⊢
  have hz := Int.ediv_mul_le (q * 3329 + h) (b := 2 * h) (by omega)
  have hz' := Int.lt_ediv_add_one_mul_self (q * 3329 + h) (b := 2 * h) (by omega)
  generalize (q * 3329 + h) / (2 * h) = z at hz hz' ⊢
  rw [abs_le, neg_le, Int.le_ediv_iff_mul_le (by omega), Int.le_ediv_iff_mul_le (by omega)]
  constructor <;> linarith

/-- Compression and decompression move a lane by at most the rounding error, counted modulo 3329. -/
theorem decompress_compress_error {d : Nat} (hd : 1 ≤ d) (c : Int) :
    min ((decompress d (compress d (toUnsigned c)) - c) % 3329)
      ((c - decompress d (compress d (toUnsigned c))) % 3329) ≤ (1664 + 2 ^ (d - 1)) / 2 ^ d := by
  have hround := abs_le.mp (decompress_rounding_error hd (toUnsigned c))
  have hwrap := decompress_emod_congr d ((toUnsigned c * 2 ^ d + 1664) / 3329)
  have hlane := toUnsigned_congr c
  rw [← compress] at hwrap
  unfold Int.ModEq at hwrap hlane
  omega

/-! `COMPRESSd` and `DECOMPRESSd` (R142 (c), (d)): an encoder and a decoder of one width, given by their arms. -/

theorem width_range {d : Nat} (hd : d ∈ [1, 4, 5, 10, 11]) : 1 ≤ d ∧ d ≤ 11 := by
  simp only [List.mem_cons, List.not_mem_nil, or_false] at hd
  omega

section
variable {d : Nat} {enc dec : PReg → Offset → Instr} {s : State} (hd : d ∈ [1, 4, 5, 10, 11])
  (henc : ∀ r off s, exec (enc r off) s = encodeTo d (compress d) r off s)
  (hdec : ∀ r off s, exec (dec r off) s = decompressFrom d r off s) (hfault : s.fault = false)
include hd henc hdec hfault

theorem decompress_then_compress (r : PReg) {off off' : Offset} (hfit : off.toNat + 32 * d ≤ 2048)
    (hfit' : off'.toNat + 32 * d ≤ 2048) :
    ∃ t, runAll [dec r off, enc r off'] s = .next t ∧ t.fault = false ∧
      memRead t.buf off'.toNat (32 * d) = memRead s.buf off.toNat (32 * d) := by
  obtain ⟨hd1, hd11⟩ := width_range hd
  obtain ⟨t, hpack, hresult⟩ := encodeTo_unpackTo hfit' hfault (r := r) (off := off)
    (decompress_fieldsAt_range hd1 hd11) fun y hy =>
      compress_decompress hd (Int.natCast_nonneg y) (by exact_mod_cast fieldsAt_lt hy)
  exact ⟨t, runAll_pair ((hdec r off s).trans (decompressFrom_completes hfit)) ((henc r off' _).trans hpack),
    hresult⟩

theorem compress_then_decompress {a : PReg} (r : PReg) {off : Offset} (hfit : off.toNat + 32 * d ≤ 2048)
    (hcan : canonical (s.poly a)) {bound : Int} (hbound : (1664 + 2 ^ (d - 1)) / 2 ^ d = bound) :
    ∃ t, runAll [enc a off, dec r off] s = .next t ∧ t.fault = false ∧
      ∀ i, i < 256 → min ((lane (t.poly r) i - lane (s.poly a) i) % 3329)
        ((lane (s.poly a) i - lane (t.poly r) i) % 3329) ≤ bound := by
  obtain ⟨hd1, hd11⟩ := width_range hd
  refine ⟨_, runAll_pair ((henc a off s).trans (encodeTo_completes hfit hcan))
    ((hdec r off _).trans (decompressFrom_completes hfit)), by rw [unpackTo_fault, packTo_fault, hfault],
    fun i hi => ?_⟩
  have hrange (c : Int) := compress_range d (toUnsigned c)
  have hfields : fieldsAt d off (packTo d (compress d) a off s) = packedFields (compress d) (s.poly a) :=
    fieldsAt_packTo fun i _ => by
      have := hrange (lane (s.poly a) i)
      zify
      omega
  rw [lane_unpackTo (decompress_fieldsAt_range hd1 hd11) hi, hfields, packedFields_getD _ _ hi,
    Int.toNat_of_nonneg (hrange _).1, ← hbound]
  exact decompress_compress_error hd1 _

end

/-- Settles O33: packing and unpacking are inverse, compressing undoes decompressing, and decompressing undoes
compressing up to the rounding error of the width. -/
theorem codecRoundTrips : Obligations.CodecRoundTrips := by
  refine ⟨fun _ _ _ _ => tobytes_frombytes, fun _ _ _ _ _ => frombytes_tobytes,
    fun c hc r off off' s hfault hfit hfit' => ?_, fun c hc a r off s hfault hfit hcan => ?_⟩
  · simp only [List.mem_cons, List.not_mem_nil, or_false] at hc
    obtain rfl | rfl | rfl | rfl := hc
    all_goals exact decompress_then_compress (by decide) (fun _ _ _ => rfl) (fun _ _ _ => rfl) hfault r hfit hfit'
  · simp only [List.mem_cons, List.not_mem_nil, or_false] at hc
    obtain rfl | rfl | rfl | rfl := hc
    all_goals
      exact compress_then_decompress (by decide) (fun _ _ _ => rfl) (fun _ _ _ => rfl) hfault r hfit hcan (by decide)

end Sys2Proof.Machine
end

section
/-! Proofs of the message codec family (spec/42_message_codec.md): `TOMSG` is the compressing encoder of width 1
(R161), `FROMMSG` the decompressing decoder of width 1 (R160), and what their round trip keeps (R162). -/

namespace Sys2Proof.Machine

open Sys2Proof.Claim

theorem exec_tomsg (r : PReg) (off : Offset) (s : State) :
    exec (.tomsg r off) s = encodeTo 1 (compress 1) r off s := rfl

/-- Settles O31: `TOMSG` is the compressing encoder of width 1. -/
theorem tomsgResult : Obligations.TomsgResult :=
  packs_of_encodeTo (fun _ _ => decode_word_mem rfl rfl) exec_tomsg

/-! The fields of width 1 are the stream bits (R130), and a bit selects what it decompresses to (R115). -/

theorem groups_one (l : List Bool) : groups 1 l.length l = l.map fun b => [b] := by
  induction l with
  | nil => rfl
  | cons b l ih => simp [groups, ih]

theorem fieldsAt_one (off : Offset) (s : State) :
    fieldsAt 1 off s = (byteBits (memRead s.buf off.toNat 32)).map Bool.toNat := by
  have hlen : (byteBits (memRead s.buf off.toNat 32)).length = 256 := by simp
  rw [fieldsAt, unpack, ← hlen, groups_one, List.map_map]
  rfl

theorem field_one (bytes : List Byte) (i : Nat) : field 1 bytes i = (streamBit bytes i).toNat := by
  simp [field]

theorem decompress_one_toNat (b : Bool) : decompress 1 b.toNat = if b then 1665 else 0 := by
  cases b <;> rfl

/-- `FROMMSG` is the decompressing decoder of width 1 (R160). -/
theorem exec_frommsg (r : PReg) (off : Offset) (s : State) :
    exec (.frommsg r off) s = decompressFrom 1 r off s := by
  have hlanes : (fieldsAt 1 off s).map (fun y : Nat => decompress 1 y) =
      (byteBits (memRead s.buf off.toNat 32)).map fun b => cmov16 0 1665 b := by
    rw [fieldsAt_one, List.map_map]
    exact List.map_congr_left fun b _ => decompress_one_toNat b
  rw [decompressFrom, hlanes]
  rfl

/-- Settles O32: `FROMMSG` is the decompressing decoder of width 1, whose field is the message bit. -/
theorem frommsgResult : Obligations.FrommsgResult := by
  have hvalue : (fun bytes i => decompressed 1 (field 1 bytes i)) =
      fun bytes i => if streamBit bytes i then 1665 else 0 := by
    funext bytes i
    rw [field_one]
    exact decompress_one_toNat _
  have hfills := fills_of_decompressFrom (op := 0x13) (len := 32) rfl (by decide) (by decide)
    (fun _ _ => decode_word_mem rfl rfl) exec_frommsg
  rwa [hvalue] at hfills

/-! The error a message bit survives (R162). -/

/-- A residue compresses to 1 exactly in the middle half of the residues (R113 (c)). -/
theorem compressed_one {u : Int} (h0 : 0 ≤ u) (hq : u < 3329) :
    compressed 1 u = if 833 ≤ u ∧ u ≤ 2496 then 1 else 0 := by
  unfold compressed
  split <;> omega

theorem compressed_one_error {e : Int} (hlo : -832 ≤ e) (hhi : e ≤ 832) :
    compressed 1 (e % 3329) = 0 := by
  rw [compressed_one (by omega) (by omega), if_neg (by omega)]

theorem compressed_one_1665_add_error {e : Int} (hlo : -832 ≤ e) (hhi : e ≤ 832) :
    compressed 1 ((1665 + e) % 3329) = if e = 832 then 0 else 1 := by
  rw [compressed_one (by omega) (by omega)]
  split <;> split <;> omega

/-- Settles O34: the two commands are decoder and encoder of width 1, and an error of up to 832 moves 0 and
1665 out of their halves of the residues in the one case 1665 + 832 only. -/
theorem messageRoundTrip : Obligations.MessageRoundTrip :=
  ⟨fun d _ _ _ hfault hfit hfit' =>
    decompress_then_compress (by decide) exec_tomsg exec_frommsg hfault d hfit hfit',
    fun _ hlo hhi => ⟨compressed_one_error hlo hhi, compressed_one_1665_add_error hlo hhi⟩⟩

end Sys2Proof.Machine
end

section
/-! Proofs of the sampler family (spec/43_noise_sampler.md): the contract of `XOF` (R170), the commands that fill
one register with samples (R172 to R175), the 4-way commands that fill a quad (R176 to R178), and that a batch is
its four single commands in any order (R179). -/

namespace Sys2Proof.Machine

open Sys2Proof.Claim

/-- Settles O39: `XOF` cuts its answers from one stream. -/
theorem xofContract : Obligations.XofContract :=
  fun inp n _ hle => ⟨xof_length inp n, xof_take inp hle⟩

/-! One register of samples (R171 to R175). -/

theorem lane_ofLanes_cbd {eta : Nat} (heta : eta ≤ 3) {bytes : List Byte} (hb : bytes.length = 64 * eta) {i : Nat}
    (hi : i < 256) : lane (ofLanes 256 (cbd eta bytes)) i = sample eta bytes i := by
  have hbound := cbd_bound hb hi
  rw [lane_ofLanes _ hi (by omega)]
  exact cbd_getD hb hi

/-- A command that samples one register from a stream made of its region's bytes. -/
theorem fills_of_cbd {op len eta : Nat} {stream : List Byte → List Byte} {mk : PReg → Offset → Instr} (heta : eta ≤ 3)
    (hstream : ∀ bytes, bytes.length = len → (stream bytes).length = 64 * eta)
    (hdecode : ∀ r off, decode (word op r.val 0 0 0 off.toNat) = .ok (mk r off))
    (hexec : ∀ r off s, exec (mk r off) s =
      checkRegion off len s (completePoly r (cbd eta (stream (memRead s.buf off.toNat len))) s)) :
    fills op len (fun bytes => sample eta (stream bytes)) mk := by
  refine fun r off s => ⟨hdecode r off, fun hfit => ?_, fun hfit => ?_⟩
  · refine ⟨_, (hexec r off s).trans (checkRegion_pos hfit s _), fun i hi => ?_, writePoly_writesPolys s r _⟩
    rw [finish_poly, writePoly_poly_self, lane_ofLanes_cbd heta (hstream _ (memRead_length _ _ _)) hi]
  · exact (hexec r off s).trans (checkRegion_neg hfit s _)

/-- Settles O35: the stream is the region itself. -/
theorem cbdResult : Obligations.CbdResult :=
  ⟨fills_of_cbd (stream := id) (by decide) (fun _ h => h) (fun _ _ => decode_word_mem rfl rfl) fun _ _ _ => rfl,
    fills_of_cbd (stream := id) (by decide) (fun _ h => h) (fun _ _ => decode_word_mem rfl rfl) fun _ _ _ => rfl⟩

/-- Settles O36: the stream is what the sponge squeezes after the region, and it has the length asked for. -/
theorem getnoiseResult : Obligations.GetnoiseResult :=
  ⟨fills_of_cbd (by decide) (fun _ _ => xof_length _ _) (fun _ _ => decode_word_mem rfl rfl) fun _ _ _ => rfl,
    fills_of_cbd (by decide) (fun _ _ => xof_length _ _) (fun _ _ => decode_word_mem rfl rfl) fun _ _ _ => rfl⟩

/-! The registers of a quad (R91). -/

/-- The register of batch lane `l`. -/
def quadReg (r : PReg) (l : Fin 4) : PReg := r + Fin.ofNat 8 l.val

theorem quadReg_injective (r : PReg) : Function.Injective (quadReg r) := by
  revert r
  unfold Function.Injective quadReg
  decide

theorem exists_eq_quadReg_iff {r q : PReg} :
    (∃ l, q = quadReg r l) ↔ q = r ∨ q = r + 1 ∨ q = r + 2 ∨ q = r + 3 := by
  revert r q
  unfold quadReg
  decide

/-- The write of a quad is the four register writes, batch lane 0 first. -/
theorem writeQuad_eq_foldl (s : State) (r : PReg) (f : Fin 4 → Poly) :
    s.writeQuad r (f 0) (f 1) (f 2) (f 3) =
      [0, 1, 2, 3].foldl (fun t l => t.writePoly (quadReg r l) (f l)) s := by
  have hzero : quadReg r 0 = r := add_zero r
  simp only [List.foldl_cons, List.foldl_nil, hzero]
  rfl

theorem writeQuad_poly_quadReg (s : State) (r : PReg) (f : Fin 4 → Poly) (l : Fin 4) :
    (s.writeQuad r (f 0) (f 1) (f 2) (f 3)).poly (quadReg r l) = f l := by
  rw [writeQuad_eq_foldl]
  fin_cases l <;> simp [writePoly_poly, (quadReg_injective r).eq_iff]

theorem writeQuad_writesPolys (s : State) (r : PReg) (f0 f1 f2 f3 : Poly) :
    writesPolys (fun q => ∃ l, q = quadReg r l) s (s.writeQuad r f0 f1 f2 f3).finish := by
  refine ⟨⟨rfl, rfl, rfl, rfl, rfl, rfl⟩, fun _ => rfl, fun q hq => ?_, fun k => ?_⟩
  · simp only [exists_eq_quadReg_iff, not_or] at hq
    simp [writeQuad_poly, hq]
  · rw [finish_cache, writeQuad_cache]
    refine ⟨rfl, rfl, ?_⟩
    simp only [drop_valid_iff, drop_src, exists_eq_quadReg_iff, not_or, and_assoc]

/-! The 4-way commands (R176 to R178). -/

/-- The register content of batch lane `l`: samples of the 33 bytes at stride 33. -/
def batchPoly (eta : Fin 4 → Nat) (off : Offset) (s : State) (l : Fin 4) : Poly :=
  ofLanes 256 (noiseAt Config.xof (eta l) (off.toNat + 33 * l.val) s)

theorem lane_batchPoly {eta : Fin 4 → Nat} (heta : ∀ l, eta l ≤ 3) (off : Offset) (s : State) (l : Fin 4) {i : Nat}
    (hi : i < 256) : lane (batchPoly eta off s l) i =
      sample (eta l) (Config.xof (memRead s.buf (off.toNat + 33 * l.val) 33) (64 * eta l)) i :=
  lane_ofLanes_cbd (heta l) (xof_length _ _) hi

/-- The state in which a 4-way command completes. -/
def writeBatch (eta : Fin 4 → Nat) (r : PReg) (off : Offset) (s : State) : State :=
  (s.writeQuad r (batchPoly eta off s 0) (batchPoly eta off s 1) (batchPoly eta off s 2)
    (batchPoly eta off s 3)).finish

section
variable {eta : Fin 4 → Nat} {r : PReg} {off : Offset} {s : State}

theorem noiseQuad_completes (hquad : r = 0 ∨ r = 4) (hfit : off.toNat + 132 ≤ 2048) :
    noiseQuad Config.xof (eta 0) (eta 1) (eta 2) (eta 3) r off s = .next (writeBatch eta r off s) :=
  (checkQuad_pos ((isQuad_iff r).mpr hquad) s _).trans (checkRegion_pos hfit s _)

theorem noiseQuad_bufRange (hquad : r = 0 ∨ r = 4) (hfit : 2048 < off.toNat + 132) :
    noiseQuad Config.xof (eta 0) (eta 1) (eta 2) (eta 3) r off s = raise .bufRange s :=
  (checkQuad_pos ((isQuad_iff r).mpr hquad) s _).trans (checkRegion_neg hfit s _)

theorem noiseQuad_illegalField (hquad : ¬(r = 0 ∨ r = 4)) :
    noiseQuad Config.xof (eta 0) (eta 1) (eta 2) (eta 3) r off s = raise .illegalField s :=
  checkQuad_neg (by rwa [← isQuad_iff, Bool.not_eq_true] at hquad) s _

end

/-- The word of a 4-way format is legal exactly for a quad (R91). -/
theorem decode_word_quad {op : Nat} {mk : PReg → Offset → Instr} (hop : op < 256)
    (hdecode : ∀ w, bits w 0 8 = op → decode w = decodeQuad w mk) (r : PReg) (off : Offset) :
    decode (word op r.val 0 0 0 off.toNat) = if isQuad r then .ok (mk r off) else .error .illegalField := by
  have hword : word op r.val 0 0 0 off.toNat = encodeM op r off := by simp [word, encodeM]
  obtain ⟨hopcode, -⟩ := encodeM_bits hop r off
  rw [hword, hdecode _ hopcode, decodeQuad_encode hop]

/-- A command whose arm is `noiseQuad` fills its quad. -/
theorem fillsQuad_of_noiseQuad {op : Nat} {eta : Fin 4 → Nat} {mk : PReg → Offset → Instr} (hop : op < 256)
    (heta : ∀ l, eta l ≤ 3) (hdecode : ∀ w, bits w 0 8 = op → decode w = decodeQuad w mk)
    (hexec : ∀ r off s, exec (mk r off) s = noiseQuad Config.xof (eta 0) (eta 1) (eta 2) (eta 3) r off s) :
    fillsQuad op eta mk := by
  refine fun r off s => ⟨fun hquad => ⟨?_, fun hfit => ?_, fun hfit => ?_⟩, fun hquad => ⟨?_, ?_⟩⟩
  · rw [decode_word_quad hop hdecode, if_pos ((isQuad_iff r).mpr hquad)]
  · refine ⟨_, (hexec r off s).trans (noiseQuad_completes hquad hfit), fun l i hi => ?_,
      writeQuad_writesPolys s r _ _ _ _⟩
    rw [← lane_batchPoly heta off s l hi, writeBatch, finish_poly]
    exact congrArg (lane · i) (writeQuad_poly_quadReg s r (batchPoly eta off s) l)
  · exact (hexec r off s).trans (noiseQuad_bufRange hquad hfit)
  · rw [decode_word_quad hop hdecode, if_neg fun h => hquad ((isQuad_iff r).mp h)]
  · exact (hexec r off s).trans (noiseQuad_illegalField hquad)

/-- Settles O37: the three commands are one batch with three choices of `eta`. -/
theorem batchedNoiseResult : Obligations.BatchedNoiseResult :=
  ⟨fillsQuad_of_noiseQuad (by decide) (by decide) (fun _ => decode_getnoise4x2) fun _ _ _ => rfl,
    fillsQuad_of_noiseQuad (by decide) (by decide) (fun _ => decode_getnoise4x3) fun _ _ _ => rfl,
    fillsQuad_of_noiseQuad (by decide) (by decide) (fun _ => decode_getnoise4xmix) fun _ _ _ => rfl⟩

/-! A batch as four single commands (R179). -/

theorem drop_comm (r q : PReg) (c : Cache) : Cache.drop r (Cache.drop q c) = Cache.drop q (Cache.drop r c) := by
  simp [Cache.drop, Bool.and_right_comm]

/-- Writes to two registers commute, tags included. -/
theorem writePoly_comm (s : State) {r q : PReg} (hne : r ≠ q) (f g : Poly) :
    (s.writePoly r f).writePoly q g = (s.writePoly q g).writePoly r f := by
  have hpolys := Vector.set_comm (xs := s.polys) f g (hi := r.isLt) (hj := q.isLt) (Fin.val_ne_of_ne hne)
  simp [State.writePoly, hpolys, drop_comm q r]

/-- What the single command of batch lane `l` does to a state whose `BUF` is that of `s`. -/
def writeBatchLane (eta : Fin 4 → Nat) (r : PReg) (off : Offset) (s t : State) (l : Fin 4) : State :=
  (t.writePoly (quadReg r l) (batchPoly eta off s l)).finish

theorem writeBatch_eq_foldl (eta : Fin 4 → Nat) (r : PReg) (off : Offset) (s : State) :
    writeBatch eta r off s = [0, 1, 2, 3].foldl (writeBatchLane eta r off s) s := by
  rw [writeBatch, writeQuad_eq_foldl s r (batchPoly eta off s)]
  rfl

theorem writeBatchLane_comm (eta : Fin 4 → Nat) (r : PReg) (off : Offset) (s t : State) (l m : Fin 4) :
    writeBatchLane eta r off s (writeBatchLane eta r off s t l) m =
      writeBatchLane eta r off s (writeBatchLane eta r off s t m) l := by
  by_cases hlm : l = m
  · rw [hlm]
  · exact congrArg State.finish
      (writePoly_comm t.finish ((quadReg_injective r).ne hlm) (batchPoly eta off s l) (batchPoly eta off s m))

theorem foldl_writeBatchLane_perm {order : List (Fin 4)} (hperm : order.Perm [0, 1, 2, 3]) (eta : Fin 4 → Nat)
    (r : PReg) (off : Offset) (s : State) :
    order.foldl (writeBatchLane eta r off s) s = writeBatch eta r off s := by
  rw [writeBatch_eq_foldl]
  exact hperm.foldl_eq' (fun l _ m _ t => writeBatchLane_comm eta r off s t l m) s

/-- The offset of batch lane `l` does not wrap when the region of the batch fits. -/
theorem batchOffset_toNat {off : Offset} (hfit : off.toNat + 132 ≤ 2048) (l : Fin 4) :
    (off + BitVec.ofNat 12 (33 * l.val)).toNat = off.toNat + 33 * l.val := by
  rw [BitVec.toNat_add, BitVec.toNat_ofNat]
  omega

theorem noiseFrom_batchLane {off : Offset} (hfit : off.toNat + 132 ≤ 2048) (eta : Fin 4 → Nat) (r : PReg) {s t : State}
    (hbuf : t.buf = s.buf) (l : Fin 4) :
    noiseFrom Config.xof (eta l) (quadReg r l) (off + BitVec.ofNat 12 (33 * l.val)) t =
      .next (writeBatchLane eta r off s t l) := by
  have hoff := batchOffset_toNat hfit l
  rw [noiseFrom, checkRegion_pos (by omega), hoff, noiseAt, hbuf]
  rfl

/-- Single commands of batch lanes, one after the other: none changes `BUF`, so each samples what it would have
sampled first. -/
theorem runAll_batchLanes {off : Offset} (hfit : off.toNat + 132 ≤ 2048) {eta : Fin 4 → Nat} {r : PReg}
    {cmd : Fin 4 → Instr}
    (hcmd : ∀ l t, exec (cmd l) t =
      noiseFrom Config.xof (eta l) (quadReg r l) (off + BitVec.ofNat 12 (33 * l.val)) t)
    (order : List (Fin 4)) {s t : State} (hbuf : t.buf = s.buf) :
    runAll (order.map cmd) t = .next (order.foldl (writeBatchLane eta r off s) t) := by
  induction order generalizing t with
  | nil => rfl
  | cons l order ih =>
    have hstep := (hcmd l t).trans (noiseFrom_batchLane hfit eta r hbuf l)
    simp only [List.map_cons, runAll, hstep, List.foldl_cons]
    exact ih hbuf

/-- A 4-way command and the single commands of its lanes, in any order. -/
theorem exec_batch_eq_runAll {r : PReg} {off : Offset} (hquad : r = 0 ∨ r = 4) (hfit : off.toNat + 132 ≤ 2048)
    {order : List (Fin 4)} (hperm : order.Perm [0, 1, 2, 3]) {eta : Fin 4 → Nat} {batch : Instr} {cmd : Fin 4 → Instr}
    {s : State} (hbatch : exec batch s = noiseQuad Config.xof (eta 0) (eta 1) (eta 2) (eta 3) r off s)
    (hcmd : ∀ l t, exec (cmd l) t =
      noiseFrom Config.xof (eta l) (quadReg r l) (off + BitVec.ofNat 12 (33 * l.val)) t) :
    exec batch s = runAll (order.map cmd) s := by
  rw [hbatch, noiseQuad_completes hquad hfit, runAll_batchLanes hfit hcmd order rfl,
    foldl_writeBatchLane_perm hperm]

/-- Settles O38: the writes to four different registers commute, and none changes what another samples. -/
theorem batchEqualsSingles : Obligations.BatchEqualsSingles := by
  intro r off s order hquad hfit hperm
  refine ⟨exec_batch_eq_runAll (eta := fun _ => 2) hquad hfit hperm rfl fun _ _ => rfl,
    exec_batch_eq_runAll (eta := fun _ => 3) hquad hfit hperm rfl fun _ _ => rfl,
    exec_batch_eq_runAll (eta := fun l => if l.val < 2 then 3 else 2) hquad hfit hperm rfl fun l t => ?_⟩
  dsimp only
  split
  · rfl
  · rfl

end Sys2Proof.Machine
end

section
/-! Proofs of the transform family (spec/44_ntt.md): Montgomery reduction and the twiddle table (R191, R194),
the results and the meaning of `NTT`, `INTT` and `TOMONT` (R195 to R203), and the round trips (R202). -/

namespace Sys2Proof.Machine

open Sys2Proof.Claim

/-! Montgomery arithmetic (R191, R192, R194). -/

theorem mred_congr_mul (a : Int) : mred a ≡ 169 * a [ZMOD 3329] := by
  rw [← zq_eq_iff, zq_mred]
  push_cast
  ring

/-- The bound of R191, without the fraction. -/
theorem abs_mred_le (a : Int) : 2 * 65536 * |mred a| ≤ 2 * |a| + 3329 * 65536 := by
  obtain ⟨hlo, hhi⟩ := mred_bound (abs_le.mp le_rfl : -|a| ≤ a ∧ a ≤ |a|)
  have habs : |mred a| * 65536 ≤ |a| + 32768 * 3329 := by
    rw [← abs_of_pos (show (0 : Int) < 65536 by decide), ← abs_mul]
    exact abs_le.mpr ⟨hlo, hhi⟩
  omega

/-- Settles O41: exactness, residue and bound of `mred`, each a lemma of its own. -/
theorem montgomeryReduction : Obligations.MontgomeryReduction :=
  fun a => ⟨(mul_comm _ _).trans (mred_mul a), mred_congr_mul a, abs_mred_le a⟩

theorem zeta_le {i : Nat} (hi : i < 128) : zeta i ≤ 1653 := by
  have hall : ∀ x ∈ zetas, x ≤ 1653 := by decide +kernel
  exact getD_of_forall_mem (p := (· ≤ 1653)) (by rwa [zetas_length]) hall

/-- Settles O40: the listing against the formula, and the largest entry. -/
theorem twiddleTable : Obligations.TwiddleTable :=
  ⟨zetas_length, fun i hi => ⟨zeta_eq_formula hi, (zeta_range i).1, zeta_le hi⟩⟩

/-- The Montgomery form of 2^16 is 1353: `fqmul` with it multiplies by 2^16 (R203). -/
theorem fqmul_1353_congr (x : Int) : fqmul x 1353 ≡ 65536 * x [ZMOD 3329] := by
  have hfactor : (1353 * 169 : Zq) = 65536 := by decide +kernel
  rw [← zq_eq_iff, zq_fqmul]
  push_cast
  rw [mul_assoc, hfactor, mul_comm]

theorem fqmul_1353_bound {x : Int} (h : -32768 ≤ x ∧ x ≤ 32767) :
    -2341 ≤ fqmul x 1353 ∧ fqmul x 1353 ≤ 2341 := by
  have := fqmul_bound (a := x) (b := 1353) (A := 32768) (B := 1353) (by omega) (by omega)
  omega

/-- The two spellings of the factor of R200. -/
theorem mul_2285_congr (x : Int) : 2285 * x ≡ 65536 * x [ZMOD 3329] :=
  Int.ModEq.mul_right x (by decide)

theorem cmod_eq_of_congr {x y : Int} (h : x ≡ y [ZMOD 3329]) : cmod x = cmod y :=
  cmod_unique (cmod_range y) ((cmod_congr y).trans h.symm)

/-! A completed register write (R11, R25, R60), and the commands that end in one. -/

/-- The state after a command that writes the integers `f` to `P[r]` and completes. -/
def writeLanes (r : PReg) (f : List Int) (s : State) : State := (s.writePoly r (ofLanes 256 f)).finish

section
variable {r : PReg} {f : List Int} {s : State}

theorem writeLanes_poly_ne {q : PReg} (h : q ≠ r) : (writeLanes r f s).poly q = s.poly q := writePoly_poly_ne s _ h

theorem lane_writeLanes {i : Nat} (hi : i < 256) (h : fits (f.getD i 0)) :
    lane ((writeLanes r f s).poly r) i = f.getD i 0 := lane_writePoly_ofLanes s r hi h

theorem lanes_writeLanes (hl : f.length = 256) (h : ∀ i, i < 256 → fits (f.getD i 0)) :
    lanes ((writeLanes r f s).poly r) = f := by
  rw [writeLanes, finish_poly, writePoly_poly_self, lanes_ofLanes_getD hl h]

theorem writeLanes_writesPolys : writesPolys (fun q => q = r) s (writeLanes r f s) := writePoly_writesPolys s r _

end

/-- The word of a register format spells the command whose encoding has these fields (R81). -/
theorem decode_word_regs {op d a b c : Nat} {i : Instr} (henc : encode i = encodeRegs op d a b c)
    (hwf : i.wellFormed = true) : decode (word op d a b c 0) = .ok i := by
  rw [word_regs, ← henc]
  exact decodeUndoesEncode i hwf

section
variable {r : PReg} {s : State}

theorem exec_tomont : exec (.tomont r) s = .next (writeLanes r ((lanes (s.poly r)).map (fqmul · 1353)) s) := rfl

theorem exec_reduce : exec (.reduce r) s = .next (writeLanes r ((lanes (s.poly r)).map cmod) s) := rfl

theorem exec_intt : exec (.intt r) s = .next (writeLanes r (inttFn (lanes (s.poly r))) s) := rfl

theorem exec_ntt (h : canonical (s.poly r)) :
    exec (.ntt r) s = .next (writeLanes r (nttFn (lanes (s.poly r))) s) := checkCanonical_pos h _

theorem faults_ntt (h : ¬canonical (s.poly r)) : faults 5 (.ntt r) s := checkCanonical_neg h _

end

/-- Settles O13: lane by lane, the Montgomery product of an int16 with 1353. -/
theorem tomontResult : Obligations.TomontResult := by
  refine fun rd s => ⟨decode_word_regs (i := .tomont rd) rfl rfl, _, exec_tomont, fun i hi => ?_,
    writeLanes_writesPolys⟩
  have hmap : ((lanes (s.poly rd)).map (fqmul · 1353)).getD i 0 = fqmul (lane (s.poly rd) i) 1353 :=
    map_lanes_getD _ _ hi
  have hbound := fqmul_1353_bound (lane_bound (s.poly rd) i)
  rw [lane_writeLanes hi (by unfold fits; omega), hmap]
  exact ⟨rfl, fqmul_1353_congr _, hbound⟩

/-! `NTT` (R195 to R197). -/

theorem nttFn_lanes_bound {f : Poly} (h : canonical f) (i : Nat) :
    -16534 ≤ (nttFn (lanes f)).getD i 0 ∧ (nttFn (lanes f)).getD i 0 ≤ 16534 :=
  nttFn_bound (lanes_length f) (fun j hj => by rw [lanes_getD]; exact h j hj) i

theorem nttFn_lanes_fits {f : Poly} (h : canonical f) (i : Nat) : fits ((nttFn (lanes f)).getD i 0) := by
  have := nttFn_lanes_bound h i
  unfold fits
  omega

section
variable {r : PReg} {s : State} (hcan : canonical (s.poly r))
include hcan

theorem lanes_ntt : lanes ((writeLanes r (nttFn (lanes (s.poly r))) s).poly r) = nttFn (lanes (s.poly r)) :=
  lanes_writeLanes (nttFn_length (lanes_length _)) fun i _ => nttFn_lanes_fits hcan i

theorem lane_ntt {i : Nat} (hi : i < 256) :
    lane ((writeLanes r (nttFn (lanes (s.poly r))) s).poly r) i = (nttFn (lanes (s.poly r))).getD i 0 :=
  lane_writeLanes hi (nttFn_lanes_fits hcan i)

end

/-- Settles O14: the check decides between the register write and the fault; the output bound of R197 makes the
written lanes exact. -/
theorem nttResult : Obligations.NttResult :=
  fun rd _ => ⟨decode_word_regs (i := .ntt rd) rfl rfl,
    fun hcan => ⟨_, exec_ntt hcan, fun _ hi => lane_ntt hcan hi, writeLanes_writesPolys⟩,
    faults_ntt⟩

/-- R196 on residues: the claim's sum is `transform`. -/
theorem holdsTransform_iff {a : Nat → Int} {x : Int} (i : Fin 256) :
    holdsTransform a x i ↔ (x : Zq) = transform (fun j => (a j : Zq)) i := by
  rw [holdsTransform, ← zq_eq_iff, transform, Finset.sum_range]
  push_cast
  rfl

theorem residues_lanes (f : Poly) : residues (lanes f) = fun j : Fin 256 => ((lane f j : Int) : Zq) := by
  funext j
  rw [residues, lanes_getD]

/-- Settles O15: `nttFn` is `transform` on residues, and the register holds `nttFn`. -/
theorem nttMeaning : Obligations.NttMeaning := by
  refine fun rd s hcan => ⟨_, exec_ntt hcan, fun i hi => ?_⟩
  rw [lane_ntt hcan hi, holdsTransform_iff ⟨i, hi⟩, ← residues_lanes, ← residues_nttFn (lanes_length _)]
  rfl

/-! `INTT` (R199 to R201). -/

/-- R201 on a register's content. -/
theorem inttFn_lanes_bound (f : Poly) {i : Nat} (hi : i < 256) :
    (i < 128 → -1664 ≤ (inttFn (lanes f)).getD i 0 ∧ (inttFn (lanes f)).getD i 0 ≤ 1664) ∧
    -1785 ≤ (inttFn (lanes f)).getD i 0 ∧ (inttFn (lanes f)).getD i 0 ≤ 1785 :=
  inttFn_bound (lanes_length f) (fun j _ => lane_getD_bound f j) hi

theorem inttFn_lanes_fits (f : Poly) {i : Nat} (hi : i < 256) : fits ((inttFn (lanes f)).getD i 0) := by
  have := inttFn_lanes_bound f hi
  unfold fits
  omega

theorem lanes_intt {r : PReg} {s : State} :
    lanes ((writeLanes r (inttFn (lanes (s.poly r))) s).poly r) = inttFn (lanes (s.poly r)) :=
  lanes_writeLanes (inttFn_length (lanes_length _)) fun _ hi => inttFn_lanes_fits _ hi

theorem lane_intt {r : PReg} {s : State} {i : Nat} (hi : i < 256) :
    lane ((writeLanes r (inttFn (lanes (s.poly r))) s).poly r) i = (inttFn (lanes (s.poly r))).getD i 0 :=
  lane_writeLanes hi (inttFn_lanes_fits _ hi)

/-- Settles O16: the output bound of R201 makes the written lanes exact. -/
theorem inttResult : Obligations.InttResult :=
  fun rd _ => ⟨decode_word_regs (i := .intt rd) rfl rfl, _, exec_intt, fun _ hi => lane_intt hi,
    writeLanes_writesPolys⟩

/-- Settles O17: the bounds of `inttFn`, read from the register. -/
theorem inttBounds : Obligations.InttBounds := by
  refine fun rd s => ⟨_, exec_intt, fun i hi => ?_, fun i _ hi => ?_⟩
  · rw [lane_intt (by omega)]
    exact (inttFn_lanes_bound _ (by omega)).1 hi
  · rw [lane_intt hi]
    exact (inttFn_lanes_bound _ hi).2

/-- Settles O18: `inttFn` takes `transform v` to `2285 * v` on residues, and 65536 has the residue 2285. -/
theorem inttMeaning : Obligations.InttMeaning := by
  intro rd s a ha
  have htransform : residues (lanes (s.poly rd)) = transform fun j => (a j : Zq) := by
    funext i
    rw [residues_lanes]
    exact (holdsTransform_iff i).mp (ha i i.isLt)
  refine ⟨_, exec_intt, fun i hi => ?_⟩
  have hcongr : (inttFn (lanes (s.poly rd))).getD i 0 ≡ 2285 * a i [ZMOD 3329] := by
    have hres := congrFun (residues_inttFn (lanes_length _) htransform) ⟨i, hi⟩
    rw [← zq_eq_iff]
    push_cast
    exact hres
  rw [lane_intt hi]
  exact ⟨hcongr.trans (mul_2285_congr _), hcongr⟩

/-! The two bare round trips (R202). -/

theorem ntt_then_intt {d : PReg} {s : State} (hcan : canonical (s.poly d)) :
    ∃ t, runAll [.ntt d, .intt d] s = .next t ∧ t.fault = s.fault ∧
      ∀ i, i < 256 → lane (t.poly d) i ≡ 2285 * lane (s.poly d) i [ZMOD 3329] ∧
        -1785 ≤ lane (t.poly d) i ∧ lane (t.poly d) i ≤ 1785 := by
  refine ⟨_, runAll_pair (exec_ntt hcan) exec_intt, rfl, fun i hi => ?_⟩
  rw [lane_intt hi]
  refine ⟨?_, (inttFn_lanes_bound _ hi).2⟩
  rw [lanes_ntt hcan, ← zq_eq_iff,
    inttFn_undoes (lanes_length _) (nttFn_length (lanes_length _)) (fun _ _ => rfl) hi, lanes_getD]
  push_cast
  rfl

/-- After `INTT` the register is canonical (R201), so `NTT` does not fault. -/
theorem intt_then_ntt (d : PReg) (s : State) :
    ∃ t, runAll [.intt d, .ntt d] s = .next t ∧ t.fault = s.fault ∧
      ∀ i, i < 256 → lane (t.poly d) i ≡ 2285 * lane (s.poly d) i [ZMOD 3329] := by
  have hcan : canonical ((writeLanes d (inttFn (lanes (s.poly d))) s).poly d) := by
    intro i hi
    have := inttFn_lanes_bound (s.poly d) hi
    rw [lane_intt hi]
    omega
  refine ⟨_, runAll_pair exec_intt (exec_ntt hcan), rfl, fun i hi => ?_⟩
  rw [lane_ntt hcan hi, lanes_intt, ← zq_eq_iff, nttFn_inttFn (lanes_length _) hi, lanes_getD]
  push_cast
  rfl

/-! The round trip through one product (R202), by the sequence of R227. -/

theorem runAll_single {i : Instr} {s t : State} (h : exec i s = .next t) : runAll [i] s = .next t := by
  simp only [runAll, h]

theorem runAll_append {l l' : List Instr} {s t : State} (h : runAll l s = .next t) :
    runAll (l ++ l') s = runAll l' t := by
  induction l generalizing s with
  | nil => cases h; rfl
  | cons i l ih =>
    obtain ⟨u, hu, -⟩ := exec_lawful i s
    simp only [List.cons_append, runAll, hu] at h ⊢
    exact ih h

/-- The state after `MULCACHE` (R223). -/
def writeMulcache (c : CReg) (r : PReg) (s : State) : State :=
  (s.writeCache c (ofLanes 128 (mulcacheFn (lanes (s.poly r)))) r).finish

section
variable {c : CReg} {a b d : PReg} {s : State}

theorem exec_mulcache : exec (.mulcache c b) s = .next (writeMulcache c b s) := rfl

/-- With the cache just computed, the product is `basemul_fn` of two operands and the second one's
`mulcache_fn`. -/
theorem cachedProduct_writeMulcache : cachedProduct a b c (writeMulcache c b s) =
    basemulFn (lanes (s.poly a)) (lanes (s.poly b)) (mulcacheFn (lanes (s.poly b))) := by
  simp [writeMulcache, cachedProduct, lanes_mulcache]

theorem exec_basemul {cc : CReg} (hvalid : (s.cache cc).valid = true) (hsrc : (s.cache cc).src = b)
    (hfits : FitsAll (cachedProduct a b cc s)) :
    exec (.basemul d a b cc) s = .next (writeLanes d (cachedProduct a b cc s) s) :=
  (checkTag_pos hvalid hsrc _).trans (checkFits_pos hfits _ _)

/-- `BASEMUL` after `MULCACHE`: the tag check passes. -/
theorem mulcache_then_basemul {f g : List Int} (ha : lanes (s.poly a) = f) (hb : lanes (s.poly b) = g)
    (hfits : FitsAll (basemulFn f g (mulcacheFn g))) :
    ∃ t, runAll [.mulcache c b, .basemul d a b c] s = .next t ∧ t.fault = s.fault ∧
      lanes (t.poly d) = basemulFn f g (mulcacheFn g) := by
  subst ha hb
  rw [← cachedProduct_writeMulcache (c := c)] at hfits ⊢
  exact ⟨_, runAll_pair exec_mulcache (exec_basemul (by simp [writeMulcache]) (by simp [writeMulcache]) hfits), rfl,
    lanes_writeLanes (basemulFn_length _ _ _) fun i hi => hfits i (by simpa [cachedProduct] using hi)⟩

end

theorem basemul_ntt_fits {f g : Poly} (hf : canonical f) (hg : canonical g) :
    FitsAll (basemulFn (nttFn (lanes f)) (nttFn (lanes g)) (mulcacheFn (nttFn (lanes g)))) := by
  intro i hi
  have := basemul_ntt_bound (nttFn_lanes_bound hf) (nttFn_lanes_bound hg) (i := i) (by simpa using hi)
  omega

/-- The two forward transforms, on different registers. -/
theorem ntt_then_ntt {a b : PReg} {s : State} (hab : a ≠ b) (ha : canonical (s.poly a)) (hb : canonical (s.poly b)) :
    ∃ t, runAll [.ntt a, .ntt b] s = .next t ∧ t.fault = s.fault ∧
      lanes (t.poly a) = nttFn (lanes (s.poly a)) ∧ lanes (t.poly b) = nttFn (lanes (s.poly b)) := by
  have hpoly : (writeLanes a (nttFn (lanes (s.poly a))) s).poly b = s.poly b := writeLanes_poly_ne hab.symm
  refine ⟨_, runAll_pair (exec_ntt ha) (exec_ntt (by rwa [hpoly])), rfl, ?_, ?_⟩
  · rw [writeLanes_poly_ne hab]
    exact lanes_ntt ha
  · rw [lanes_ntt (by rwa [hpoly]), hpoly]

/-- The five commands of R227 complete and leave a negacyclic product within the bound of R201: `product_ring`,
carried to registers. -/
theorem runAll_product {a b : PReg} (d : PReg) (c : CReg) {s : State} (hab : a ≠ b) (ha : canonical (s.poly a))
    (hb : canonical (s.poly b)) :
    ∃ t, runAll [.ntt a, .ntt b, .mulcache c b, .basemul d a b c, .intt d] s = .next t ∧ t.fault = s.fault ∧
      ∀ i, i < 256 → lane (t.poly d) i ≡ negacyclic (lane (s.poly a)) (lane (s.poly b)) i [ZMOD 3329] ∧
        -1785 ≤ lane (t.poly d) i ∧ lane (t.poly d) i ≤ 1785 := by
  obtain ⟨t, ht, htf, hta, htb⟩ := ntt_then_ntt hab ha hb
  obtain ⟨u, hu, huf, hud⟩ := mulcache_then_basemul (d := d) (c := c) hta htb (basemul_ntt_fits ha hb)
  refine ⟨writeLanes d (inttFn (lanes (u.poly d))) u, ?_, huf.trans htf, fun i hi => ?_⟩
  · exact (runAll_append (l' := [.mulcache c b, .basemul d a b c, .intt d]) ht).trans
      ((runAll_append (l' := [.intt d]) hu).trans (runAll_single exec_intt))
  · have hring := product_ring (lanes_length (s.poly a)) (lanes_length (s.poly b)) hi
    simp only [lanes_getD] at hring
    rw [lane_intt hi]
    exact ⟨hud ▸ hring, (inttFn_lanes_bound _ hi).2⟩

/-- The polynomial 1 is the unit of the negacyclic product. -/
theorem negacyclic_one (a : Nat → Int) {b : Nat → Int} (hone : b 0 = 1) (hzero : ∀ k, 0 < k → k < 256 → b k = 0)
    {i : Nat} (hi : i < 256) : negacyclic a b i = a i := by
  rw [negacyclic, Finset.sum_eq_single_of_mem i (Finset.mem_range.mpr hi)]
  · simp [hone]
  · intro j hj hne
    have hj := Finset.mem_range.mp hj
    split
    · rw [hzero (i - j) (by omega) (by omega), mul_zero]
    · rw [hzero (256 + i - j) (by omega) (by omega), mul_zero, neg_zero]

theorem canonical_one {f : Poly} (hone : lane f 0 = 1) (hzero : ∀ i, 0 < i → i < 256 → lane f i = 0) :
    canonical f := by
  intro i hi
  obtain rfl | hpos := Nat.eq_zero_or_pos i
  · omega
  · have := hzero i hpos hi
    omega

theorem lane_reduce {r : PReg} {s : State} {i : Nat} (hi : i < 256) :
    lane ((writeLanes r ((lanes (s.poly r)).map cmod) s).poly r) i = cmod (lane (s.poly r) i) := by
  have hmap : ((lanes (s.poly r)).map cmod).getD i 0 = cmod (lane (s.poly r) i) := map_lanes_getD _ _ hi
  have := cmod_range (lane (s.poly r) i)
  rw [lane_writeLanes hi (by unfold fits; omega), hmap]

theorem product_by_one_then_reduce {a b : PReg} (d : PReg) (c : CReg) {s : State} (hab : a ≠ b)
    (ha : canonical (s.poly a)) (hone : lane (s.poly b) 0 = 1)
    (hzero : ∀ i, 0 < i → i < 256 → lane (s.poly b) i = 0) :
    ∃ t, runAll [.ntt a, .ntt b, .mulcache c b, .basemul d a b c, .intt d, .reduce d] s = .next t ∧
      t.fault = s.fault ∧ ∀ i, i < 256 → lane (t.poly d) i = cmod (lane (s.poly a) i) := by
  obtain ⟨t, ht, hfault, hlane⟩ := runAll_product d c hab ha (canonical_one hone hzero)
  refine ⟨_, (runAll_append (l' := [.reduce d]) ht).trans (runAll_single exec_reduce), hfault, fun i hi => ?_⟩
  obtain ⟨hcongr, -⟩ := hlane i hi
  rw [negacyclic_one _ hone hzero hi] at hcongr
  exact (lane_reduce hi).trans (cmod_eq_of_congr hcongr)

/-- Settles O19, round trip by round trip. -/
theorem transformRoundTrips : Obligations.TransformRoundTrips := by
  refine ⟨fun d s hfault hcan => ?_, fun d s hfault => ?_, fun a b d c s hab hfault ha hone hzero => ?_⟩
  · rw [← hfault]
    exact ntt_then_intt hcan
  · rw [← hfault]
    exact intt_then_ntt d s
  · rw [← hfault]
    exact product_by_one_then_reduce d c hab ha hone hzero

end Sys2Proof.Machine
end

section
/-! Proofs of the multiplication cache family (spec/45_mulcache_basemul.md): the results of `MULCACHE`, `BASEMUL`
and `BASEMULACC` (R222 to R225), the cached product against the from-scratch one and against the ring product (R226,
R227), and the caches a write makes stale (R229). -/

namespace Sys2Proof.Machine

open Sys2Proof.Claim

/-! `MULCACHE` (R221, R223). -/

section
variable {c : CReg} {r : PReg} {s : State}

/-- A cache entry fits int16 (R221), so the register holds `mulcache_fn` exactly. -/
theorem lane_writeMulcache {p : Nat} (hp : p < 128) :
    lane ((writeMulcache c r s).cache c).data p = fqmul (lane (s.poly r) (2 * p + 1)) (gammaM p) := by
  have hdata : ((writeMulcache c r s).cache c).data = ofLanes 128 (mulcacheFn (lanes (s.poly r))) := by
    simp [writeMulcache]
  rw [hdata, ← lanes_getD, lanes_mulcache, mulcacheFn_getD _ hp, lanes_getD]

theorem writeMulcache_writesCache : writesCache c s (writeMulcache c r s) :=
  ⟨⟨rfl, rfl, rfl, rfl, rfl, rfl⟩, fun _ => rfl, fun _ => rfl, fun _ hk => writeCache_cache_ne s _ r hk⟩

end

/-- Settles O20: the command is one cache write. -/
theorem mulcacheResult : Obligations.MulcacheResult :=
  fun cd ra s => ⟨decode_word_regs (i := .mulcache cd ra) rfl rfl, _, exec_mulcache,
    fun _ hp => lane_writeMulcache hp, by simp [writeMulcache], by simp [writeMulcache], writeMulcache_writesCache⟩

/-! The product lane by lane (R222), and the checks it goes through (R224, R225). -/

theorem basemulLane_eq_productLane (a b c : List Int) (i : Nat) :
    basemulLane a b c i = productLane (a.getD · 0) (b.getD · 0) (c.getD · 0) i := by
  obtain ⟨p, rfl | rfl⟩ := Nat.even_or_odd' i
  · rw [basemulLane_even]
    simp [productLane]
  · rw [basemulLane_odd]
    simp [productLane, Nat.add_mod]

/-- The sums that `BASEMULACC` writes (R225). -/
def accumulated (rd ra rb : PReg) (cc : CReg) (s : State) : List Int :=
  List.zipWith (· + ·) (lanes (s.poly rd)) (cachedProduct ra rb cc s)

section
variable {rd ra rb : PReg} {cc : CReg} {s : State}

theorem cachedProduct_length : (cachedProduct ra rb cc s).length = 256 := basemulFn_length _ _ _

theorem cachedProduct_getD {i : Nat} (hi : i < 256) : (cachedProduct ra rb cc s).getD i 0 = product ra rb cc s i := by
  rw [cachedProduct, basemulFn_getD _ _ _ hi, basemulLane_eq_productLane]
  simp only [lanes_getD, product]

theorem fitsAll_cachedProduct_iff :
    FitsAll (cachedProduct ra rb cc s) ↔ ∀ i, i < 256 → fits (product ra rb cc s i) := by
  rw [FitsAll, cachedProduct_length]
  exact forall₂_congr fun i hi => by rw [cachedProduct_getD hi, fits]

theorem accumulated_length : (accumulated rd ra rb cc s).length = 256 := by
  simp [accumulated, cachedProduct_length]

theorem accumulated_getD {i : Nat} (hi : i < 256) :
    (accumulated rd ra rb cc s).getD i 0 = lane (s.poly rd) i + product ra rb cc s i := by
  rw [accumulated, zipWith_getD _ cachedProduct_length _ hi, cachedProduct_getD hi]

theorem fitsAll_accumulated_iff :
    FitsAll (accumulated rd ra rb cc s) ↔ ∀ i, i < 256 → fits (lane (s.poly rd) i + product ra rb cc s i) := by
  rw [FitsAll, accumulated_length]
  exact forall₂_congr fun i hi => by rw [accumulated_getD hi, fits]

theorem faults_basemul_of_not_current (h : ¬((s.cache cc).valid = true ∧ (s.cache cc).src = rb)) :
    faults 4 (.basemul rd ra rb cc) s := checkTag_neg h _

theorem faults_basemulacc_of_not_current (h : ¬((s.cache cc).valid = true ∧ (s.cache cc).src = rb)) :
    faults 4 (.basemulacc rd ra rb cc) s := checkTag_neg h _

variable (hvalid : (s.cache cc).valid = true) (hsrc : (s.cache cc).src = rb)
include hvalid hsrc

theorem faults_basemul_of_overflow (h : ¬FitsAll (cachedProduct ra rb cc s)) : faults 7 (.basemul rd ra rb cc) s :=
  (checkTag_pos hvalid hsrc _).trans (checkFits_neg h _ _)

theorem exec_basemulacc (hprod : FitsAll (cachedProduct ra rb cc s)) (hsums : FitsAll (accumulated rd ra rb cc s)) :
    exec (.basemulacc rd ra rb cc) s = .next (writeLanes rd (accumulated rd ra rb cc s) s) :=
  (checkTag_pos hvalid hsrc _).trans ((checkFits_pos hprod _ _).trans (checkFits_pos hsums _ _))

/-- The product is checked before the sums; both checks have the same fault. -/
theorem faults_basemulacc_of_overflow
    (h : ¬(FitsAll (cachedProduct ra rb cc s) ∧ FitsAll (accumulated rd ra rb cc s))) :
    faults 7 (.basemulacc rd ra rb cc) s := by
  refine (checkTag_pos hvalid hsrc _).trans ?_
  by_cases hprod : FitsAll (cachedProduct ra rb cc s)
  · exact (checkFits_pos hprod _ _).trans (checkFits_neg (fun hsums => h ⟨hprod, hsums⟩) _ _)
  · exact checkFits_neg hprod _ _

end

/-- Settles O21: the tag check, then the overflow check, decide between the register write and a fault. -/
theorem basemulResult : Obligations.BasemulResult := by
  refine fun rd ra rb cc s => ⟨decode_word_regs (i := .basemul rd ra rb cc) rfl rfl,
    fun hvalid hsrc hfits => ⟨_, exec_basemul hvalid hsrc (fitsAll_cachedProduct_iff.mpr hfits), fun i hi => ?_,
      writeLanes_writesPolys⟩,
    fun hvalid hsrc ⟨i, hi, hover⟩ => faults_basemul_of_overflow hvalid hsrc fun hall =>
      hover (fitsAll_cachedProduct_iff.mp hall i hi),
    faults_basemul_of_not_current⟩
  have hlane := cachedProduct_getD (ra := ra) (rb := rb) (cc := cc) (s := s) hi
  rw [lane_writeLanes hi (hlane ▸ hfits i hi), hlane]

/-- Settles O22: as `basemulResult`, with the second overflow check. -/
theorem basemulaccResult : Obligations.BasemulaccResult := by
  refine fun rd ra rb cc s => ⟨decode_word_regs (i := .basemulacc rd ra rb cc) rfl rfl,
    fun hvalid hsrc hprod hsums => ⟨_, exec_basemulacc hvalid hsrc (fitsAll_cachedProduct_iff.mpr hprod)
      (fitsAll_accumulated_iff.mpr hsums), fun i hi => ?_, writeLanes_writesPolys⟩,
    fun hvalid hsrc ⟨i, hi, hover⟩ => faults_basemulacc_of_overflow hvalid hsrc fun ⟨hprod, hsums⟩ => ?_,
    faults_basemulacc_of_not_current⟩
  · have hlane := accumulated_getD (rd := rd) (ra := ra) (rb := rb) (cc := cc) (s := s) hi
    rw [lane_writeLanes hi (hlane ▸ hsums i hi), hlane]
  · exact hover.elim (· (fitsAll_cachedProduct_iff.mp hprod i hi)) (· (fitsAll_accumulated_iff.mp hsums i hi))

/-! The from-scratch product (R226). -/

/-- An even lane reads the cache, which holds the product `fqmul` that the from-scratch lane computes; an odd lane
does not read it. -/
theorem basemulFn_mulcacheFn_getD (a b : List Int) {i : Nat} (hi : i < 256) :
    (basemulFn a b (mulcacheFn b)).getD i 0 = naive (a.getD · 0) (b.getD · 0) i := by
  rw [basemulFn_getD _ _ _ hi, basemulLane_eq_productLane, productLane, naive]
  by_cases heven : i % 2 = 0
  · have hodd : 2 * (i / 2) + 1 = i + 1 := by omega
    rw [if_pos heven, if_pos heven, mulcacheFn_getD b (by omega), hodd]
  · rw [if_neg heven, if_neg heven]

/-- A valid tag that tells the truth makes the cached product the from-scratch one. -/
theorem product_eq_naive {ra rb : PReg} {cc : CReg} {s : State} (htags : s.tagsTrue)
    (hvalid : (s.cache cc).valid = true) (hsrc : (s.cache cc).src = rb) {i : Nat} (hi : i < 256) :
    product ra rb cc s i = naive (lane (s.poly ra)) (lane (s.poly rb)) i := by
  rw [← cachedProduct_getD hi, cachedProduct, htags cc hvalid, hsrc, basemulFn_mulcacheFn_getD _ _ hi]
  simp only [lanes_getD]

theorem fault_of_faults {code : BitVec 8} {i : Instr} {s t : State} (hf : faults code i s)
    (h : exec i s = .next t) : t.fault = true := by
  obtain rfl := Host.Outcome.next.inj (hf.symm.trans h)
  rfl

/-- A `BASEMUL` that completes has passed both its checks. -/
theorem basemul_checks_of_no_fault {rd ra rb : PReg} {cc : CReg} {s t : State}
    (h : exec (.basemul rd ra rb cc) s = .next t) (hfault : t.fault = false) :
    (s.cache cc).valid = true ∧ (s.cache cc).src = rb ∧ ∀ i, i < 256 → fits (product ra rb cc s i) := by
  have hno {code : BitVec 8} (hf : faults code (.basemul rd ra rb cc) s) : False := by
    simp [fault_of_faults hf h] at hfault
  obtain ⟨hvalid, hsrc⟩ := not_not.mp (hno ∘ faults_basemul_of_not_current)
  exact ⟨hvalid, hsrc, fitsAll_cachedProduct_iff.mp (not_not.mp (hno ∘ faults_basemul_of_overflow hvalid hsrc))⟩

/-- Settles O23: on sequences by `basemulFn_mulcacheFn_getD`; a `BASEMUL` that completes writes the product of a
cache whose tag is valid. -/
theorem cachedEqualsNaive : Obligations.CachedEqualsNaive := by
  refine ⟨fun a b i hi => basemulFn_mulcacheFn_getD a b hi, fun rd ra rb cc s t htags hexec hfault i hi => ?_⟩
  obtain ⟨hvalid, hsrc, hfits⟩ := basemul_checks_of_no_fault hexec hfault
  obtain ⟨-, hcompletes, -⟩ := basemulResult rd ra rb cc s
  obtain ⟨u, hu, hlane, -⟩ := hcompletes hvalid hsrc hfits
  obtain rfl := Host.Outcome.next.inj (hu.symm.trans hexec)
  rw [hlane i hi, product_eq_naive htags hvalid hsrc hi]

/-! The ring product (R227). -/

theorem ringProduct_eq_negacyclic : ringProduct = negacyclic := rfl

/-- Settles O24: `runAll_product`, with the claim's spelling of the negacyclic product. -/
theorem ringProduct : Obligations.RingProduct := by
  intro a b d c s hab hfault ha hb
  rw [ringProduct_eq_negacyclic, ← hfault]
  exact runAll_product d c hab ha hb

/-! Stale caches (R25, R66, R229). -/

section
variable {written : PReg → Prop} {s t : State} {k : CReg}

/-- After a write to `P[r]` no cache is the valid cache of `P[r]`. -/
theorem not_current_of_tagsAfter (h : tagsAfter written s t) {r : PReg} (hr : written r) :
    ¬((t.cache k).valid = true ∧ (t.cache k).src = r) := by
  rintro ⟨hvalid, rfl⟩
  obtain ⟨-, hsrc, hiff⟩ := h k
  obtain ⟨-, hnot⟩ := hiff.mp hvalid
  exact hnot (hsrc ▸ hr)

theorem cache_eq_of_tagsAfter (h : tagsAfter written s t) (hr : ¬written (s.cache k).src) :
    t.cache k = s.cache k := by
  obtain ⟨hdata, hsrc, hiff⟩ := h k
  have hvalid : (t.cache k).valid = (s.cache k).valid := Bool.eq_iff_iff.mpr (hiff.trans (and_iff_left hr))
  calc t.cache k = ⟨(s.cache k).data, (s.cache k).valid, (s.cache k).src⟩ := by rw [← hdata, ← hvalid, ← hsrc]
    _ = s.cache k := rfl

end

/-! The claim's destinations, by the kind of write a command has. -/

section
variable {i : Instr} {r : PReg}

theorem destination_of_polyDest (h : polyDest i = some r) : destination i = fun q => q = r := by
  cases i <;> cases h <;> rfl

theorem destination_of_quadDest (h : quadDest i = some r) : destination i = fun q => ∃ l, q = quadReg r l := by
  simp only [exists_eq_quadReg_iff]
  cases i <;> cases h <;> rfl

theorem not_destination_of_bufDest {region : Nat × Nat} (h : bufDest i = some region) : ¬destination i r := by
  cases i <;> cases h <;> exact id

end

/-- A command other than a `MULCACHE` into `C[k]` writes its destinations with the tag effect of such a write, or it
leaves the polynomial registers and `C[k]` as they were; the latter, for one with a destination, only in a fault. -/
theorem Effect.writesPolys_or_keeps {i : Instr} {s t : State} {k : CReg} (h : Effect i s t)
    (hi : ∀ r, i ≠ .mulcache k r) : writesPolys (destination i) s t ∨
      (∀ r, t.poly r = s.poly r) ∧ t.cache k = s.cache k ∧ ∀ r, destination i r → t.fault = true := by
  cases h with
  | fault c => exact .inr ⟨fun _ => rfl, rfl, fun _ _ => rfl⟩
  | poly r f hr =>
    rw [destination_of_polyDest hr]
    exact .inl (writePoly_writesPolys s r f)
  | quad r f0 f1 f2 f3 hr _ =>
    rw [destination_of_quadDest hr]
    exact .inl (writeQuad_writesPolys s r f0 f1 f2 f3)
  | cache k' r hk =>
    subst hk
    exact .inr ⟨fun _ => rfl, writeCache_cache_ne s _ r fun hkk' => hi r (hkk' ▸ rfl), fun _ hdest => hdest.elim⟩
  | buf off bytes hb _ =>
    exact .inr ⟨fun _ => rfl, rfl, fun _ hdest => (not_destination_of_bufDest hb hdest).elim⟩

theorem ne_mulcache_of_destination {i : Instr} {k : CReg} {q r : PReg} (h : destination i q) : i ≠ .mulcache k r := by
  rintro rfl
  exact h

/-- Settles O25: a completed command with the destination `P[rb]` and a host write of one of its lanes are writes of
`P[rb]` as far as the tags go (R25), and a tag that is not current fails the check of R255. -/
theorem staleCacheFaults : Obligations.StaleCacheFaults := by
  intro cc rb s hsrc
  refine ⟨fun i t hexec hfault hdest rd ra => ?_, fun j v hj rd ra => ?_, fun i t hexec hdest hi => ?_⟩
  · have hstale : ¬((t.cache cc).valid = true ∧ (t.cache cc).src = rb) := by
      obtain ⟨-, -, -, htags⟩ | ⟨-, -, hfaulted⟩ :=
        (exec_effect hexec).writesPolys_or_keeps (k := cc) fun _ => ne_mulcache_of_destination hdest
      · exact not_current_of_tagsAfter htags hdest
      · exact absurd (hfaulted rb hdest) (by simp [hfault])
    exact ⟨faults_basemul_of_not_current hstale, faults_basemulacc_of_not_current hstale⟩
  · rw [busAccess_write_polyWindow s rb hj v]
    have hstale : ¬(((s.writeLane rb j v).cache cc).valid = true ∧ ((s.writeLane rb j v).cache cc).src = rb) :=
      not_current_of_tagsAfter (writeLane_tagsAfter s rb j v) rfl
    exact ⟨faults_basemul_of_not_current hstale, faults_basemulacc_of_not_current hstale⟩
  · obtain ⟨-, -, hpoly, htags⟩ | ⟨hpoly, hcache, -⟩ := (exec_effect hexec).writesPolys_or_keeps hi
    · exact ⟨cache_eq_of_tagsAfter htags (hsrc ▸ hdest), hpoly rb hdest⟩
    · exact ⟨hcache, hpoly rb⟩

end Sys2Proof.Machine
end

section
/-! Proofs of the elementwise family (spec/46_elementwise.md): `ADD` and `SUB` are one lane-wise command with two
operations (R240, R241), and `REDUCE` writes the centered representatives (R242). -/

namespace Sys2Proof.Machine

open Sys2Proof.Claim

/-! Two operands lane by lane (R240, R241). -/

/-- The integers that a lane-wise command with the operation `f` computes from `P[ra]` and `P[rb]`. -/
def lanewise (f : Int → Int → Int) (ra rb : PReg) (s : State) : List Int :=
  List.zipWith f (lanes (s.poly ra)) (lanes (s.poly rb))

section
variable {f : Int → Int → Int} {rd ra rb : PReg} {s : State}

theorem exec_add : exec (.add rd ra rb) s =
    checkFits (lanewise (· + ·) ra rb s) s (completePoly rd (lanewise (· + ·) ra rb s) s) := rfl

theorem exec_sub : exec (.sub rd ra rb) s =
    checkFits (lanewise (· - ·) ra rb s) s (completePoly rd (lanewise (· - ·) ra rb s) s) := rfl

theorem lanewise_length : (lanewise f ra rb s).length = 256 := by
  simp [lanewise]

theorem lanewise_getD {i : Nat} (hi : i < 256) :
    (lanewise f ra rb s).getD i 0 = f (lane (s.poly ra) i) (lane (s.poly rb) i) :=
  zipWith_lanes_getD _ _ f hi

theorem fitsAll_lanewise_iff :
    FitsAll (lanewise f ra rb s) ↔ ∀ i, i < 256 → fits (f (lane (s.poly ra) i) (lane (s.poly rb) i)) := by
  rw [FitsAll, lanewise_length]
  exact forall₂_congr fun i hi => by rw [lanewise_getD hi, fits]

variable {cmd : Instr}
  (hexec : exec cmd s = checkFits (lanewise f ra rb s) s (completePoly rd (lanewise f ra rb s) s))
include hexec

theorem lanewise_completes (hfits : ∀ i, i < 256 → fits (f (lane (s.poly ra) i) (lane (s.poly rb) i))) :
    ∃ t, exec cmd s = .next t ∧
      (∀ i, i < 256 → lane (t.poly rd) i = f (lane (s.poly ra) i) (lane (s.poly rb) i)) ∧
      writesPolys (fun q => q = rd) s t := by
  refine ⟨writeLanes rd (lanewise f ra rb s) s, hexec.trans (checkFits_pos (fitsAll_lanewise_iff.mpr hfits) _ _),
    fun i hi => ?_, writeLanes_writesPolys⟩
  have hlane := lanewise_getD (f := f) (ra := ra) (rb := rb) (s := s) hi
  rw [lane_writeLanes hi (hlane ▸ hfits i hi), hlane]

theorem faults_lanewise (hover : ∃ i, i < 256 ∧ ¬fits (f (lane (s.poly ra) i) (lane (s.poly rb) i))) :
    faults 7 cmd s := by
  obtain ⟨i, hi, hnot⟩ := hover
  exact hexec.trans (checkFits_neg (fun hall => hnot (fitsAll_lanewise_iff.mp hall i hi)) _ _)

end

/-- Settles O9: the overflow check decides between the register write and the fault; checked sums are written
exactly. -/
theorem addResult : Obligations.AddResult := fun rd ra rb _ =>
  ⟨decode_word_regs (i := .add rd ra rb) rfl rfl, lanewise_completes exec_add, faults_lanewise exec_add⟩

/-- Settles O10: as `addResult`, with the difference. -/
theorem subResult : Obligations.SubResult := fun rd ra rb _ =>
  ⟨decode_word_regs (i := .sub rd ra rb) rfl rfl, lanewise_completes exec_sub, faults_lanewise exec_sub⟩

/-! The centered representative (R242). -/

/-- Settles O11: every lane becomes its `cmod`, which is small enough to be written exactly. -/
theorem reduceResult : Obligations.ReduceResult := by
  refine fun rd s => ⟨decode_word_regs (i := .reduce rd) rfl rfl, _, exec_reduce, fun i hi => ?_,
    writeLanes_writesPolys⟩
  rw [lane_reduce hi]
  exact ⟨cmod_congr _, cmod_range _⟩

end Sys2Proof.Machine
end

section
/-! Proofs of the exceptions family (spec/60_exceptions.md): a legal word is the one encoding of its command (R253),
the order of the checks and the cause it decides (R251, R254), the precise fault entry (R259), the fault clear (R260)
and what a host access cannot do (R268). -/

namespace Sys2Proof.Machine

open Sys2Proof.Claim

/-! The one encoding of a command (R253). -/

/-- Whatever command the decoder's answer holds is well-formed and has the word as its encoding. -/
def OnlyEncoding (w : Word) (answer : Except DecodeError Instr) : Prop :=
  ∀ i, answer = .ok i → i.wellFormed = true ∧ encode i = w

section
variable {w : Word} {op : Nat} (hop : bits w 0 8 = op)
include hop

theorem decodeR1_onlyEncoding {mk : PReg → Instr}
    (hmk : ∀ d, (mk d).wellFormed = true ∧ encode (mk d) = encodeRegs op d.val 0 0 0) :
    OnlyEncoding w (decodeR1 w mk) := by
  intro i h
  obtain ⟨hzero, rfl⟩ := decodeR1_ok.mp h
  obtain ⟨ha, hb, hc, htop⟩ := bits_regs_zero.1.mp hzero
  obtain ⟨hwf, henc⟩ := hmk (regField w 8)
  exact ⟨hwf, henc.trans (encodeRegs_eq hop (regField_val w 8).symm ha hb hc htop)⟩

theorem decodeR3_onlyEncoding {mk : PReg → PReg → PReg → Instr}
    (hmk : ∀ d a b, (mk d a b).wellFormed = true ∧ encode (mk d a b) = encodeRegs op d.val a.val b.val 0) :
    OnlyEncoding w (decodeR3 w mk) := by
  intro i h
  obtain ⟨hzero, rfl⟩ := decodeR3_ok.mp h
  obtain ⟨hc, htop⟩ := bits_regs_zero.2.2.mp hzero
  obtain ⟨hwf, henc⟩ := hmk (regField w 8) (regField w 11) (regField w 14)
  exact ⟨hwf, henc.trans
    (encodeRegs_eq hop (regField_val w 8).symm (regField_val w 11).symm (regField_val w 14).symm hc htop)⟩

theorem decodeRC_onlyEncoding {mk : CReg → PReg → Instr}
    (hmk : ∀ d a, (mk d a).wellFormed = true ∧ encode (mk d a) = encodeRegs op d.val a.val 0 0) :
    OnlyEncoding w (decodeRC w mk) := by
  intro i h
  obtain ⟨hzero, rfl⟩ := decodeRC_ok.mp h
  obtain ⟨hb, hc, htop⟩ := bits_regs_zero.2.1.mp hzero
  obtain ⟨hwf, henc⟩ := hmk (regField w 8) (regField w 11)
  exact ⟨hwf, henc.trans (encodeRegs_eq hop (regField_val w 8).symm (regField_val w 11).symm hb hc htop)⟩

theorem decodeR4_onlyEncoding {mk : PReg → PReg → PReg → CReg → Instr}
    (hmk : ∀ d a b c, (mk d a b c).wellFormed = true ∧
      encode (mk d a b c) = encodeRegs op d.val a.val b.val c.val) :
    OnlyEncoding w (decodeR4 w mk) := by
  intro i h
  obtain ⟨htop, rfl⟩ := decodeR4_ok.mp h
  obtain ⟨hwf, henc⟩ := hmk (regField w 8) (regField w 11) (regField w 14) (regField w 17)
  exact ⟨hwf, henc.trans (encodeRegs_eq hop (regField_val w 8).symm (regField_val w 11).symm
    (regField_val w 14).symm (regField_val w 17).symm htop)⟩

theorem decodeM_onlyEncoding {mk : PReg → Offset → Instr}
    (hmk : ∀ r off, (mk r off).wellFormed = true ∧ encode (mk r off) = encodeM op r off) :
    OnlyEncoding w (decodeM w mk) := by
  intro i h
  obtain ⟨hzero, rfl⟩ := decodeM_ok.mp h
  obtain ⟨hwf, henc⟩ := hmk (regField w 8) (offField w)
  exact ⟨hwf, henc.trans (encodeM_eq hop (regField_val w 8).symm hzero (offField_toNat w).symm)⟩

/-- The two extra reserved bits make the register of a 4-way command a quad (R91). -/
theorem decodeQuad_onlyEncoding {mk : PReg → Offset → Instr}
    (hmk : ∀ r off, (mk r off).wellFormed = isQuad r ∧ encode (mk r off) = encodeM op r off) :
    OnlyEncoding w (decodeQuad w mk) := by
  intro i h
  obtain ⟨hquad, hzero, rfl⟩ := decodeQuad_ok.mp h
  obtain ⟨hwf, henc⟩ := hmk (regField w 8) (offField w)
  exact ⟨hwf.trans (isQuad_regField hquad),
    henc.trans (encodeM_eq hop (regField_val w 8).symm hzero (offField_toNat w).symm)⟩

end

/-- Settles O3, format by format: the opcode map R83 gives each opcode's format, in the order of its rows. -/
theorem legalWordIsTheOneEncoding : Obligations.LegalWordIsTheOneEncoding := by
  intro w
  change OnlyEncoding w (decode w)
  unfold decode
  split
  case h_1 hop | h_2 hop => exact decodeR3_onlyEncoding hop fun _ _ _ => ⟨rfl, rfl⟩
  case h_3 hop | h_4 hop | h_5 hop | h_6 hop | h_7 hop => exact decodeR1_onlyEncoding hop fun _ => ⟨rfl, rfl⟩
  case h_8 hop => exact decodeRC_onlyEncoding hop fun _ _ => ⟨rfl, rfl⟩
  case h_9 hop | h_10 hop => exact decodeR4_onlyEncoding hop fun _ _ _ _ => ⟨rfl, rfl⟩
  case h_27 hop | h_28 hop | h_29 hop => exact decodeQuad_onlyEncoding hop fun _ _ => ⟨rfl, rfl⟩
  case h_30 => exact nofun
  all_goals
    next hop => exact decodeM_onlyEncoding hop fun _ _ => ⟨rfl, rfl⟩

/-! The order of the checks (R251): what each check of the engine tests, as the rules say it. -/

/-- Check 3: the command's region does not lie inside `BUF` (R254). -/
def BadRegion (i : Instr) : Prop := ∃ off len, region i = some (off, len) ∧ 2048 < off + len

/-- Check 4: the command's cache is not the valid cache of its second operand (R255). -/
def BadTag (s : State) (i : Instr) : Prop :=
  ∃ rb cc, checkedCache i = some (rb, cc) ∧ ¬((s.cache cc).valid = true ∧ (s.cache cc).src = rb)

/-- Check 5, `COEFF_RANGE` (R256). -/
def BadRange (s : State) (i : Instr) : Prop := ∃ r, checkedSource i = some r ∧ ¬canonical (s.poly r)

/-- Check 5, `DECODE_RANGE` (R257). -/
def BadField (s : State) (i : Instr) : Prop :=
  ∃ r off, i = .frombytes r off ∧ ∃ k, k < 256 ∧ 3328 < field 12 (memRead s.buf off.toNat 384) k

/-- The checks 3 to 5 of a command in their order: the condition under which each fails, and its cause. -/
def checks (s : State) (i : Instr) : List (Prop × Cause) :=
  [(BadRegion i, .bufRange), (BadTag s i, .cacheInvalid), (BadRange s i, .coeffRange), (BadField s i, .decodeRange),
    (overflows s i, .overflow)]

/-- The result that a list of checks decides: the fault of the first one that fails, or the end of a command
without a fault. -/
inductive Decides (s : State) : List (Prop × Cause) → Result → Prop where
  | completes {t : State} (h : quiet s t) : Decides s [] (.next t)
  | fails {bad : Prop} {c : Cause} {rest : List (Prop × Cause)} (h : bad) : Decides s ((bad, c) :: rest) (raise c s)
  | passes {bad : Prop} {c : Cause} {rest : List (Prop × Cause)} {k : Result} (h : ¬bad) (hk : Decides s rest k) :
      Decides s ((bad, c) :: rest) k

section
variable {s : State} {bad : Prop} {c : Cause} {rest : List (Prop × Cause)} {k : Result}

theorem Decides.eq_raise (h : Decides s ((bad, c) :: rest) k) (hbad : bad) : k = raise c s := by
  cases h with
  | fails => rfl
  | passes hgood => exact absurd hbad hgood

theorem Decides.of_passed (h : Decides s ((bad, c) :: rest) k) (hgood : ¬bad) : Decides s rest k := by
  cases h with
  | fails hbad => exact absurd hbad hgood
  | passes _ hk => exact hk

theorem Decides.quiet (h : Decides s [] k) : ∃ t, k = .next t ∧ quiet s t := by
  cases h with
  | completes hquiet => exact ⟨_, rfl, hquiet⟩

theorem Cause.code_injective : Function.Injective Cause.code := by
  intro c c'
  cases c <;> cases c' <;> decide

/-- A recorded cause is the cause of one of the checks. -/
theorem Decides.cause_mem {l : List (Prop × Cause)} (h : Decides s l k) (hfault : s.fault = false)
    (hk : k = raise c s) : c ∈ l.map Prod.snd := by
  induction h with
  | completes hquiet =>
    obtain ⟨-, -, hsame, -⟩ := hquiet
    cases hk
    simp [hfault] at hsame
  | fails =>
    have hcode := congrArg State.fcause (Host.Outcome.next.inj hk)
    simp [Cause.code_injective hcode]
  | passes _ _ ih => exact List.mem_cons_of_mem _ (ih hk)

/-- A check of the engine is the first of the list. -/
theorem decides_check {p : Prop} [Decidable p] (hbad : bad ↔ ¬p) (hk : Decides s rest k) :
    Decides s ((bad, c) :: rest) (if p then k else raise c s) := by
  split
  case isTrue hp => exact .passes (fun h => hbad.mp h hp) hk
  case isFalse hp => exact .fails (hbad.mpr hp)

variable {i : Instr}

theorem decides_noRegion (h : region i = none) (hk : Decides s rest k) :
    Decides s ((BadRegion i, c) :: rest) k :=
  .passes (by simp [BadRegion, h]) hk

theorem decides_checkRegion {off : Offset} {len : Nat} (h : region i = some (off.toNat, len))
    (hk : Decides s rest k) : Decides s ((BadRegion i, .bufRange) :: rest) (checkRegion off len s k) :=
  decides_check (by simp [BadRegion, h, Config.bufSize]) hk

theorem decides_noTag (h : checkedCache i = none) (hk : Decides s rest k) :
    Decides s ((BadTag s i, c) :: rest) k :=
  .passes (by simp [BadTag, h]) hk

theorem decides_checkTag {rb : PReg} {cc : CReg} (h : checkedCache i = some (rb, cc)) (hk : Decides s rest k) :
    Decides s ((BadTag s i, .cacheInvalid) :: rest) (checkTag cc rb s k) :=
  decides_check (by simp [BadTag, h]) hk

theorem decides_noRange (h : checkedSource i = none) (hk : Decides s rest k) :
    Decides s ((BadRange s i, c) :: rest) k :=
  .passes (by simp [BadRange, h]) hk

theorem decides_checkCanonical {r : PReg} (h : checkedSource i = some r) (hk : Decides s rest k) :
    Decides s ((BadRange s i, .coeffRange) :: rest) (checkCanonical r s k) :=
  decides_check (by rw [all_canonical_iff]; simp [BadRange, h]; rfl) hk

theorem decides_noField (h : ∀ r off, i ≠ .frombytes r off) (hk : Decides s rest k) :
    Decides s ((BadField s i, c) :: rest) k :=
  .passes (fun ⟨r, off, hi, _⟩ => h r off hi) hk

theorem badField_frombytes_iff {r : PReg} {off : Offset} :
    BadField s (.frombytes r off) ↔ ¬∀ y ∈ fieldsAt 12 off s, y ≤ 3328 := by
  simp [BadField, mem_fieldsAt]

theorem decides_checkResidues {r : PReg} {off : Offset} (hk : Decides s rest k) :
    Decides s ((BadField s (.frombytes r off), .decodeRange) :: rest) (checkResidues (fieldsAt 12 off s) s k) :=
  decides_check (by simp [badField_frombytes_iff]) hk

theorem decides_checkFits {l : List Int} (hbad : bad ↔ ¬FitsAll l) (hk : Decides s rest k) :
    Decides s ((bad, .overflow) :: rest) (checkFits l s k) :=
  decides_check (by rw [all_fits_iff, hbad]) hk

/-- Two overflow checks one after the other are one check (R225). -/
theorem decides_checkFits_checkFits {l l' : List Int} (hbad : bad ↔ ¬FitsAll l ∨ ¬FitsAll l')
    (hk : Decides s rest k) : Decides s ((bad, .overflow) :: rest) (checkFits l s (checkFits l' s k)) := by
  by_cases hl : FitsAll l
  · rw [checkFits_pos hl]
    exact decides_checkFits (by simpa [hl] using hbad) hk
  · rw [checkFits_neg hl]
    exact .fails (hbad.mpr (.inl hl))

end


/-! Every command makes its checks in this order. -/

theorem writePoly_quiet (s : State) (r : PReg) (f : Poly) : quiet s (s.writePoly r f).finish :=
  have ⟨hquiet, _⟩ := writePoly_writesPolys s r f
  hquiet

theorem writeQuad_quiet (s : State) (r : PReg) (f0 f1 f2 f3 : Poly) : quiet s (s.writeQuad r f0 f1 f2 f3).finish :=
  have ⟨hquiet, _⟩ := writeQuad_writesPolys s r f0 f1 f2 f3
  hquiet

/-- `ADD` or `SUB` (R240, R241). -/
theorem decides_lanewise {i : Instr} {s : State} {f : Int → Int → Int} {rd ra rb : PReg}
    (hexec : exec i s = checkFits (lanewise f ra rb s) s (completePoly rd (lanewise f ra rb s) s))
    (hregion : region i = none) (hcache : checkedCache i = none) (hsource : checkedSource i = none)
    (hfield : ∀ r off, i ≠ .frombytes r off)
    (hover : overflows s i ↔ ∃ j, j < 256 ∧ ¬fits (f (lane (s.poly ra) j) (lane (s.poly rb) j))) :
    Decides s (checks s i) (exec i s) := by
  rw [hexec]
  exact decides_noRegion hregion <| decides_noTag hcache <| decides_noRange hsource <| decides_noField hfield <|
    decides_checkFits (by simp [hover, fitsAll_lanewise_iff]) <| .completes (writePoly_quiet s rd _)

section
variable {i : Instr} {s t : State} {off : Offset} {r : PReg} (hcache : checkedCache i = none)
  (hfield : ∀ r off, i ≠ .frombytes r off) (hover : ¬overflows s i)
include hcache hfield hover

/-- A command that completes in every state. -/
theorem decides_unchecked (hregion : region i = none) (hsource : checkedSource i = none) (hexec : exec i s = .next t)
    (hquiet : quiet s t) : Decides s (checks s i) (exec i s) := by
  rw [hexec]
  exact decides_noRegion hregion <| decides_noTag hcache <| decides_noRange hsource <| decides_noField hfield <|
    .passes hover <| .completes hquiet

/-- A command that completes once its source register is canonical. -/
theorem decides_sourceOnly (hregion : region i = none) (hsource : checkedSource i = some r)
    (hexec : exec i s = checkCanonical r s (.next t)) (hquiet : quiet s t) : Decides s (checks s i) (exec i s) := by
  rw [hexec]
  exact decides_noRegion hregion <| decides_noTag hcache <| decides_checkCanonical hsource <|
    decides_noField hfield <| .passes hover <| .completes hquiet

/-- A command that completes once its region fits, whatever the region holds. -/
theorem decides_regionOnly {len : Nat} (hregion : region i = some (off.toNat, len)) (hsource : checkedSource i = none)
    (hexec : exec i s = checkRegion off len s (.next t)) (hquiet : quiet s t) :
    Decides s (checks s i) (exec i s) := by
  rw [hexec]
  exact decides_checkRegion hregion <| decides_noTag hcache <| decides_noRange hsource <|
    decides_noField hfield <| .passes hover <| .completes hquiet

/-- A command that packs a register into its region (R132, R134 to R137, R161). -/
theorem decides_encodeTo {d : Nat} {fieldOf : Int → Int} (hregion : region i = some (off.toNat, 32 * d))
    (hsource : checkedSource i = some r) (hexec : exec i s = encodeTo d fieldOf r off s) :
    Decides s (checks s i) (exec i s) := by
  have ⟨hquiet, _⟩ := packTo_writesBytes d fieldOf r off s
  rw [hexec]
  exact decides_checkRegion hregion <| decides_noTag hcache <| decides_checkCanonical hsource <|
    decides_noField hfield <| .passes hover <| .completes hquiet

end

section
variable {s : State} {rd ra rb : PReg} {cc : CReg}

theorem overflows_basemul_iff : overflows s (.basemul rd ra rb cc) ↔ ¬FitsAll (cachedProduct ra rb cc s) := by
  simp [overflows, fitsAll_cachedProduct_iff]

theorem overflows_basemulacc_iff : overflows s (.basemulacc rd ra rb cc) ↔
    ¬FitsAll (cachedProduct ra rb cc s) ∨ ¬FitsAll (accumulated rd ra rb cc s) := by
  simp [overflows, fitsAll_cachedProduct_iff, fitsAll_accumulated_iff, and_or_left, exists_or]

end

/-- The first failing check decides the result of every command that has a word. -/
theorem exec_decides {i : Instr} (hwf : i.wellFormed = true) (s : State) : Decides s (checks s i) (exec i s) := by
  cases i with
  | add rd ra rb => exact decides_lanewise exec_add rfl rfl rfl nofun .rfl
  | sub rd ra rb => exact decides_lanewise exec_sub rfl rfl rfl nofun .rfl
  | reduce rd => exact decides_unchecked rfl nofun id rfl rfl exec_reduce (writePoly_quiet s rd _)
  | touns rd => exact decides_sourceOnly rfl nofun id rfl rfl rfl (writePoly_quiet s rd _)
  | tomont rd => exact decides_unchecked rfl nofun id rfl rfl exec_tomont (writePoly_quiet s rd _)
  | ntt rd => exact decides_sourceOnly rfl nofun id rfl rfl rfl (writePoly_quiet s rd _)
  | intt rd => exact decides_unchecked rfl nofun id rfl rfl exec_intt (writePoly_quiet s rd _)
  | mulcache cd ra =>
    have ⟨hquiet, _⟩ := writeMulcache_writesCache (c := cd) (r := ra) (s := s)
    exact decides_unchecked rfl nofun id rfl rfl exec_mulcache hquiet
  | basemul rd ra rb cc =>
    exact decides_noRegion rfl <| decides_checkTag rfl <| decides_noRange rfl <| decides_noField nofun <|
      decides_checkFits overflows_basemul_iff <| .completes (writePoly_quiet s rd _)
  | basemulacc rd ra rb cc =>
    exact decides_noRegion rfl <| decides_checkTag rfl <| decides_noRange rfl <| decides_noField nofun <|
      decides_checkFits_checkFits overflows_basemulacc_iff <| .completes (writePoly_quiet s rd _)
  | tobytes r off => exact decides_encodeTo rfl nofun id rfl rfl (exec_tobytes r off s)
  | frombytes r off =>
    exact decides_checkRegion rfl <| decides_noTag rfl <| decides_noRange rfl <| decides_checkResidues <|
      .passes id <| .completes (writePoly_quiet s r _)
  | tomsg r off => exact decides_encodeTo rfl nofun id rfl rfl (exec_tomsg r off s)
  | frommsg r off => exact decides_regionOnly rfl nofun id rfl rfl rfl (writePoly_quiet s r _)
  | compress4 r off => exact decides_encodeTo (d := 4) rfl nofun id rfl rfl rfl
  | compress5 r off => exact decides_encodeTo (d := 5) rfl nofun id rfl rfl rfl
  | compress10 r off => exact decides_encodeTo (d := 10) rfl nofun id rfl rfl rfl
  | compress11 r off => exact decides_encodeTo (d := 11) rfl nofun id rfl rfl rfl
  | decompress4 r off => exact decides_regionOnly rfl nofun id rfl rfl rfl (writePoly_quiet s r _)
  | decompress5 r off => exact decides_regionOnly rfl nofun id rfl rfl rfl (writePoly_quiet s r _)
  | decompress10 r off => exact decides_regionOnly rfl nofun id rfl rfl rfl (writePoly_quiet s r _)
  | decompress11 r off => exact decides_regionOnly rfl nofun id rfl rfl rfl (writePoly_quiet s r _)
  | cbd2 r off => exact decides_regionOnly rfl nofun id rfl rfl rfl (writePoly_quiet s r _)
  | cbd3 r off => exact decides_regionOnly rfl nofun id rfl rfl rfl (writePoly_quiet s r _)
  | getnoise2 r off => exact decides_regionOnly rfl nofun id rfl rfl rfl (writePoly_quiet s r _)
  | getnoise3 r off => exact decides_regionOnly rfl nofun id rfl rfl rfl (writePoly_quiet s r _)
  | getnoise4x2 r off =>
    exact decides_regionOnly rfl nofun id rfl rfl (checkQuad_pos hwf s _) (writeQuad_quiet s r _ _ _ _)
  | getnoise4x3 r off =>
    exact decides_regionOnly rfl nofun id rfl rfl (checkQuad_pos hwf s _) (writeQuad_quiet s r _ _ _ _)
  | getnoise4xmix r off =>
    exact decides_regionOnly rfl nofun id rfl rfl (checkQuad_pos hwf s _) (writeQuad_quiet s r _ _ _ _)

/-! A command has one data contract at most: its check 5 has one cause. -/

theorem not_badRange_of_badField {s : State} {i : Instr} (h : BadField s i) : ¬BadRange s i := by
  obtain ⟨r, off, rfl, -⟩ := h
  rintro ⟨r', hsource, -⟩
  cases hsource

theorem not_badRange_of_overflows {s : State} {i : Instr} (h : overflows s i) : ¬BadRange s i := by
  rintro ⟨r, hsource, -⟩
  cases i <;> cases hsource <;> exact h

theorem not_badField_of_overflows {s : State} {i : Instr} (h : overflows s i) : ¬BadField s i := by
  rintro ⟨r, off, rfl, -⟩
  exact h

/-- Settles O43: a legal word is well-formed, so its command's checks decide in their order (`exec_decides`). -/
theorem firstFailingCheckDecides : Obligations.FirstFailingCheckDecides := by
  refine fun s => ⟨engineStep_error, engineStep_error, fun i hdecode => ?_⟩
  obtain ⟨hwf, -⟩ := legalWordIsTheOneEncoding s.cmd i hdecode
  have hregion : Decides s (checks s i) (engineStep s) := engineStep_ok hdecode ▸ exec_decides hwf s
  have htag (hr : ¬BadRegion i) := hregion.of_passed hr
  have hrange (hr : ¬BadRegion i) (ht : ¬BadTag s i) := (htag hr).of_passed ht
  have hfield (hr : ¬BadRegion i) (ht : ¬BadTag s i) (hc : ¬BadRange s i) := (hrange hr ht).of_passed hc
  have hover (hr : ¬BadRegion i) (ht : ¬BadTag s i) (hc : ¬BadRange s i) (hf : ¬BadField s i) :=
    (hfield hr ht hc).of_passed hf
  exact ⟨hregion.eq_raise, fun hr => (htag hr).eq_raise, fun hr ht => (hrange hr ht).eq_raise,
    fun hr ht hbad => (hfield hr ht (not_badRange_of_badField hbad)).eq_raise hbad,
    fun hr ht hbad => (hover hr ht (not_badRange_of_overflows hbad) (not_badField_of_overflows hbad)).eq_raise hbad,
    fun hr ht hc hf ho => ((hover hr ht hc hf).of_passed ho).quiet⟩

/-! The last legal offset (R254). -/

theorem region_length_le {i : Instr} {off len : Nat} (h : region i = some (off, len)) : len ≤ 2048 := by
  cases i <;> cases h <;> decide

/-- Settles O44: an offset above `2048 - len` fails the first check of `checks`, and the causes of the later ones
are not `BUF_RANGE`. -/
theorem regionMustFit : Obligations.RegionMustFit := by
  intro i s off len hfault hwf hregion
  have hlen := region_length_le hregion
  have hdecides : Decides s (checks s i) (exec i s) := exec_decides hwf s
  refine ⟨fun habove => hdecides.eq_raise ⟨off, len, hregion, by omega⟩, fun hfits hfaults => ?_⟩
  have hgood : ¬BadRegion i := by
    rintro ⟨off', len', hregion', hbad⟩
    cases hregion.symm.trans hregion'
    omega
  have hmem := (hdecides.of_passed hgood).cause_mem (c := .bufRange) hfault hfaults
  simp at hmem

/-! The fault entry (R259). -/

theorem Effect.eq_takeFault {i : Instr} {s t : State} (h : Effect i s t) (hs : s.fault = false)
    (ht : t.fault = true) : ∃ c, t = s.takeFault c := by
  have hkept : t.fault ≠ s.fault := by simp [hs, ht]
  cases h with
  | fault c => exact ⟨c, rfl⟩
  | poly | quad | cache | buf => exact absurd rfl hkept

theorem Cause.code_range (c : Cause) : 1 ≤ c.code.toNat ∧ c.code.toNat ≤ 7 := by
  cases c <;> decide

/-- Settles O45: of the effects an engine step can have, only the fault entry sets `FAULT`. -/
theorem faultEntryIsPrecise : Obligations.FaultEntryIsPrecise := by
  intro s t hs hstep ht
  obtain ⟨i, t', hstep', heff, -⟩ := engineStep_lawful s
  obtain rfl := Host.Outcome.next.inj (hstep'.symm.trans hstep)
  obtain ⟨c, rfl⟩ := heff.eq_takeFault hs ht
  exact ⟨rfl, c.code_range⟩

/-! The writes of `STATUS` and `CMD`, and every other access (R260, R268). -/

theorem busAccess_write_status (s : State) (v : Word) :
    busAccess s (.write 0x0008 (.b32 v)) = { writeStatus s v with answer := some .done } := rfl

theorem writeStatus_of_set {v : Word} (h : v.getLsbD 1 = true) (s : State) : writeStatus s v = s.clearFault := if_pos h

theorem writeStatus_of_clear {v : Word} (h : v.getLsbD 1 = false) (s : State) : writeStatus s v = s :=
  if_neg (ne_true_of_eq_false h)

theorem writeStatus_of_no_fault {s : State} (h : s.fault = false) (v : Word) : writeStatus s v = s := by
  simp [writeStatus, clearFault_of_no_fault h]

/-- Settles O46: bit 1 of the data and `FAULT` decide what the write does. -/
theorem faultClear : Obligations.FaultClear := by
  intro s v
  rw [busAccess_write_status]
  refine ⟨fun hfault hset => ?_, fun hnone => ?_⟩
  · rw [writeStatus_of_set hset, clearFault_of_fault hfault]
  · obtain hfault | hclear := hnone
    · rw [writeStatus_of_no_fault hfault]
    · rw [writeStatus_of_clear hclear]

/-- The control state, and the moves still to be made, are as before. -/
def ControlKept (s t : State) : Prop :=
  t.busy = s.busy ∧ t.cmd = s.cmd ∧ t.fault = s.fault ∧ t.fcause = s.fcause ∧ t.host = s.host

/-- A write of data keeps the control state; every other legal write is one of `CMD` or of `STATUS`. -/
theorem busWrite_cases {s t : State} {off : Nat} {d : BusData} (h : busWrite s off d = some t) :
    (∃ w, off = 0x0004 ∧ d = .b32 w) ∨ (∃ v, off = 0x0008 ∧ d = .b32 v) ∨ ControlKept s t := by
  cases d with
  | b8 v =>
    simp only [busWrite, Option.map_eq_some_iff] at h
    obtain ⟨a, -, rfl⟩ := h
    exact .inr (.inr ⟨rfl, rfl, rfl, rfl, rfl⟩)
  | b16 v =>
    simp only [busWrite] at h
    split at h
    · cases h
      exact .inr (.inr ⟨rfl, rfl, rfl, rfl, rfl⟩)
    · cases h
      exact .inr (.inr ⟨rfl, rfl, rfl, rfl, rfl⟩)
    · cases h
  | b32 v =>
    simp only [busWrite] at h
    split at h
    · exact .inl ⟨v, rfl, rfl⟩
    · exact .inr (.inl ⟨v, rfl, rfl⟩)
    · cases h
      exact .inr (.inr ⟨rfl, rfl, rfl, rfl, rfl⟩)
    · cases h

theorem busAccess_cases (s : State) (a : BusAccess) :
    (∃ w, a = .write 0x0004 (.b32 w)) ∨ (∃ v, a = .write 0x0008 (.b32 v)) ∨ ControlKept s (busAccess s a) := by
  cases a with
  | read w off =>
    rw [busAccess_read]
    exact .inr (.inr ⟨rfl, rfl, rfl, rfl, rfl⟩)
  | write off d =>
    cases hw : busWrite s off d with
    | none =>
      simp only [busAccess, hw]
      exact .inr (.inr ⟨rfl, rfl, rfl, rfl, rfl⟩)
    | some t =>
      obtain ⟨w, rfl, rfl⟩ | ⟨v, rfl, rfl⟩ | hkept := busWrite_cases hw
      · exact .inl ⟨w, rfl⟩
      · exact .inr (.inl ⟨v, rfl⟩)
      · simp only [busAccess, hw]
        exact .inr (.inr hkept)

theorem writeCmd_keeps (s : State) (w : Word) :
    (writeCmd s w).fault = s.fault ∧ (writeCmd s w).fcause = s.fcause ∧ (writeCmd s w).host = s.host := by
  cases h : s.fault with
  | true => rw [writeCmd_of_fault h]; exact ⟨h, rfl, rfl⟩
  | false => rw [writeCmd_of_no_fault h]; exact ⟨h, rfl, rfl⟩

theorem clearFault_keeps (s : State) : s.clearFault.busy = s.busy ∧ s.clearFault.cmd = s.cmd ∧
    s.clearFault.fault = false ∧ s.clearFault.host = s.host := by
  cases h : s.fault with
  | true => rw [clearFault_of_fault h]; exact ⟨rfl, rfl, rfl, rfl⟩
  | false => rw [clearFault_of_no_fault h]; exact ⟨rfl, rfl, h, rfl⟩

/-- Settles O54: only a write of `CMD` or of `STATUS` reaches the control state, and the former only issues a command,
the latter only clears the fault. -/
theorem hostPowers : Obligations.HostPowers := by
  intro s a
  obtain ⟨w, rfl⟩ | ⟨v, rfl⟩ | ⟨hbusy, hcmd, hfault, hfcause, hhost⟩ := busAccess_cases s a
  · obtain ⟨hfault, hfcause, hhost⟩ := writeCmd_keeps s w
    rw [busAccess_write_cmd]
    exact ⟨fun _ => ⟨w, rfl⟩, fun _ => ⟨w, rfl⟩, hfault.symm.trans, fun hne => absurd hfcause hne, hhost⟩
  · rw [busAccess_write_status]
    cases hbit : v.getLsbD 1 with
    | true =>
      obtain ⟨hbusy, hcmd, hfault, hhost⟩ := clearFault_keeps s
      rw [writeStatus_of_set hbit]
      exact ⟨fun hne => absurd hbusy hne, fun hne => absurd hcmd hne, fun hset => by simp [hfault] at hset,
        fun _ => ⟨v, rfl, hbit⟩, hhost⟩
    | false =>
      rw [writeStatus_of_clear hbit]
      exact ⟨fun hne => absurd rfl hne, fun hne => absurd rfl hne, id, fun hne => absurd rfl hne, rfl⟩
  · exact ⟨fun hne => absurd hbusy hne, fun hne => absurd hcmd hne, hfault.symm.trans,
      fun hne => absurd hfcause hne, hhost⟩

end Sys2Proof.Machine
end

section
/-! Proof of the reset family (spec/70_reset_and_hazards.md): the reset event (R290) is a move that no pending
command holds, and it gives the control state of R34 with the launch content. -/

namespace Sys2Proof.Machine

/-- A reset is never held (R290), so its flag alone says whether it goes before a pending engine step. -/
theorem isEarly_reset (l : Launch) (early : Bool) : (HostMove.mk (.reset l) early).isEarly = early :=
  Bool.and_true early

/-- The reset is the whole step: the engine does not move in it. -/
theorem step_reset {s : State} {l : Launch} {early : Bool} {rest : List HostMove}
    (hhost : s.host = ⟨.reset l, early⟩ :: rest) (hturn : s.busy = false ∨ early = true) :
    step s = .next (State.powerOn { s with host := rest } l) :=
  step_host hhost (by rwa [isEarly_reset])

@[simp] theorem powerOn_poly (s : State) (l : Launch) (r : PReg) : (s.powerOn l).poly r = l.polys[r.val] := rfl

theorem read_powerOn_buf (s : State) (l : Launch) {a : Nat} (h : a < 2048) :
    Memory.read (s.powerOn l).buf a = l.bytes[a] := by
  rw [powerOn_buf, read_ofBytes _ _ h]
  simp [List.getD_eq_getElem?_getD, h]

/-- Settles O57: the step is `State.powerOn`, whose fields do not depend on the command that was pending. -/
theorem resetEvent : Obligations.ResetEvent := by
  intro s l early rest hhost hturn
  exact ⟨_, step_reset hhost hturn, rfl, rfl, rfl, rfl, rfl, fun k => by simp, powerOn_poly _ l,
    fun _ h => read_powerOn_buf _ l h⟩

end Sys2Proof.Machine
end
